-- ==== Sys2Proof/Word.lean ====
section
/-! DEFINITION. The types that hold a byte and an address: the eight lines of the data path and two hex digits, four hex digits. How
many of their bits a bus address and a cell have in a run are the parameters `ADDR_W` and `DATA_W` (`Config.lean`). -/

namespace Sys2Proof

/-- A byte of the link, and what holds a memory cell, a latch or the shared data path, `DATA_W` bits wide (rules R8, R53, R85). -/
abbrev Byte := BitVec 8

/-- An address of the host port, and what holds a bus address, `ADDR_W` bits wide (rules R8, R24, R53, R96). -/
abbrev Addr := BitVec 16

end Sys2Proof
end

