-- ==== Sys2Proof/Syntax.lean ====
section
/-! DEFINITION. The names the spec gives things: phases, directions, banks, frame kinds, error causes, the parser's state,
and `Instr`, one constructor for each row of `spec/opcode_table.json`. -/

namespace Sys2Proof

/-- The sequencer's four states (rule R22). -/
inductive Phase where
  | idle   -- "clock disabled, no bus activity"
  | acqLo  -- AcquireAddressLow
  | acqHi  -- AcquireAddressHigh
  | data   -- DriveOrSampleData
  deriving DecidableEq, Repr, Inhabited

/-- The direction of a bus cycle (rules R18, R25). -/
inductive Dir where
  | cpuRead   -- the target CPU reads; the block drives the data path
  | cpuWrite  -- the target CPU writes; the block samples
  deriving DecidableEq, Repr, Inhabited

/-- The two memory banks (rules R39, R40, R56). -/
inductive Bank where
  | ram
  | rom
  deriving DecidableEq, Repr, Inhabited

/-- The nine bits one `Sample()` returns (rule R12). -/
structure Sample where
  rw : Bool
  b  : Byte
  deriving DecidableEq, Repr, Inhabited

/-- The Bus Sample record (rule R27). -/
structure BusSample where
  addr : Addr
  dir  : Dir
  data : Byte
  deriving DecidableEq, Repr, Inhabited

/-- Whose atomic step comes next in the interleaving (rules R14, R61): the engine, the host, or the host port's abstract
move `ResetRelease` (rule R145). -/
inductive Turn where
  | engine
  | host
  | release
  deriving DecidableEq, Repr, Inhabited

/-- `RESET_RELEASE_POLICY` (rules R8, R145). -/
inductive ReleasePolicy where
  | never
  | anyTime
  | withResponse
  deriving DecidableEq, Repr, Inhabited

/-- The block's one-bit output pins (rules R34 to R37). -/
inductive Pin where
  | alEn
  | ahEn
  | dEn
  | clk
  | dpDir
  | resetOut
  deriving DecidableEq, Repr, Inhabited

/-- The kind of a frame from the host, told by its sentinel (rules R17, R85). -/
inductive Kind where
  | message  -- sentinel `!`, fire-and-forget
  | request  -- sentinel `?`, exactly one response
  deriving DecidableEq, Repr, Inhabited

/-- The causes of an `ERROR` frame (rule R191). -/
inductive Cause where
  | unknownAction
  | frameTooLarge
  | malformedHeader
  | outOfRange
  | invalidDigit
  | badArgument
  deriving DecidableEq, Repr, Inhabited

/-- The setting keys the dispatcher recognises (rule R100). -/
inductive SettKey where
  | baud
  | tick
  | name
  | rams
  deriving DecidableEq, Repr, Inhabited

/-- The operands a payload holds, or the cause for which the command's own tests reject it (rules R99, R103). -/
inductive Arg (α : Type) where
  | ok  (x : α)
  | bad (cause : Cause)
  deriving DecidableEq, Repr

/-- The operands of a `ROMLW` whose address is well written: the start address, the bytes of the digit pairs before the
first bad one, and whether the digits end there (`clean`) or in a bad pair or a lone digit (rule R164). -/
structure RomLoad where
  addr  : Addr
  data  : List Byte
  clean : Bool
  deriving DecidableEq, Repr

/-- The operations of the block (rule R3): one constructor per row of `spec/opcode_table.json`. -/
inductive Instr where
  -- engine operations (rules R111 to R116); they have no operands (rule R83)
  | eIdlePoll
  | eAcqLo
  | eAcqHi
  | eDataWr
  | eDataRd
  | eClkFall
  -- host-port control commands (rules R141 to R148)
  | clock0
  | clock1
  | clockOther (payload : List Byte)
  | clockPulse
  | reset
  | resetRelease
  | settTick (x : Arg Nat)
  -- host-port memory commands (rules R163 to R167)
  | rom (x : Arg (Addr × Byte))
  | romlw (x : Arg RomLoad)
  | ramclr
  | ramlr (x : Arg (Addr × Nat))
  | romlr (x : Arg (Addr × Nat))
  -- link and settings commands, the `ERROR` frame, anything else (rules R181 to R185, R101)
  | awake
  | sett (x : Arg (SettKey × List Byte))
  | setting (x : Arg SettKey)
  | save
  | error (code : Int)
  | unknownAction (kind : Kind) (action : List Byte)
  deriving DecidableEq, Repr

/-- The states of the Link Frame Parser (rule R43). -/
inductive PState where
  | awaitingSentinel
  | awaitingOpenBrace
  | readingHeader
  | readingPayload
  deriving DecidableEq, Repr, Inhabited

/-- The parser state of rule R43. -/
structure Parser where
  pstate   : PState
  kind     : Kind
  /-- the characters seen since the open brace -/
  header   : List Byte
  /-- the position in `header` of the first comma -/
  commaAt  : Option Nat
  declared : Nat
  payload  : List Byte
  /-- how many payload bytes have been accumulated -/
  got      : Nat
  deriving DecidableEq, Repr

/-- What one input byte brings about outside the parser's own state (rules R88 to R94). -/
inductive ParserEvent where
  | quiet
  | frame (kind : Kind) (action payload : List Byte)
  | error (cause : Cause)
  deriving DecidableEq, Repr

end Sys2Proof
end

