-- ==== Sys2Proof/Config.lean ====
section
/-! DEFINITION. What is fixed for a run: the parameters of rule R8 (`Params`, with the defaults the spec lists), and the
opaque constants that stand for what the spec leaves open: launch contents, unspecified start-up values, the environment's
answers, the order of the agents' steps, the `SAVE` response. Nothing in Lean can prove what an opaque constant is. -/

namespace Sys2Proof

/-- The parameters of rule R8, but for those that are a function or an operation (log entries 11, 12, 25). They are carried in
the state as constants of the run (log entry 2), so a statement about every state holds for every value of them, the `OPEN` ones
included. -/
structure Params where
  /-- width of a bus address, at most what `Addr` holds -/
  addrW              : Fin 17
  /-- width of the shared data path and of a memory cell, at most what `Byte` holds -/
  dataW              : Fin 9
  ramLen             : Nat
  romLen             : Nat
  fallbackByte       : Byte
  payloadCap         : Nat
  headerCap          : Nat
  rwReadLevel        : Bool
  errUnknownAction   : Int
  errFrameTooLarge   : Int
  errMalformedHeader : Int
  errOutOfRange      : Int
  errInvalidDigit    : Int
  errBadArgument     : Int
  countRadix         : Nat
  /-- the fixed settle delay, a positive duration whose unit is open -/
  tSettle            : Nat
  initResetAsserted  : Bool
  releasePolicy      : ReleasePolicy
  preemptInPayload   : Bool
  deriving DecidableEq, Repr

namespace Config

/-- FREE VALUE. Launch contents of each RAM cell (rules R39, R222; log entry 5). -/
opaque launchRam : Nat → Byte
/-- FREE VALUE. Launch contents of each ROM cell (rules R40, R222; log entry 5). -/
opaque launchRom : Nat → Byte

/-- Start-up value of `al`, unspecified (rules R24, R221; log entry 6). -/
opaque startAl : Byte
/-- Start-up value of `ah`, unspecified (rules R24, R221; log entry 6). -/
opaque startAh : Byte
/-- Start-up value of `dir`, unspecified (rules R25, R221; log entry 6). -/
opaque startDir : Dir
/-- Start-up value of `dout`, unspecified (rules R26, R221; log entry 6). -/
opaque startDout : Byte
/-- Start-up value of the Bus Sample, unspecified (rules R27, R221; log entry 6). -/
opaque startBs : BusSample
/-- Start-up value of `single_step`, unspecified (rules R30, R221; log entry 6). -/
opaque startSingleStep : Bool
/-- `INIT_RESET_ASSERTED`, OPEN (rules R8, R31; log entry 7). -/
opaque initResetAsserted : Bool
/-- The "clock delay" the persistence collaborator loads at start-up (rules R32, R44; log entry 7). -/
opaque loadedClockDelay : Nat
/-- The other three members of the loaded Settings Record, as text (rule R44; log entry 8). -/
opaque loadedBaud : List Byte
/-- See `loadedBaud`. -/
opaque loadedName : List Byte
/-- See `loadedBaud`. -/
opaque loadedRams : List Byte

/-- `ERR_MALFORMED_HEADER`, OPEN (rules R8, R191; log entry 3). -/
opaque errMalformedHeader : Int
/-- `ERR_OUT_OF_RANGE`, OPEN (rules R8, R191; log entry 3). -/
opaque errOutOfRange : Int
/-- `ERR_INVALID_DIGIT`, OPEN (rules R8, R191; log entry 3). -/
opaque errInvalidDigit : Int
/-- `ERR_BAD_ARGUMENT`, OPEN (rules R8, R191; log entry 3). -/
opaque errBadArgument : Int
/-- `HEADER_CAP`, OPEN (rules R8, R90; log entry 4). -/
opaque headerCap : Nat
/-- `COUNT_RADIX`, OPEN (rules R8, R99; log entry 27). -/
opaque countRadix : Nat
/-- By how much `T_SETTLE`, OPEN, exceeds the least positive duration (rules R8, R207; log entry 24). -/
opaque settleRoom : Nat
/-- `RESET_RELEASE_POLICY`, OPEN (rules R8, R145; log entry 13). -/
opaque releasePolicy : ReleasePolicy

/-- FREE VALUE. The `n`-th free answer of TARGET to `Sample()` (rule R12; log entry 9). -/
opaque freeSample : Nat → Sample
/-- FREE VALUE. The `n`-th free choice of the agent that steps next (rules R14, R61; log entry 10). -/
opaque freeTurn : Nat → Turn
/-- `SAVE_RESPONSE_FORMAT`, OPEN: action and payload of the `SAVE` response, from the texts of the four settings in the
order baud, tick, name, rams (rules R8, R184; log entry 11). -/
opaque saveResponse : List Byte → List Byte → List Byte → List Byte → List Byte × List Byte
/-- `PIN_POLARITY`, OPEN: the electrical level of each asserted output (rules R8, R34; log entry 12). -/
opaque pinPolarity : Pin → Bool

end Config

/-- The values rule R8 lists, each `OPEN` one an opaque constant (log entries 3, 4, 7, 13, 24, 27). The start-up state takes
any other parameters as an argument (`State.startUp`). -/
def Params.default : Params where
  addrW              := 16
  dataW              := 8
  ramLen             := 0x800
  romLen             := 0x10000
  fallbackByte       := 0x00#8
  payloadCap         := 512
  headerCap          := Config.headerCap
  rwReadLevel        := true
  errUnknownAction   := -1
  errFrameTooLarge   := -2
  errMalformedHeader := Config.errMalformedHeader
  errOutOfRange      := Config.errOutOfRange
  errInvalidDigit    := Config.errInvalidDigit
  errBadArgument     := Config.errBadArgument
  countRadix         := Config.countRadix
  tSettle            := Config.settleRoom + 1
  initResetAsserted  := Config.initResetAsserted
  releasePolicy      := Config.releasePolicy
  preemptInPayload   := false

/-- The same parameters with room for 32 more header characters, enough for every row of the opcode table. The two functions
that place or read a table row use them, so that `HEADER_CAP` stays open (log entry 4). -/
def Params.roomy (p : Params) : Params := { p with headerCap := p.headerCap + 32 }

end Sys2Proof
end

