-- ==== Sys2Proof/Machine/Operands.lean ====
section
/-! DEFINITION. Operand assembly (rules R53, R54, R96 to R99): the hex codec, numerals, frame text, and each payload shape
read into the operands of its command. -/

namespace Sys2Proof

/-! ### Widths (rules R8, R24, R59) -/

/-- The `DATA_W` bits that a cell, a latch or the data path has of a byte: all of it at 8 (rules R8, R59; log entry 2). -/
def Params.cut (p : Params) (v : Byte) : Byte := (v.setWidth p.dataW.val).setWidth 8

/-- The `ADDR_W` bits that a bus address has of an address: all of it at 16 (rule R8; log entry 2). -/
def Params.cutAddr (p : Params) (a : Addr) : Addr := (a.setWidth p.addrW.val).setWidth 16

/-- `addr = ah : al`, `ah` in bits 15 to 8 at the listed widths (rules R8, R24, R53). -/
def busAddr (p : Params) (ah al : Byte) : Addr := p.cutAddr (ah.setWidth 16 <<< p.dataW.val ||| al.setWidth 16)

/-! ### Characters and keywords (rules R85, R100) -/

def chBang : Byte := 0x21#8       -- !
def chQuery : Byte := 0x3F#8      -- ?
def chOpen : Byte := 0x7B#8       -- open brace
def chClose : Byte := 0x7D#8      -- close brace
def chComma : Byte := 0x2C#8      -- ,
def chMinus : Byte := 0x2D#8      -- -
def ch0 : Byte := 0x30#8
def ch1 : Byte := 0x31#8
/-- `G`, the first upper-case letter that is no hex digit: the encoder writes it where a form needs a bad digit. -/
def chBad : Byte := 0x47#8

/-- CLOCK -/
def kwClock : List Byte := [0x43#8, 0x4C#8, 0x4F#8, 0x43#8, 0x4B#8]
/-- CLOCKPULSE -/
def kwClockPulse : List Byte :=
  [0x43#8, 0x4C#8, 0x4F#8, 0x43#8, 0x4B#8, 0x50#8, 0x55#8, 0x4C#8, 0x53#8, 0x45#8]
/-- RESET -/
def kwReset : List Byte := [0x52#8, 0x45#8, 0x53#8, 0x45#8, 0x54#8]
/-- ROM -/
def kwRom : List Byte := [0x52#8, 0x4F#8, 0x4D#8]
/-- ROMLW -/
def kwRomlw : List Byte := [0x52#8, 0x4F#8, 0x4D#8, 0x4C#8, 0x57#8]
/-- RAMCLR -/
def kwRamclr : List Byte := [0x52#8, 0x41#8, 0x4D#8, 0x43#8, 0x4C#8, 0x52#8]
/-- RAMLR -/
def kwRamlr : List Byte := [0x52#8, 0x41#8, 0x4D#8, 0x4C#8, 0x52#8]
/-- ROMLR -/
def kwRomlr : List Byte := [0x52#8, 0x4F#8, 0x4D#8, 0x4C#8, 0x52#8]
/-- AWAKE -/
def kwAwake : List Byte := [0x41#8, 0x57#8, 0x41#8, 0x4B#8, 0x45#8]
/-- SETT -/
def kwSett : List Byte := [0x53#8, 0x45#8, 0x54#8, 0x54#8]
/-- SETTING -/
def kwSetting : List Byte := [0x53#8, 0x45#8, 0x54#8, 0x54#8, 0x49#8, 0x4E#8, 0x47#8]
/-- SAVE -/
def kwSave : List Byte := [0x53#8, 0x41#8, 0x56#8, 0x45#8]
/-- ERROR -/
def kwError : List Byte := [0x45#8, 0x52#8, 0x52#8, 0x4F#8, 0x52#8]

/-- The key's text: BAUD, TICK, NAME, RAMS (rule R100). -/
def keyText : SettKey → List Byte
  | .baud => [0x42#8, 0x41#8, 0x55#8, 0x44#8]
  | .tick => [0x54#8, 0x49#8, 0x43#8, 0x4B#8]
  | .name => [0x4E#8, 0x41#8, 0x4D#8, 0x45#8]
  | .rams => [0x52#8, 0x41#8, 0x4D#8, 0x53#8]

/-- The key a text names, exactly (rules R101, R182). -/
def keyOf (t : List Byte) : Option SettKey :=
  if t = keyText .baud then some .baud
  else if t = keyText .tick then some .tick
  else if t = keyText .name then some .name
  else if t = keyText .rams then some .rams
  else none

/-! ### Hex codec (rules R96, R97) -/

/-- The value of a digit `0-9A-Fa-f`, either case (rule R96). -/
def digitVal (c : Byte) : Option Nat :=
  if 0x30 ≤ c.toNat ∧ c.toNat ≤ 0x39 then some (c.toNat - 0x30)
  else if 0x41 ≤ c.toNat ∧ c.toNat ≤ 0x46 then some (c.toNat - 0x37)
  else if 0x61 ≤ c.toNat ∧ c.toNat ≤ 0x66 then some (c.toNat - 0x57)
  else none

/-- The upper-case digit of a value below 16 (rule R97). -/
def digitChar (d : Nat) : Byte :=
  if d < 10 then BitVec.ofNat 8 (0x30 + d) else BitVec.ofNat 8 (0x37 + d)

/-- `hex2_to_byte` (rule R96); `none` is `InvalidDigit`. -/
def hex2 (c0 c1 : Byte) : Option Byte :=
  match digitVal c0, digitVal c1 with
  | some d0, some d1 => some (BitVec.ofNat 8 (16 * d0 + d1))
  | _, _ => none

/-- `hex4_to_word` (rule R96); `none` is `InvalidDigit`. -/
def hex4 (c0 c1 c2 c3 : Byte) : Option Addr :=
  match digitVal c0, digitVal c1, digitVal c2, digitVal c3 with
  | some d0, some d1, some d2, some d3 => some (BitVec.ofNat 16 (4096 * d0 + 256 * d1 + 16 * d2 + d3))
  | _, _, _, _ => none

/-- `byte_to_hex2` (rule R97). -/
def byteToHex2 (v : Byte) : List Byte :=
  [digitChar (v.toNat / 16), digitChar (v.toNat % 16)]

/-- `word_to_hex4` (rule R97). -/
def wordToHex4 (w : Addr) : List Byte :=
  [digitChar (w.toNat / 4096), digitChar (w.toNat / 256 % 16), digitChar (w.toNat / 16 % 16), digitChar (w.toNat % 16)]

/-- The digit pairs of a byte list, in order (rule R54). -/
def hexPairsText (bs : List Byte) : List Byte := bs.flatMap byteToHex2

/-- Digit pairs up to the first bad one or a lone last digit; `true` when neither is met (rule R164). -/
def hexPairs : List Byte → List Byte × Bool
  | [] => ([], true)
  | [_] => ([], false)
  | c0 :: c1 :: rest =>
    match hex2 c0 c1 with
    | some v => (v :: (hexPairs rest).1, (hexPairs rest).2)
    | none => ([], false)

/-! ### Numerals (rules R98, R99, R105, R185) -/

/-- The digits of `n` in `radix`, most significant first, in front of `acc`; `fuel` bounds how many. -/
def numeralGo (radix : Nat) : Nat → Nat → List Byte → List Byte
  | 0, _, acc => acc
  | fuel + 1, n, acc =>
    if n < radix then digitChar n :: acc
    else numeralGo radix fuel (n / radix) (digitChar (n % radix) :: acc)

/-- `n` as an unsigned numeral without leading zeros (rule R105). -/
def numeral (radix n : Nat) : List Byte := numeralGo radix (n + 1) n []

/-- Positional value of a digit string, starting from `acc`; `none` when a character is no digit of `radix`. -/
def numeralValue (radix : Nat) : Nat → List Byte → Option Nat
  | acc, [] => some acc
  | acc, c :: rest =>
    match digitVal c with
    | some d => if d < radix then numeralValue radix (acc * radix + d) rest else none
    | none => none

/-- An unsigned numeral: one digit or more, leading zeros allowed, no sign, no blank (rule R98). -/
def parseNumeral (radix : Nat) (t : List Byte) : Option Nat :=
  if t = [] then none else numeralValue radix 0 t

/-- An error code as a signed decimal numeral (rule R185). -/
def signedNumeral (c : Int) : List Byte :=
  if c < 0 then chMinus :: numeral 10 c.natAbs else numeral 10 c.natAbs

/-! ### Frame text (rules R85, R105) -/

def sentinel : Kind → Byte
  | .message => chBang
  | .request => chQuery

/-- A frame: sentinel, open brace, action, comma, exact decimal length, close brace, payload. -/
def frameText (k : Kind) (action payload : List Byte) : List Byte :=
  sentinel k :: chOpen :: (action ++ chComma :: (numeral 10 payload.length ++ chClose :: payload))

/-- A response frame: its sentinel is the one of a Message (rules R85, R105). -/
def responseText (action payload : List Byte) : List Byte := frameText .message action payload

/-- The `ERROR` response (rule R185). -/
def errorText (code : Int) : List Byte := responseText kwError (signedNumeral code)

/-- The code of each cause (rule R191). -/
def Params.code (p : Params) : Cause → Int
  | .unknownAction   => p.errUnknownAction
  | .frameTooLarge   => p.errFrameTooLarge
  | .malformedHeader => p.errMalformedHeader
  | .outOfRange      => p.errOutOfRange
  | .invalidDigit    => p.errInvalidDigit
  | .badArgument     => p.errBadArgument

/-! ### Payload shapes (rules R99, R103; the tests of each in the order of its command's pseudocode, rule R200) -/

/-- The text before and after the first comma. -/
def splitComma : List Byte → Option (List Byte × List Byte)
  | [] => none
  | c :: rest =>
    if c = chComma then some ([], rest)
    else (splitComma rest).map fun kv => (c :: kv.1, kv.2)

/-- `addr,hex2` of `ROM` (rule R163). -/
def argRom : List Byte → Arg (Addr × Byte)
  | [a0, a1, a2, a3, c, v0, v1] =>
    if c = chComma then
      match hex4 a0 a1 a2 a3, hex2 v0 v1 with
      | some a, some v => .ok (a, v)
      | _, _ => .bad .invalidDigit
    else .bad .badArgument
  | _ => .bad .badArgument

/-- `addr,hexpairs` of `ROMLW` (rule R164). -/
def argRomLoad : List Byte → Arg RomLoad
  | a0 :: a1 :: a2 :: a3 :: c :: digits =>
    if c = chComma then
      match hex4 a0 a1 a2 a3 with
      | some a => .ok { addr := a, data := (hexPairs digits).1, clean := (hexPairs digits).2 }
      | none => .bad .invalidDigit
    else .bad .badArgument
  | _ => .bad .badArgument

/-- `addr,count` of `RAMLR` and `ROMLR`, the count in `COUNT_RADIX` (rules R166, R167). -/
def argRead (p : Params) : List Byte → Arg (Addr × Nat)
  | a0 :: a1 :: a2 :: a3 :: c :: count =>
    if c = chComma then
      match parseNumeral p.countRadix count with
      | some n =>
        match hex4 a0 a1 a2 a3 with
        | some a => .ok (a, n)
        | none => .bad .invalidDigit
      | none => .bad .badArgument
    else .bad .badArgument
  | _ => .bad .badArgument

/-- The value of `SETT TICK`: an unsigned decimal numeral (rule R146). -/
def argTick (value : List Byte) : Arg Nat :=
  match parseNumeral 10 value with
  | some n => .ok n
  | none => .bad .badArgument

/-- `key` of `SETTING` (rule R183). -/
def argKey (payload : List Byte) : Arg SettKey :=
  match keyOf payload with
  | some k => .ok k
  | none => .bad .badArgument

end Sys2Proof
end

