-- ==== Sys2Proof/Decode.lean ====
section
/-! DEFINITION. Decoding, total on any bits and bytes, rejecting by name; then the encoder. The engine's selector (rules R80,
R81), the Link Frame Parser (rules R88 to R95), the dispatcher's table (rules R100 to R103). -/

namespace Sys2Proof

/-- Why a word or a byte string is no operation. -/
inductive Reject where
  /-- selectors 001-, 011-, 101-: clock high outside the data phase (rule R81) -/
  | unreachableSelector
  /-- the bytes end before a frame is complete (rule R87) -/
  | incomplete
  /-- the parser rejects the frame at its header (rules R90, R91) -/
  | badHeader (cause : Cause)
  deriving DecidableEq, Repr

/-! ### Engine operations: the selector -/

/-- The binary code of a phase (rule R22). -/
def phaseCode : Phase → BitVec 2
  | .idle  => 0b00#2
  | .acqLo => 0b01#2
  | .acqHi => 0b10#2
  | .data  => 0b11#2

/-- The phase of a code; every code is used (rule R22). -/
def phaseOfCode (c : BitVec 2) : Phase :=
  if c = 0b00#2 then .idle else if c = 0b01#2 then .acqLo else if c = 0b10#2 then .acqHi else .data

/-- Bit `d` of the selector: 1 when `dir = CpuRead` (rule R80). -/
def dirBit : Dir → BitVec 1
  | .cpuRead  => 1#1
  | .cpuWrite => 0#1

/-- `sel[3:0] = phase[1:0] : CLK : d` (rule R80). -/
def selector (ph : Phase) (clk : Bool) (d : Dir) : BitVec 4 :=
  phaseCode ph ++ BitVec.ofBool clk ++ dirBit d

/-- One row of the selector table: mask, match, operation (rule R80). -/
structure SelectorRow where
  mask : BitVec 4
  val  : BitVec 4
  op   : Instr

/-- The table of rule R80. -/
def selectorTable : List SelectorRow :=
  [ ⟨0b1110#4, 0b0000#4, .eIdlePoll⟩,
    ⟨0b1110#4, 0b0100#4, .eAcqLo⟩,
    ⟨0b1110#4, 0b1000#4, .eAcqHi⟩,
    ⟨0b1111#4, 0b1100#4, .eDataWr⟩,
    ⟨0b1111#4, 0b1101#4, .eDataRd⟩,
    ⟨0b1110#4, 0b1110#4, .eClkFall⟩ ]

/-- The first row of a table that a selector matches. -/
def selectRow (w : BitVec 4) : List SelectorRow → Except Reject Instr
  | [] => .error .unreachableSelector
  | r :: rest => if w &&& r.mask = r.val then .ok r.op else selectRow w rest

/-- The engine operation a selector enables (rule R80), or its rejection (rule R81). -/
def decodeSelector (w : BitVec 4) : Except Reject Instr := selectRow w selectorTable

/-! ### Host operations: the Link Frame Parser -/

/-- The parser at start-up (rule R43; log entry 19). -/
def Parser.init : Parser :=
  { pstate := .awaitingSentinel, kind := .message, header := [], commaAt := none, declared := 0, payload := [], got := 0 }

/-- All buffers cleared, awaiting a sentinel (rules R94, R202; log entry 19). -/
def Parser.clear (q : Parser) : Parser :=
  { q with pstate := .awaitingSentinel, header := [], commaAt := none, declared := 0, payload := [], got := 0 }

/-- A new frame of kind `k` begins (rule R88). -/
def Parser.start (k : Kind) : Parser :=
  { pstate := .awaitingOpenBrace, kind := k, header := [], commaAt := none, declared := 0, payload := [], got := 0 }

/-- The action: the header before its first comma (rule R91). -/
def Parser.action (q : Parser) : List Byte := q.header.take (q.commaAt.getD q.header.length)

/-- The kind a sentinel byte opens (rule R88). -/
def kindOf (c : Byte) : Option Kind :=
  if c = chBang then some .message else if c = chQuery then some .request else none

/-- Closing the header on the close brace, the tests in the order of rule R91. -/
def closeHeader (p : Params) (q : Parser) : Parser × ParserEvent :=
  match q.commaAt with
  | none => (q.clear, .error .malformedHeader)
  | some n =>
    match parseNumeral 10 (q.header.drop (n + 1)) with
    | none => (q.clear, .error .malformedHeader)
    | some d =>
      if p.payloadCap < d then (q.clear, .error .frameTooLarge)
      else if d = 0 then ({ q with declared := 0 }, .frame q.kind q.action [])
      else ({ q with declared := d, got := 0, pstate := .readingPayload }, .quiet)

/-- A byte of the header other than a sentinel (rule R90; log entry 17). -/
def headerByte (p : Params) (q : Parser) (c : Byte) : Parser × ParserEvent :=
  if c = chClose then closeHeader p q
  else if p.headerCap ≤ q.header.length then (q.clear, .error .malformedHeader)
  else if c = chComma ∧ q.commaAt = none then
    ({ q with commaAt := some q.header.length, header := q.header ++ [c] }, .quiet)
  else ({ q with header := q.header ++ [c] }, .quiet)

/-- A byte of the payload, whatever its value (rule R92). -/
def payloadByte (q : Parser) (c : Byte) : Parser × ParserEvent :=
  if q.got + 1 = q.declared then
    ({ q with payload := q.payload ++ [c], got := q.got + 1 }, .frame q.kind q.action (q.payload ++ [c]))
  else ({ q with payload := q.payload ++ [c], got := q.got + 1 }, .quiet)

/-- One input byte (rules R88 to R92); a sentinel pre-empts everywhere but in a payload, and there too when
`PREEMPT_IN_PAYLOAD` is set. -/
def parserByte (p : Params) (q : Parser) (c : Byte) : Parser × ParserEvent :=
  match q.pstate with
  | .awaitingSentinel =>
    match kindOf c with
    | some k => (Parser.start k, .quiet)
    | none => (q, .quiet)
  | .awaitingOpenBrace =>
    match kindOf c with
    | some k => (Parser.start k, .quiet)
    | none => if c = chOpen then ({ q with pstate := .readingHeader, header := [] }, .quiet) else (q.clear, .quiet)
  | .readingHeader =>
    match kindOf c with
    | some k => (Parser.start k, .quiet)
    | none => headerByte p q c
  | .readingPayload =>
    match kindOf c, p.preemptInPayload with
    | some k, true => (Parser.start k, .quiet)
    | _, _ => payloadByte q c

/-! ### Host operations: the dispatcher's table -/

/-- `CLOCK` (rules R141, R142, R147). -/
def dispatchClock (payload : List Byte) : Instr :=
  if payload = [ch0] then .clock0 else if payload = [ch1] then .clock1 else .clockOther payload

/-- `SETT key,value` (rules R146, R182). -/
def dispatchSett (payload : List Byte) : Instr :=
  match splitComma payload with
  | none => .sett (.bad .badArgument)
  | some (k, v) =>
    match keyOf k with
    | some .tick => .settTick (argTick v)
    | some key => .sett (.ok (key, v))
    | none => .sett (.bad .badArgument)

/-- The Messages (rules R100, R101). -/
def dispatchMessage (action payload : List Byte) : Instr :=
  if action = kwRomlw then .romlw (argRomLoad payload)
  else if action = kwRamclr then .ramclr
  else .unknownAction .message action

/-- The Requests (rules R100, R101). -/
def dispatchRequest (p : Params) (action payload : List Byte) : Instr :=
  if action = kwRom then .rom (argRom payload)
  else if action = kwRamlr then .ramlr (argRead p payload)
  else if action = kwRomlr then .romlr (argRead p payload)
  else if action = kwClock then dispatchClock payload
  else if action = kwClockPulse then .clockPulse
  else if action = kwReset then .reset
  else if action = kwAwake then .awake
  else if action = kwSett then dispatchSett payload
  else if action = kwSetting then .setting (argKey payload)
  else if action = kwSave then .save
  else .unknownAction .request action

/-- The command a completed frame stands for (rules R84, R94, R100, R101). -/
def dispatch (p : Params) (k : Kind) (action payload : List Byte) : Instr :=
  match k with
  | .message => dispatchMessage action payload
  | .request => dispatchRequest p action payload

/-- The first command in a byte string, read from parser state `q` on, and the bytes after it. -/
def decodeFrom (p : Params) : Parser → List Byte → Except Reject (Instr × List Byte)
  | _, [] => .error .incomplete
  | q, c :: rest =>
    match parserByte p q c with
    | (q', .quiet) => decodeFrom p q' rest
    | (_, .frame k action payload) => .ok (dispatch p k action payload, rest)
    | (_, .error e) => .error (.badHeader e)

/-- The first command in a byte string and the bytes after it. -/
def decodeFrame (p : Params) (bytes : List Byte) : Except Reject (Instr × List Byte) :=
  decodeFrom p Parser.init bytes

/-! ### The encoder -/

/-- The selector of an engine operation, don't-care bits 0 (rule R80). -/
def encodeSelector : Instr → Option (BitVec 4)
  | .eIdlePoll => some 0b0000#4
  | .eAcqLo    => some 0b0100#4
  | .eAcqHi    => some 0b1000#4
  | .eDataWr   => some 0b1100#4
  | .eDataRd   => some 0b1101#4
  | .eClkFall  => some 0b1110#4
  | _ => none

/-- Payload of a `ROM` (rule R163); a rejected form is written as one text that is rejected so. -/
def romPayload : Arg (Addr × Byte) → List Byte
  | .ok (a, v) => wordToHex4 a ++ chComma :: byteToHex2 v
  | .bad .invalidDigit => [chBad, ch0, ch0, ch0, chComma, ch0, ch0]
  | .bad _ => []

/-- Payload of a `ROMLW` (rule R164). -/
def romlwPayload : Arg RomLoad → List Byte
  | .ok d => wordToHex4 d.addr ++ chComma :: (hexPairsText d.data ++ if d.clean then [] else [chBad])
  | .bad .invalidDigit => [chBad, ch0, ch0, ch0, chComma]
  | .bad _ => []

/-- Payload of a `RAMLR` or `ROMLR` (rules R166, R167). -/
def readPayload (p : Params) : Arg (Addr × Nat) → List Byte
  | .ok (a, n) => wordToHex4 a ++ chComma :: numeral p.countRadix n
  | .bad .invalidDigit => [chBad, ch0, ch0, ch0, chComma, ch0]
  | .bad _ => []

/-- Payload of a `SETT TICK` (rule R146). -/
def tickPayload : Arg Nat → List Byte
  | .ok n => keyText .tick ++ chComma :: numeral 10 n
  | .bad _ => keyText .tick ++ [chComma]

/-- Payload of a `SETT` (rule R182). -/
def settPayload : Arg (SettKey × List Byte) → List Byte
  | .ok (k, v) => keyText k ++ chComma :: v
  | .bad _ => []

/-- Payload of a `SETTING` (rule R183). -/
def settingPayload : Arg SettKey → List Byte
  | .ok k => keyText k
  | .bad _ => []

/-- Kind, action and payload of the frame that carries an operation (rules R84, R100); none for the engine's operations
and for `ResetRelease` (rule R145). The `ERROR` frame is the one only the block sends (rule R185). -/
def frameOf (p : Params) : Instr → Option (Kind × List Byte × List Byte)
  | .eIdlePoll | .eAcqLo | .eAcqHi | .eDataWr | .eDataRd | .eClkFall | .resetRelease => none
  | .clock0 => some (.request, kwClock, [ch0])
  | .clock1 => some (.request, kwClock, [ch1])
  | .clockOther pl => some (.request, kwClock, pl)
  | .clockPulse => some (.request, kwClockPulse, [])
  | .reset => some (.request, kwReset, [])
  | .settTick x => some (.request, kwSett, tickPayload x)
  | .rom x => some (.request, kwRom, romPayload x)
  | .romlw x => some (.message, kwRomlw, romlwPayload x)
  | .ramclr => some (.message, kwRamclr, [])
  | .ramlr x => some (.request, kwRamlr, readPayload p x)
  | .romlr x => some (.request, kwRomlr, readPayload p x)
  | .awake => some (.request, kwAwake, [])
  | .sett x => some (.request, kwSett, settPayload x)
  | .setting x => some (.request, kwSetting, settingPayload x)
  | .save => some (.request, kwSave, [])
  | .error c => some (.message, kwError, signedNumeral c)
  | .unknownAction k act => some (k, act, [])

/-- The bytes of the frame that carries an operation. -/
def encodeFrame (p : Params) (i : Instr) : Option (List Byte) :=
  (frameOf p i).map fun f => frameText f.1 f.2.1 f.2.2

/-- The encoding of an operation: a selector, or the bytes of a frame, or nothing (`ResetRelease`, rule R145). -/
inductive Encoding where
  | selector (w : BitVec 4)
  | frame (bytes : List Byte)
  | nothing
  deriving DecidableEq, Repr

/-- The words of an operation. -/
def encode (p : Params) (i : Instr) : Encoding :=
  match encodeSelector i with
  | some w => .selector w
  | none =>
    match encodeFrame p i with
    | some bytes => .frame bytes
    | none => .nothing

/-! ### Words as `spec/opcode_table.json` numbers them -/

/-- The low `n` bytes of `w`, the first in bits 7..0. -/
def bytesOfNat : Nat → Nat → List Byte
  | 0, _ => []
  | n + 1, w => BitVec.ofNat 8 w :: bytesOfNat n (w / 256)

/-- The instruction's bytes: those the table gives, then zeros up to the longest frame. -/
def tableBytes (p : Params) (nbits w : Nat) : List Byte :=
  bytesOfNat (nbits / 8) w ++ List.replicate (p.payloadCap + 32) 0x00#8

/-- The instruction the decoder reads from a word of the opcode table: up to 8 bits are an engine selector, more are the
bytes of a frame, with room for its header (log entry 4). -/
def decodeTableWord (nbits w : Nat) : Option Instr :=
  if nbits ≤ 8 then
    if w < 16 then
      match decodeSelector (BitVec.ofNat 4 w) with
      | .ok i => some i
      | .error _ => none
    else none
  else
    match decodeFrame Params.default.roomy (tableBytes Params.default nbits w) with
    | .ok (i, _) => some i
    | .error _ => none

end Sys2Proof
end

