-- ==== Sys2Proof/Machine/Flags.lean ====
section
/-! DEFINITION. The flag computations: the direction of a cycle (rule R25) and what the end of a cycle does to
`clock_enabled` and `phase` (rules R66, R116). The block has no arithmetic flags (rule R28). -/

namespace Sys2Proof.Machine

/-- `dir <- (rw == RW_READ_LEVEL) ? CpuRead : CpuWrite` (rules R25, R112). -/
def dirOf (readLevel rw : Bool) : Dir := if rw = readLevel then .cpuRead else .cpuWrite

/-- The phase after the clock falls: `single_step` is tested before `clock_enabled` (rules R116, R199). -/
def phaseAfterCycle (singleStep clockEnabled : Bool) : Phase :=
  if singleStep then .idle else if clockEnabled then .acqLo else .idle

/-- `clock_enabled` after the clock falls: a consumed single step clears it (rules R66, R116). -/
def clockAfterCycle (singleStep clockEnabled : Bool) : Bool := if singleStep then false else clockEnabled

end Sys2Proof.Machine
end

