-- ==== Sys2Proof/Machine/State.lean ====
section
/-! DEFINITION. The machine's state as plain data, its value at start-up, and the reasons a step can stop. -/

namespace Sys2Proof.Machine

/-- A memory bank's written cells, (index, byte) pairs with strictly rising indices; an index that is not listed has its
launch contents (rules R39, R40; log entry 5). -/
abbrev Memory := List Host.Cell

/-- A change of one output pin (rules R11, R38). Driving the data path names the byte `DP_OUT` carries from then on. -/
inductive PinEvent where
  | alEn (level : Bool)
  | ahEn (level : Bool)
  | dEn (level : Bool)
  | clk (level : Bool)
  | dpOff
  | dpOn (out : Byte)
  | resetOut (level : Bool)
  deriving DecidableEq, Repr

/-- A `wait(d)` of ENGINE: how many groups of pin events come before it, and `d`, the least duration between ENGINE's last pin
event before it and ENGINE's next pin event or sample (rules R11, R13; log entry 24). -/
structure Wait where
  after   : Nat
  atLeast : Nat
  deriving DecidableEq, Repr

/-- Where HOST stands in the pseudocode of the command it runs: each position is one atomic step (rules R14, R61). -/
inductive Pos where
  /-- the first step -/
  | start
  /-- the second write of `CLOCK 1`, `CLOCKPULSE`, or of a `RESET` that releases before responding -/
  | second
  /-- `clock_enabled <- false` of LeaseAcquire (rule R161) -/
  | leaseForce
  /-- `repeat: p <- phase until p == Idle` of LeaseAcquire (rule R161) -/
  | leaseWait
  /-- the `k`-th cell write under the lease (rules R164, R165) -/
  | body (k : Nat)
  /-- LeaseRelease (rule R162), and the error to report after it -/
  | leaseRelease (e : Option Cause)
  /-- the `k`-th cell read of a read-back, with the digits so far (rules R166, R167) -/
  | reading (k : Nat) (out : List Byte)
  deriving DecidableEq, Repr

/-- The Settings Record as text, less the clock delay, which is `clock_period_hint` (rule R44; log entry 8). -/
structure Settings where
  baud : List Byte
  name : List Byte
  rams : List Byte
  deriving DecidableEq, Repr

/-- What HOST asks of the persistence and transport collaborators (rules R180, R182, R184; log entry 8). -/
inductive ExtCall where
  /-- a setting is put in the Settings Record -/
  | put (key : SettKey) (value : List Byte)
  /-- the transport is re-established at a rate -/
  | reopen (rate : List Byte)
  /-- the Settings Record is committed -/
  | commit (baud tick name rams : List Byte)
  deriving DecidableEq, Repr

/-- The state: every element of rule R20, then what the model adds (log entries 1, 2, 8 to 10, 13 to 15, 24). `DP_OUT` follows
`dout` and `RESET_OUT` follows `resetAsserted` (rules R36, R37), so neither is stored twice. -/
structure State where
  /-- the sequencer (rule R22) -/
  phase           : Phase
  /-- engine latches (rules R24 to R26) -/
  al              : Byte
  ah              : Byte
  dir             : Dir
  dout            : Byte
  /-- the Bus Sample (rule R27) -/
  bs              : BusSample
  /-- Control State (rules R29 to R32) -/
  clockEnabled    : Bool
  singleStep      : Bool
  resetAsserted   : Bool
  clockPeriodHint : Nat
  /-- output pins (rules R34 to R36) -/
  alEn            : Bool
  ahEn            : Bool
  dEn             : Bool
  clk             : Bool
  dpDir           : Bool
  /-- the Memory Banks (rules R39, R40) -/
  ram             : Memory
  rom             : Memory
  /-- the lease; none: no lease held (rule R42) -/
  leaseSaved      : Option Bool
  /-- the Link Frame Parser (rule R43) -/
  parser          : Parser
  /-- MODEL: the parameters, constant in a run (rule R8) -/
  cfg             : Params
  /-- MODEL: the command HOST runs, if any, and where in it HOST stands (rules R14, R86) -/
  cmd             : Option Instr
  pos             : Pos
  /-- MODEL: whether a `RESET` has run, after which `ResetRelease` is offered (rule R145; log entry 13) -/
  resetRan        : Bool
  /-- MODEL: the collaborator's Settings Record -/
  settings        : Settings
  /-- MODEL: bytes the host has sent and the parser has not read -/
  rx              : List Byte
  /-- MODEL: answers TARGET is known to give to the coming `Sample()` calls -/
  samples         : List Sample
  /-- MODEL: the coming choices of the agent that steps -/
  turns           : List Turn
  /-- MODEL: how many free values have been drawn -/
  draws           : Nat
  /-- MODEL: outputs so far, oldest first: pin events, grouped where simultaneous (rule R38) -/
  pinTrace        : List (List PinEvent)
  /-- MODEL: the waits so far, oldest first (rule R13) -/
  waits           : List Wait
  /-- MODEL: response frames written to the link -/
  sent            : List (List Byte)
  /-- MODEL: requests to the collaborators -/
  calls           : List ExtCall
  deriving DecidableEq, Repr

/-- Why the machine stops. -/
inductive Fault where
  /-- Raised by an engine operation whose `pre:` line does not hold (rules R112 to R116, R118; log entry 18). Safe: no reachable state
  has the engine at such an operation (rule R122). -/
  | preconditionFailed
  /-- Raised by a step whose turn is the engine's while the selector is `001-`, `011-` or `101-`: no operation, no step
  (rule R81; log entry 18). Safe: no reachable state has such a selector. -/
  | noEngineOperation
  deriving DecidableEq, Repr

/-- Why an instruction has no meaning. -/
inductive Refusal where
  /-- Raised by `exec` for an instruction not modelled yet; no arm does. Safe: the machine stops. -/
  | notModelled (mnemonic : String)
  deriving DecidableEq, Repr

/-- The machine at start-up under given parameters (rules R8, R20, R220 to R223). Unspecified values are opaque constants of
`Config`, of the registers' widths (log entries 2, 5 to 8). -/
def State.startUp (p : Params) : State where
  phase           := .idle
  al              := p.cut Config.startAl
  ah              := p.cut Config.startAh
  dir             := Config.startDir
  dout            := p.cut Config.startDout
  bs              := { Config.startBs with addr := p.cutAddr Config.startBs.addr, data := p.cut Config.startBs.data }
  clockEnabled    := false
  singleStep      := Config.startSingleStep
  resetAsserted   := p.initResetAsserted
  clockPeriodHint := Config.loadedClockDelay
  alEn            := false
  ahEn            := false
  dEn             := false
  clk             := false
  dpDir           := false
  ram             := []
  rom             := []
  leaseSaved      := none
  parser          := Parser.init
  cfg             := p
  cmd             := none
  pos             := .start
  resetRan        := false
  settings        := { baud := Config.loadedBaud, name := Config.loadedName, rams := Config.loadedRams }
  rx              := []
  samples         := []
  turns           := []
  draws           := 0
  pinTrace        := []
  waits           := []
  sent            := []
  calls           := []

/-- The machine at start-up under the parameters of rule R8, each `OPEN` one an opaque constant. -/
def State.reset : State := State.startUp Params.default

end Sys2Proof.Machine
end

