-- ==== Sys2Proof/Machine/Ops.lean ====
section
/-! DEFINITION. The named operations over pins, memories, the environment's draws, the host port's control flow and the
lease; raising an error, the block's only exception (rules R202, R203). -/

namespace Sys2Proof.Machine

/-- What one micro-step or engine operation answers. -/
abbrev Result := Host.Outcome State Fault Refusal

/-! ### Pins (rules R34 to R38) -/

/-- Append a group of simultaneous pin events; no event, no entry (rule R38). -/
def noteEvents (t : List (List PinEvent)) (es : List PinEvent) : List (List PinEvent) :=
  if es = [] then t else t ++ [es]

/-- The event of writing `v` on a pin that holds `old`: none when nothing changes (rule R38). -/
def pinChange (old v : Bool) (e : PinEvent) : List PinEvent := if old = v then [] else [e]

/-- `AL_EN <- v`. -/
def State.setAlEn (v : Bool) (s : State) : State :=
  { s with alEn := v, pinTrace := noteEvents s.pinTrace (pinChange s.alEn v (.alEn v)) }

/-- `AH_EN <- v`. -/
def State.setAhEn (v : Bool) (s : State) : State :=
  { s with ahEn := v, pinTrace := noteEvents s.pinTrace (pinChange s.ahEn v (.ahEn v)) }

/-- `D_EN <- v`. -/
def State.setDEn (v : Bool) (s : State) : State :=
  { s with dEn := v, pinTrace := noteEvents s.pinTrace (pinChange s.dEn v (.dEn v)) }

/-- `CLK <- v`. -/
def State.setClk (v : Bool) (s : State) : State :=
  { s with clk := v, pinTrace := noteEvents s.pinTrace (pinChange s.clk v (.clk v)) }

/-- The clock-high pulse together with the data enable: both rise at once (rules R114, R115). -/
def State.raiseDEnClk (s : State) : State :=
  { s with
    dEn := true
    clk := true
    pinTrace := noteEvents s.pinTrace (pinChange s.dEn true (.dEn true) ++ pinChange s.clk true (.clk true)) }

/-- `DP_DIR <- 0`: the local drivers are released (rules R36, R112). -/
def State.dpRelease (s : State) : State :=
  { s with dpDir := false, pinTrace := noteEvents s.pinTrace (pinChange s.dpDir false .dpOff) }

/-- `DP_DIR <- 1`: `DP_OUT` carries `dout` (rules R26, R36, R115). -/
def State.dpDrive (s : State) : State :=
  { s with dpDir := true, pinTrace := noteEvents s.pinTrace (pinChange s.dpDir true (.dpOn s.dout)) }

/-- `reset_asserted <- v`, which `RESET_OUT` follows (rules R31, R37). -/
def State.setResetAsserted (v : Bool) (s : State) : State :=
  { s with
    resetAsserted := v
    pinTrace := noteEvents s.pinTrace (pinChange s.resetAsserted v (.resetOut v)) }

/-- `RESET` has run: `reset_asserted <- true`, and `ResetRelease` may follow (rules R144, R145). -/
def State.assertReset (s : State) : State := { s.setResetAsserted true with resetRan := true }

/-! ### Waits (rules R11, R13, R207) -/

/-- `wait(d)`: it comes after the pin events so far and promises at least `d` (rule R13). -/
def State.wait (d : Nat) (s : State) : State :=
  { s with waits := s.waits ++ [{ after := s.pinTrace.length, atLeast := d }] }

/-! ### Environment (rules R12, R61) -/

/-- How many free values have been drawn once the next of a line is taken: one more when the line is empty. -/
def drawsAfter {α : Type} (line : List α) (draws : Nat) : Nat :=
  match line with
  | [] => draws + 1
  | _ :: _ => draws

/-- What TARGET presents next: the answer lined up, else a free value (rule R12; log entry 9). -/
def State.presented (s : State) : Sample :=
  match s.samples with
  | x :: _ => x
  | [] => Config.freeSample s.draws

/-- What the next `Sample()` returns: what TARGET presents on the lines the data path has (rules R8, R12). -/
def State.sampled (s : State) : Sample := { s.presented with b := s.cfg.cut s.presented.b }

/-- The state after a `Sample()`. -/
def State.drawSample (s : State) : State :=
  { s with samples := s.samples.tail, draws := drawsAfter s.samples s.draws }

/-- Whose turn it is: the choice lined up, else a free value (rule R61; log entry 10). -/
def State.turn (s : State) : Turn :=
  match s.turns with
  | t :: _ => t
  | [] => Config.freeTurn s.draws

/-- The state after the choice of a turn. -/
def State.popTurn (s : State) : State :=
  { s with turns := s.turns.tail, draws := drawsAfter s.turns s.draws }

/-! ### Memory banks (rules R41, R56 to R60) -/

/-- The byte listed at an index. -/
def Memory.get : Memory → Nat → Option Byte
  | [], _ => none
  | (k, v) :: m, a => if a = k then some v else Memory.get m a

/-- List a byte at an index, in order. -/
def Memory.set : Memory → Nat → Byte → Memory
  | [], a, v => [(a, v)]
  | (k, w) :: m, a, v =>
    if a < k then (a, v) :: (k, w) :: m
    else if a = k then (a, v) :: m
    else (k, w) :: Memory.set m a v

/-- Indices strictly rising from `lo` on, all below `len`, and every byte of a cell's width. -/
def Memory.wfFrom (p : Params) (len : Nat) : Nat → Memory → Bool
  | _, [] => true
  | lo, (k, v) :: m => decide (lo ≤ k) && decide (k < len) && p.cut v == v && Memory.wfFrom p len (k + 1) m

/-- The canonical form of a bank of `len` cells. An entry is never equal to what an unlisted index holds, since that is no
value the model has (log entry 5). -/
def Memory.wf (p : Params) (len : Nat) (m : Memory) : Bool := Memory.wfFrom p len 0 m

/-- What an unlisted index reads as: the launch contents, a free value of a cell's width (rules R39, R40, R222; log entry 5). -/
def launchByte (p : Params) : Bank → Nat → Byte
  | .ram, a => p.cut (Config.launchRam a)
  | .rom, a => p.cut (Config.launchRom a)

def State.bank (b : Bank) (s : State) : Memory :=
  match b with
  | .ram => s.ram
  | .rom => s.rom

/-- `length(bank)` (rule R56). -/
def State.bankLen (b : Bank) (s : State) : Nat :=
  match b with
  | .ram => s.cfg.ramLen
  | .rom => s.cfg.romLen

/-- The content of a cell. -/
def State.cell (b : Bank) (a : Nat) (s : State) : Byte := ((s.bank b).get a).getD (launchByte s.cfg b a)

/-- `bank[a] <- v`, the bounds test apart: the cell holds its `DATA_W` bits of `v` (rules R8, R57). -/
def State.setCell (b : Bank) (a : Nat) (v : Byte) (s : State) : State :=
  { s with
    ram := match b with
      | .ram => s.ram.set a (s.cfg.cut v)
      | .rom => s.ram
    rom := match b with
      | .ram => s.rom
      | .rom => s.rom.set a (s.cfg.cut v) }

/-- `BankRead(bank, a)`; none is `OutOfRange` (rule R56). -/
def State.bankRead (b : Bank) (a : Nat) (s : State) : Option Byte :=
  if a < s.bankLen b then some (s.cell b a) else none

/-- `BankWrite(bank, a, v)`; none is `OutOfRange`, and no cell changes (rule R57). -/
def State.bankWrite (b : Bank) (a : Nat) (v : Byte) (s : State) : Option State :=
  if a < s.bankLen b then some (s.setCell b a v) else none

/-- `ReadMux(a)`: RAM, else ROM, else `FALLBACK_BYTE`; no error is reported (rule R117). -/
def State.readMux (a : Addr) (s : State) : Byte :=
  match s.bankRead .ram a.toNat with
  | some v => v
  | none =>
    match s.bankRead .rom a.toNat with
    | some v => v
    | none => s.cfg.cut s.cfg.fallbackByte

/-- The shadow write of a CPU write; `OutOfRange` is silently dropped (rules R114, R193). -/
def State.shadow (a : Addr) (v : Byte) (s : State) : State := (s.bankWrite .ram a.toNat v).getD s

/-! ### The host port: responses, the end of a command, errors (rules R86, R94, R105, R202) -/

/-- Write one response frame to the link. -/
def State.respond (frame : List Byte) (s : State) : State := { s with sent := s.sent ++ [frame] }

/-- The command has run to its end: the parser's buffers are cleared and it awaits a sentinel (rule R94). -/
def State.finish (s : State) : State := { s with cmd := none, pos := .start, parser := s.parser.clear }

/-- HOST goes on with command `i` at position `q`, one atomic step later. -/
def State.goTo (i : Instr) (q : Pos) (s : State) : State := { s with cmd := some i, pos := q }

/-- Send one `ERROR` frame with a code (rule R185). -/
def State.sendError (code : Int) (s : State) : State := s.respond (errorText code)

/-- `raise E` inside a command: nothing is saved and nothing vectors; one `ERROR` frame is sent, the command ends, and HOST
goes on with the next input byte (rules R191, R202, R203; log entry 20). -/
def State.raise (c : Cause) (s : State) : State := (s.sendError (s.cfg.code c)).finish

/-! ### The lease (rules R161, R162) -/

/-- `lease_saved <- clock_enabled`. -/
def State.leaseSave (i : Instr) (s : State) : State :=
  ({ s with leaseSaved := some s.clockEnabled } : State).goTo i .leaseForce

/-- `clock_enabled <- false`. -/
def State.leaseForce (i : Instr) (s : State) : State :=
  ({ s with clockEnabled := false } : State).goTo i .leaseWait

/-- One iteration of `repeat: p <- phase until p == Idle`; `next` is the position after the loop. -/
def State.leaseWait (i : Instr) (next : Pos) (s : State) : State :=
  s.goTo i (if s.phase = .idle then next else .leaseWait)

/-- LeaseRelease, then the end of the command or the error it met (rules R162, R164, R202; log entry 20). -/
def State.leaseRelease (e : Option Cause) (s : State) : State :=
  match e with
  | none => ({ s with clockEnabled := s.leaseSaved.getD s.clockEnabled, leaseSaved := none } : State).finish
  | some c => ({ s with clockEnabled := s.leaseSaved.getD s.clockEnabled, leaseSaved := none } : State).raise c

/-! ### Read-back (rules R166, R167) -/

/-- The `k`-th cell read of a read-back of `n` cells from `a`, `out` holding the digits so far; the last one responds
(log entry 23). -/
def State.readBack (b : Bank) (i : Instr) (action : List Byte) (a n k : Nat) (out : List Byte) (s : State) : State :=
  if k < n then
    match s.bankRead b (a + k) with
    | none => s.raise .outOfRange
    | some v =>
      if k + 1 < n then s.goTo i (.reading (k + 1) (out ++ byteToHex2 v))
      else (s.respond (responseText action (out ++ byteToHex2 v))).finish
  else (s.respond (responseText action out)).finish

/-- The next step of a read-back: at its start the range is checked before any read (rules R166, R167). -/
def State.readBackStep (b : Bank) (i : Instr) (action : List Byte) (a n : Nat) (s : State) : State :=
  match s.pos with
  | .reading k out => s.readBack b i action a n k out
  | _ => if s.bankLen b < a + n then s.raise .outOfRange else s.readBack b i action a n 0 []

/-! ### Settings (rules R44, R146, R182, R183) -/

/-- The text of a setting; that of `TICK` is the current `clock_period_hint` (rule R183). -/
def State.settingText (k : SettKey) (s : State) : List Byte :=
  match k with
  | .baud => s.settings.baud
  | .tick => numeral 10 s.clockPeriodHint
  | .name => s.settings.name
  | .rams => s.settings.rams

/-- The response to `SETT` and `SETTING` (rules R182, R183). -/
def settingResponse (k : SettKey) (value : List Byte) : List Byte :=
  responseText kwSetting (keyText k ++ chComma :: value)

/-- `clock_period_hint <- n`, at once; the setting is put in the Settings Record (rules R146, R182). -/
def State.setTick (n : Nat) (s : State) : State :=
  { s with clockPeriodHint := n, calls := s.calls ++ [.put .tick (numeral 10 n)] }

/-- A setting other than `TICK` is put in the Settings Record; `BAUD` re-establishes the transport (rule R182). -/
def State.putSetting (k : SettKey) (v : List Byte) (s : State) : State :=
  { s with
    settings :=
      { baud := if k = .baud then v else s.settings.baud
        name := if k = .name then v else s.settings.name
        rams := if k = .rams then v else s.settings.rams }
    calls := s.calls ++ (if k = .baud then [.put k v, .reopen v] else [.put k v]) }

/-! ### The link's input (rules R15, R88 to R95) -/

/-- The parser takes one byte; a completed frame is handed to the dispatcher (rule R94), a parser error to the `ERROR`
operation (rules R194, R195; log entry 20). -/
def State.takeByte (c : Byte) (s : State) : State :=
  match parserByte s.cfg s.parser c with
  | (q, .quiet) => { s with parser := q }
  | (q, .frame k action payload) =>
    { s with parser := q, cmd := some (dispatch s.cfg k action payload), pos := .start }
  | (q, .error e) => { s with parser := q, cmd := some (.error (s.cfg.code e)), pos := .start }

/-- HOST's poll of the input: it "returns immediately when empty" (rule R15). -/
def State.pollLink (s : State) : State :=
  match s.rx with
  | [] => s
  | c :: rest => ({ s with rx := rest } : State).takeByte c

/-! ### Which step comes next (rules R14, R61, R80, R86, R145) -/

/-- What a step does: run an instruction, poll the link, nothing, or stop. -/
inductive Fetch where
  | run (i : Instr)
  | poll
  | pass
  | stuck
  deriving DecidableEq, Repr

/-- The engine operation the selector enables (rules R80, R81). -/
def State.fetchEngine (s : State) : Fetch :=
  match decodeSelector (selector s.phase s.clk s.dir) with
  | .ok i => .run i
  | .error _ => .stuck

/-- HOST goes on with its command, or polls the link (rule R86). -/
def State.fetchHost (s : State) : Fetch :=
  match s.cmd with
  | some i => .run i
  | none => .poll

/-- `ResetRelease` is a move HOST may make at any time after a `RESET`, when the policy is `any_time` (rule R145; log
entry 13). -/
def State.fetchRelease (s : State) : Fetch :=
  if s.cfg.releasePolicy = .anyTime ∧ s.resetRan = true then .run .resetRelease else .pass

/-- What the next step does. -/
def State.fetch (s : State) : Fetch :=
  match s.turn with
  | .engine => s.fetchEngine
  | .host => s.fetchHost
  | .release => s.fetchRelease

end Sys2Proof.Machine
end

