-- ==== Sys2Proof/Machine/Control.lean ====
section
/-! DEFINITION. The host-port control commands (rules R140 to R148). One call is one atomic step of HOST. -/

namespace Sys2Proof.Machine

/-- `CLOCK 0` (rule R141). -/
def execClock0 (s : State) : Result :=
  .next (({ s with clockEnabled := false } : State).respond (responseText kwClock [ch0])).finish

/-- `CLOCK 1`: `single_step` first, `clock_enabled` second (rule R142). -/
def execClock1 (s : State) : Result :=
  .next (if s.pos = .second then
      (({ s with clockEnabled := true } : State).respond (responseText kwClock [ch1])).finish
    else ({ s with singleStep := false } : State).goTo .clock1 .second)

/-- `CLOCK` with any other payload (rule R147). -/
def execClockOther (_payload : List Byte) (s : State) : Result := .next (s.raise .badArgument)

/-- `CLOCKPULSE`: `single_step` first, `clock_enabled` second (rule R143). -/
def execClockPulse (s : State) : Result :=
  .next (if s.pos = .second then
      (({ s with clockEnabled := true } : State).respond (responseText kwClockPulse [])).finish
    else ({ s with singleStep := true } : State).goTo .clockPulse .second)

/-- `RESET` (rule R144); under the policy `with_response` it releases before it responds (rule R145). -/
def execReset (s : State) : Result :=
  .next (if s.pos = .second then ((s.setResetAsserted false).respond (responseText kwReset [])).finish
    else if s.cfg.releasePolicy = .withResponse then s.assertReset.goTo .reset .second
    else (s.assertReset.respond (responseText kwReset [])).finish)

/-- `ResetRelease`, which no frame carries and no response answers (rule R145). -/
def execResetRelease (s : State) : Result := .next (s.setResetAsserted false)

/-- `SETT TICK,<n>` (rule R146; log entry 22). -/
def execSettTick (x : Arg Nat) (s : State) : Result :=
  .next (match x with
    | .ok n => ((s.setTick n).respond (settingResponse .tick (numeral 10 n))).finish
    | .bad c => s.raise c)

end Sys2Proof.Machine
end

