-- ==== Sys2Proof/Machine/Engine.lean ====
section
/-! DEFINITION. The Bus Cycle Engine's six operations (rules R110 to R116). Each checks its `pre:` line (rule R118). -/

namespace Sys2Proof.Machine

/-- `E_IDLE_POLL` (rule R111). -/
def execEIdlePoll (s : State) : Result :=
  if s.phase = .idle then
    .next (if s.clockEnabled then { s with phase := .acqLo } else s)
  else .fault .preconditionFailed

/-- The pin writes of `E_ACQ_LO`, in order (rule R112). -/
def State.acqLoPins (s : State) : State := (((s.dpRelease).setDEn false).setAhEn false).setAlEn true

/-- `E_ACQ_LO` (rule R112). -/
def execEAcqLo (s : State) : Result :=
  if s.phase = .acqLo ∧ s.clk = false then
    .next { (s.acqLoPins.wait s.cfg.tSettle).drawSample with
      al := s.sampled.b
      dir := dirOf s.cfg.rwReadLevel s.sampled.rw
      phase := .acqHi }
  else .fault .preconditionFailed

/-- `E_ACQ_HI`; the `rw` bit of its sample is ignored (rule R113). -/
def execEAcqHi (s : State) : Result :=
  if s.phase = .acqHi ∧ s.clk = false ∧ s.dpDir = false then
    .next { (((s.setAlEn false).setAhEn true).wait s.cfg.tSettle).drawSample with
      ah := s.sampled.b
      phase := .data }
  else .fault .preconditionFailed

/-- `E_DATA_WR` (rule R114). -/
def execEDataWr (s : State) : Result :=
  if s.phase = .data ∧ s.clk = false ∧ s.dir = .cpuWrite ∧ s.dpDir = false then
    .next (({ (((s.setAhEn false).raiseDEnClk).wait s.cfg.tSettle).drawSample with
      bs := { addr := busAddr s.cfg s.ah s.al, dir := .cpuWrite, data := s.sampled.b } } : State).shadow
        (busAddr s.cfg s.ah s.al) s.sampled.b)
  else .fault .preconditionFailed

/-- `E_DATA_RD` (rule R115). -/
def execEDataRd (s : State) : Result :=
  if s.phase = .data ∧ s.clk = false ∧ s.dir = .cpuRead ∧ s.dpDir = false then
    .next { (({ s.setAhEn false with dout := s.readMux (busAddr s.cfg s.ah s.al) } : State).dpDrive).raiseDEnClk with
      bs := { addr := busAddr s.cfg s.ah s.al, dir := .cpuRead, data := s.readMux (busAddr s.cfg s.ah s.al) } }
  else .fault .preconditionFailed

/-- `E_CLK_FALL`; the wait is measured from the rise of `CLK`, ENGINE's last pin event, and the read of `clock_period_hint` is folded
into the step (rules R62, R116). -/
def execEClkFall (s : State) : Result :=
  if s.phase = .data ∧ s.clk = true then
    .next { (s.wait s.clockPeriodHint).setClk false with
      clockEnabled := clockAfterCycle s.singleStep s.clockEnabled
      phase := phaseAfterCycle s.singleStep s.clockEnabled }
  else .fault .preconditionFailed

end Sys2Proof.Machine
end

