-- ==== Sys2Proof/Machine/HostMemory.lean ====
section
/-! DEFINITION. The host-port memory commands (rules R160 to R168). One call is one atomic step of HOST. -/

namespace Sys2Proof.Machine

/-- `ROM addr,hex2`; the echo is rebuilt from the parsed values (rule R163). -/
def execRom (x : Arg (Addr × Byte)) (s : State) : Result :=
  .next (match x with
    | .bad c => s.raise c
    | .ok (a, v) =>
      match s.bankWrite .rom a.toNat v with
      | none => s.raise .outOfRange
      | some s' => (s'.respond (responseText kwRom (wordToHex4 a ++ chComma :: byteToHex2 v))).finish)

/-- Where a load goes on before its `k`-th byte: the write, or the release with the error of a bad pair or lone digit
(rule R164). -/
def romlwPos (d : RomLoad) (k : Nat) : Pos :=
  if k < d.data.length then .body k else .leaseRelease (if d.clean then none else some .invalidDigit)

/-- The `k`-th byte of a load: written at `a + k`, not wrapped, or `OutOfRange` (rule R164). -/
def State.romlwWrite (d : RomLoad) (k : Nat) (s : State) : State :=
  match d.data[k]? with
  | none => s.goTo (.romlw (.ok d)) (romlwPos d k)
  | some v =>
    match s.bankWrite .rom (d.addr.toNat + k) v with
    | some s' => s'.goTo (.romlw (.ok d)) (romlwPos d (k + 1))
    | none => s.goTo (.romlw (.ok d)) (.leaseRelease (some .outOfRange))

/-- `ROMLW addr,hexpairs` under the lease (rule R164). -/
def execRomlw (x : Arg RomLoad) (s : State) : Result :=
  .next (match x with
    | .bad c => s.raise c
    | .ok d =>
      match s.pos with
      | .leaseForce => s.leaseForce (.romlw (.ok d))
      | .leaseWait => s.leaseWait (.romlw (.ok d)) (romlwPos d 0)
      | .body k => s.romlwWrite d k
      | .leaseRelease e => s.leaseRelease e
      | _ => s.leaseSave (.romlw (.ok d)))

/-- Where a clear goes on before its `k`-th cell (rules R58, R165). -/
def ramclrPos (len k : Nat) : Pos := if k < len then .body k else .leaseRelease none

/-- `RAM[k] <- 0x00` (rule R58). -/
def State.ramclrWrite (k : Nat) (s : State) : State :=
  ((s.bankWrite .ram k 0x00#8).getD s).goTo .ramclr (ramclrPos s.cfg.ramLen (k + 1))

/-- `RAMCLR` under the lease (rule R165). -/
def execRamclr (s : State) : Result :=
  .next (match s.pos with
    | .leaseForce => s.leaseForce .ramclr
    | .leaseWait => s.leaseWait .ramclr (ramclrPos s.cfg.ramLen 0)
    | .body k => s.ramclrWrite k
    | .leaseRelease e => s.leaseRelease e
    | _ => s.leaseSave .ramclr)

/-- `RAMLR addr,count` (rule R166). -/
def execRamlr (x : Arg (Addr × Nat)) (s : State) : Result :=
  .next (match x with
    | .bad c => s.raise c
    | .ok (a, n) => s.readBackStep .ram (.ramlr (.ok (a, n))) kwRamlr a.toNat n)

/-- `ROMLR addr,count` (rule R167). -/
def execRomlr (x : Arg (Addr × Nat)) (s : State) : Result :=
  .next (match x with
    | .bad c => s.raise c
    | .ok (a, n) => s.readBackStep .rom (.romlr (.ok (a, n))) kwRomlr a.toNat n)

end Sys2Proof.Machine
end

