-- ==== Sys2Proof/Machine/Link.lean ====
section
/-! DEFINITION. The host-port commands that leave the block alone: liveness, settings, the `ERROR` frame, unknown actions
(rules R180 to R185, R101). -/

namespace Sys2Proof.Machine

/-- `AWAKE` (rule R181). -/
def execAwake (s : State) : Result := .next (s.respond (responseText kwAwake [])).finish

/-- `SETT key,value` for `BAUD`, `NAME`, `RAMS` (rule R182); `TICK` goes by rule R146. -/
def execSett (x : Arg (SettKey × List Byte)) (s : State) : Result :=
  .next (match x with
    | .bad c => s.raise c
    | .ok (.tick, v) =>
      match argTick v with
      | .ok n => ((s.setTick n).respond (settingResponse .tick (numeral 10 n))).finish
      | .bad c => s.raise c
    | .ok (k, v) => ((s.putSetting k v).respond (settingResponse k v)).finish)

/-- `SETTING key` (rule R183). -/
def execSetting (x : Arg SettKey) (s : State) : Result :=
  .next (match x with
    | .bad c => s.raise c
    | .ok k => (s.respond (settingResponse k (s.settingText k))).finish)

/-- The one frame that carries all four settings, its action and layout open (rule R184). -/
def State.saveFrame (s : State) : List Byte :=
  let f := Config.saveResponse (s.settingText .baud) (s.settingText .tick) (s.settingText .name) (s.settingText .rams)
  responseText f.1 f.2

/-- `SAVE`: the record is committed before the response (rule R184). -/
def execSave (s : State) : Result :=
  .next (({ s with calls := s.calls ++
      [.commit (s.settingText .baud) (s.settingText .tick) (s.settingText .name) (s.settingText .rams)] } : State).respond
        s.saveFrame).finish

/-- The `ERROR` response: the frame that reports a parser error (rules R185, R194, R195). -/
def execError (code : Int) (s : State) : Result := .next (s.sendError code).finish

/-- An unknown action: reported to a Request, dropped for a Message (rules R101, R196). -/
def execUnknownAction (kind : Kind) (_action : List Byte) (s : State) : Result :=
  .next (match kind with
    | .request => s.raise .unknownAction
    | .message => s.finish)

end Sys2Proof.Machine
end

