-- ==== Sys2Proof/Machine/Dispatch.lean ====
section
/-! DEFINITION. The dispatch of an instruction to its meaning, one arm per constructor. -/

namespace Sys2Proof.Machine

def exec (i : Instr) (s : State) : Host.Outcome State Fault Refusal :=
  match i with
  | .eIdlePoll => Sys2Proof.Machine.execEIdlePoll s
  | .eAcqLo => Sys2Proof.Machine.execEAcqLo s
  | .eAcqHi => Sys2Proof.Machine.execEAcqHi s
  | .eDataWr => Sys2Proof.Machine.execEDataWr s
  | .eDataRd => Sys2Proof.Machine.execEDataRd s
  | .eClkFall => Sys2Proof.Machine.execEClkFall s
  | .clock0 => Sys2Proof.Machine.execClock0 s
  | .clock1 => Sys2Proof.Machine.execClock1 s
  | .clockOther payload => Sys2Proof.Machine.execClockOther payload s
  | .clockPulse => Sys2Proof.Machine.execClockPulse s
  | .reset => Sys2Proof.Machine.execReset s
  | .resetRelease => Sys2Proof.Machine.execResetRelease s
  | .settTick x => Sys2Proof.Machine.execSettTick x s
  | .rom x => Sys2Proof.Machine.execRom x s
  | .romlw x => Sys2Proof.Machine.execRomlw x s
  | .ramclr => Sys2Proof.Machine.execRamclr s
  | .ramlr x => Sys2Proof.Machine.execRamlr x s
  | .romlr x => Sys2Proof.Machine.execRomlr x s
  | .awake => Sys2Proof.Machine.execAwake s
  | .sett x => Sys2Proof.Machine.execSett x s
  | .setting x => Sys2Proof.Machine.execSetting x s
  | .save => Sys2Proof.Machine.execSave s
  | .error code => Sys2Proof.Machine.execError code s
  | .unknownAction kind action => Sys2Proof.Machine.execUnknownAction kind action s

end Sys2Proof.Machine
end

