-- ==== Sys2Proof/Machine/Step.lean ====
section
/-! DEFINITION. One step: one atomic step of the agent whose turn it is (rules R14, R61); and the placing of an instruction
where the next step runs it. -/

namespace Sys2Proof.Machine

/-- One atomic step of the interleaving. -/
def step (s : State) : Host.Outcome State Fault Refusal :=
  match s.fetch with
  | .run i => exec i s.popTurn
  | .poll => .next s.popTurn.pollLink
  | .pass => .next s.popTurn
  | .stuck => .fault .noEngineOperation

/-- The parser reads bytes until a command is handed over. -/
def State.feed : List Byte → State → State
  | [], s => s
  | c :: rest, s => if s.cmd = none then State.feed rest (s.takeByte c) else s

/-- The engine at the operation a selector names, the drivers as its `pre:` line asks, and the next turn the engine's. -/
def State.withSelector (w : BitVec 4) (s : State) : State :=
  { s with
    phase := phaseOfCode (w.extractLsb' 2 2)
    clk := w.getLsbD 1
    dir := if w.getLsbD 0 then .cpuRead else .cpuWrite
    dpDir := if w.getLsbD 3 && !w.getLsbD 1 then false else s.dpDir
    turns := .engine :: s.turns }

/-- `s` with an instruction stored where the next step fetches it: up to 8 bits are the engine's selector, more are a frame
the parser has just read to its end, with room for its header, the next turn being HOST's (log entries 4, 16). -/
def State.withFetchWord (s : State) (nbits w : Nat) : State :=
  if nbits ≤ 8 then s.withSelector (BitVec.ofNat 4 w)
  else
    { (({ s with parser := Parser.init, cmd := none, pos := .start, cfg := s.cfg.roomy } : State).feed
        (tableBytes s.cfg nbits w)) with cfg := s.cfg, turns := .host :: s.turns }

end Sys2Proof.Machine
end

