-- ==== Sys2Proof/Machine/Pins.lean ====
section
/-! DEFINITION. The output pins as TARGET sees them: the wires `DP_OUT` and `RESET_OUT`, logical levels, and electrical levels
under the open polarity (rules R34 to R37). -/

namespace Sys2Proof.Machine

/-- `DP_OUT[7:0]`: `dout` while the block drives, else not driven (rules R26, R36). -/
def State.dpOut (s : State) : Option Byte := if s.dpDir then some s.dout else none

/-- The logical level of an output pin; `RESET_OUT` equals `reset_asserted` (rule R37). -/
def State.pinLevel (q : Pin) (s : State) : Bool :=
  match q with
  | .alEn => s.alEn
  | .ahEn => s.ahEn
  | .dEn => s.dEn
  | .clk => s.clk
  | .dpDir => s.dpDir
  | .resetOut => s.resetAsserted

/-- The electrical level of an output pin: `PIN_POLARITY` when asserted, its opposite when not (rules R8, R34). -/
def State.pinVoltage (q : Pin) (s : State) : Bool :=
  if s.pinLevel q then Config.pinPolarity q else !Config.pinPolarity q

end Sys2Proof.Machine
end

