-- ==== Sys2Proof/WellFormed.lean ====
section
/-! DEFINITION. Which instructions are well formed under given parameters: the operand forms the decoder can give, with a
frame (where there is one) that fits the header and payload capacities (rules R85, R90, R91, R99, R101). -/

namespace Sys2Proof

/-- The frame passes the parser: header and payload within their caps (rules R90, R91), and no sentinel byte in the payload
when sentinels pre-empt there (rule R92). -/
def frameFits (p : Params) (action payload : List Byte) : Bool :=
  decide (action.length + 1 + (numeral 10 payload.length).length ≤ p.headerCap)
    && decide (payload.length ≤ p.payloadCap)
    && (!p.preemptInPayload || payload.all fun c => (kindOf c).isNone)

/-- A byte that may stand in an action: none of the parser's own characters (rules R85, R90). -/
def plainByte (c : Byte) : Bool := (kindOf c).isNone && c != chComma && c != chClose

/-- The (kind, action) pairs of the dispatcher's table (rule R100). -/
def knownAction : Kind → List Byte → Bool
  | .message, act => act == kwRomlw || act == kwRamclr
  | .request, act =>
    act == kwRom || act == kwRamlr || act == kwRomlr || act == kwClock || act == kwClockPulse || act == kwReset
      || act == kwAwake || act == kwSett || act == kwSetting || act == kwSave

/-- The causes a payload with hex digits can be rejected for before the command acts (rules R163, R164, R166, R167). -/
def hexCause (c : Cause) : Bool := c == .badArgument || c == .invalidDigit

/-- `COUNT_RADIX` is one the digits `0-9A-Fa-f` can write (rules R8, R99). -/
def radixOk (p : Params) : Bool := decide (2 ≤ p.countRadix) && decide (p.countRadix ≤ 16)

/-- The operand forms the decoder can give. -/
def operandsOk (p : Params) : Instr → Bool
  | .eIdlePoll | .eAcqLo | .eAcqHi | .eDataWr | .eDataRd | .eClkFall => true
  | .clock0 | .clock1 | .clockPulse | .reset | .resetRelease | .ramclr | .awake | .save | .error _ => true
  | .clockOther payload => payload != [ch0] && payload != [ch1]
  | .settTick (.ok _) => true
  | .settTick (.bad c) => c == .badArgument
  | .rom (.ok _) => true
  | .rom (.bad c) => hexCause c
  | .romlw (.ok _) => true
  | .romlw (.bad c) => hexCause c
  | .ramlr (.ok _) => radixOk p
  | .ramlr (.bad c) => radixOk p && hexCause c
  | .romlr (.ok _) => radixOk p
  | .romlr (.bad c) => radixOk p && hexCause c
  | .sett (.ok (k, _)) => k != .tick
  | .sett (.bad c) => c == .badArgument
  | .setting (.ok _) => true
  | .setting (.bad c) => c == .badArgument
  | .unknownAction k act => act.all plainByte && !knownAction k act

/-- The check on instructions. -/
def WellFormed (p : Params) (i : Instr) : Bool :=
  operandsOk p i &&
    match frameOf p i with
    | none => true
    | some f => frameFits p f.2.1 f.2.2

end Sys2Proof
end

