-- ==== Sys2Proof/Safety.lean ====
section
/-! DEFINITION. The terms claims are stated in: what it is for a step to answer, what two states share, how a command ends, and
the invariant of the reachable states. -/

namespace Sys2Proof.Machine

/-! ### Answers -/

/-- The result is a next state, and `P` holds of it. -/
def answers (r : Host.Outcome State Fault Refusal) (P : State → Prop) : Prop := ∃ t, r = .next t ∧ P t

/-- `n` atomic steps of one instruction with no step of another agent between them. -/
def execTimes (i : Instr) : Nat → State → Host.Outcome State Fault Refusal
  | 0, s => .next s
  | n + 1, s =>
    match exec i s with
    | .next t => execTimes i n t
    | .fault r => .fault r
    | .refused r => .refused r

/-- One engine operation, HOST doing nothing. -/
def engineStep (s : State) : Host.Outcome State Fault Refusal :=
  match s.fetchEngine with
  | .run i => exec i s
  | _ => .fault .noEngineOperation

/-- `n` engine operations, HOST doing nothing. -/
def engineRun : Nat → State → Host.Outcome State Fault Refusal
  | 0, s => .next s
  | n + 1, s =>
    match engineStep s with
    | .next t => engineRun n t
    | .fault r => .fault r
    | .refused r => .refused r

/-- One step with the choice of the agent made (rule R61); `step` itself is this step with the choice it finds
(`step_eq_stepAs`). -/
def stepAs (a : Turn) (s : State) : Host.Outcome State Fault Refusal := step { s with turns := a :: s.turns }

/-- `n` steps under a schedule: the agent that steps, for each step to come (rules R14, R61). -/
def runUnder (σ : Nat → Turn) : Nat → State → Host.Outcome State Fault Refusal
  | 0, s => .next s
  | n + 1, s =>
    match stepAs (σ 0) s with
    | .next t => runUnder (fun k => σ (k + 1)) n t
    | .fault r => .fault r
    | .refused r => .refused r

/-- Fairness, the only timing assumption (rule R242): at every point of the schedule each of the two agents still has a
step to come. -/
def FairSchedule (σ : Nat → Turn) : Prop :=
  ∀ n, (∃ m, n ≤ m ∧ σ m = .engine) ∧ ∃ m, n ≤ m ∧ σ m = .host

/-- The events on the clock line in a pin trace, in order (rule R35). -/
def clockEvents (t : List (List PinEvent)) : List Bool :=
  t.flatten.filterMap fun e =>
    match e with
    | .clk v => some v
    | _ => none

/-! ### Kinds of instruction (rules R3, R84) -/

/-- The engine's operations. -/
def isEngineOp : Instr → Bool
  | .eIdlePoll | .eAcqLo | .eAcqHi | .eDataWr | .eDataRd | .eClkFall => true
  | _ => false

/-- What one move along an edge of the sequencer is: the operation, the phase before and after, the clock, and the condition,
row by row (rule R121); a host operation leaves the phase alone. -/
def phaseEdge (i : Instr) (s t : State) : Prop :=
  (isEngineOp i = false ∧ t.phase = s.phase)
    ∨ (i = .eIdlePoll ∧ s.phase = .idle ∧ t.phase = if s.clockEnabled then .acqLo else .idle)
    ∨ (i = .eAcqLo ∧ s.phase = .acqLo ∧ t.phase = .acqHi)
    ∨ (i = .eAcqHi ∧ s.phase = .acqHi ∧ t.phase = .data)
    ∨ (i = .eDataWr ∧ s.dir = .cpuWrite ∧ s.phase = .data ∧ t.phase = .data ∧ s.clk = false ∧ t.clk = true)
    ∨ (i = .eDataRd ∧ s.dir = .cpuRead ∧ s.phase = .data ∧ t.phase = .data ∧ s.clk = false ∧ t.clk = true)
    ∨ (i = .eClkFall ∧ s.phase = .data ∧ s.clk = true ∧ s.singleStep = true ∧ t.phase = .idle ∧ t.clockEnabled = false)
    ∨ (i = .eClkFall ∧ s.phase = .data ∧ s.clk = true ∧ s.singleStep = false ∧ s.clockEnabled = true ∧ t.phase = .acqLo)
    ∨ (i = .eClkFall ∧ s.phase = .data ∧ s.clk = true ∧ s.singleStep = false ∧ s.clockEnabled = false ∧ t.phase = .idle)

/-- The operations HOST runs as commands: all but the engine's and `ResetRelease` (rule R145). -/
def isCommand (i : Instr) : Bool := !isEngineOp i && i != .resetRelease

/-- The commands a frame from the host can carry: all but the `ERROR` frame, which the block alone sends (rule R102). -/
def isHostFrame : Instr → Bool
  | .error _ => false
  | i => isCommand i

/-- The commands that come as a Request, which gets exactly one response (rules R17, R100, R105). -/
def isRequest : Instr → Bool
  | .romlw _ | .ramclr | .error _ | .unknownAction .message _ => false
  | i => isCommand i

/-- The host-port control commands that a frame carries (rules R141 to R148). -/
def isControlFrame : Instr → Bool
  | .clock0 | .clock1 | .clockOther _ | .clockPulse | .reset | .settTick _ => true
  | _ => false

/-- The host-port memory commands (rules R163 to R167). -/
def isMemoryFrame : Instr → Bool
  | .rom _ | .romlw _ | .ramclr | .ramlr _ | .romlr _ => true
  | _ => false

/-- The other commands a frame from the host carries (rules R181 to R184, R101). -/
def isLinkFrame : Instr → Bool
  | .awake | .sett _ | .setting _ | .save | .unknownAction _ _ => true
  | _ => false

/-- The bulk mutations, which take the lease (rule R160). -/
def isBulk : Instr → Bool
  | .romlw (.ok _) | .ramclr => true
  | _ => false

/-- The cause for which a command's own payload tests reject it, if its operands are a rejected form (rule R103). -/
def rejectedOperand : Instr → Option Cause
  | .settTick (.bad c) | .rom (.bad c) | .romlw (.bad c) | .ramlr (.bad c) | .romlr (.bad c) | .sett (.bad c)
  | .setting (.bad c) => some c
  | _ => none

/-- `c` is a hex digit of value `d`, in either case (rule R96). -/
def hexDigit (c : Byte) (d : Nat) : Prop :=
  (d < 10 ∧ c.toNat = 0x30 + d) ∨ (10 ≤ d ∧ d < 16 ∧ (c.toNat = 0x41 + (d - 10) ∨ c.toNat = 0x61 + (d - 10)))

/-- The text of `n` cells from `a` on, two digits each (rule R54). -/
def cellsText (b : Bank) (a n : Nat) (s : State) : List Byte :=
  hexPairsText ((List.range n).map fun j => s.cell b (a + j))

/-! ### What two states share -/

/-- Sequencer, engine latches and Bus Sample. -/
def sameLatches (s t : State) : Prop :=
  t.phase = s.phase ∧ t.al = s.al ∧ t.ah = s.ah ∧ t.dir = s.dir ∧ t.dout = s.dout ∧ t.bs = s.bs

/-- The engine's output pins, and no pin event and no wait in between. -/
def samePins (s t : State) : Prop :=
  t.alEn = s.alEn ∧ t.ahEn = s.ahEn ∧ t.dEn = s.dEn ∧ t.clk = s.clk ∧ t.dpDir = s.dpDir
    ∧ t.pinTrace = s.pinTrace ∧ t.waits = s.waits

/-- Control State. -/
def sameControl (s t : State) : Prop :=
  t.clockEnabled = s.clockEnabled ∧ t.singleStep = s.singleStep ∧ t.resetAsserted = s.resetAsserted
    ∧ t.clockPeriodHint = s.clockPeriodHint

/-- Every cell of both banks. -/
def sameMemory (s t : State) : Prop := ∀ b a, t.cell b a = s.cell b a

/-- The Settings Record and the requests to the collaborators. -/
def sameSettings (s t : State) : Prop := t.settings = s.settings ∧ t.calls = s.calls

/-- Parameters and everything that stands for the outside world's inputs. -/
def sameInputs (s t : State) : Prop :=
  t.cfg = s.cfg ∧ t.rx = s.rx ∧ t.samples = s.samples ∧ t.turns = s.turns ∧ t.draws = s.draws

/-- All that is HOST's: lease, parser, command, settings, link, and whether a `RESET` has run. -/
def sameHost (s t : State) : Prop :=
  t.leaseSaved = s.leaseSaved ∧ t.parser = s.parser ∧ t.cmd = s.cmd ∧ t.pos = s.pos ∧ t.rx = s.rx ∧ t.sent = s.sent
    ∧ t.resetRan = s.resetRan ∧ sameSettings s t

/-- The command has ended with the given response frames, and the parser is ready for the next frame (rules R86, R94). -/
def endedWith (frames : List (List Byte)) (s t : State) : Prop :=
  t.cmd = none ∧ t.pos = .start ∧ t.parser = s.parser.clear ∧ t.sent = s.sent ++ frames

/-- The command goes on at a position, with no response yet and the parser as it was. -/
def goesOnAt (i : Instr) (q : Pos) (s t : State) : Prop :=
  t.cmd = some i ∧ t.pos = q ∧ t.parser = s.parser ∧ t.sent = s.sent

/-- What no step of a host command but `RESET` touches: the engine's latches and pins, the parameters, the inputs (rule R204),
and whether a `RESET` has run. -/
def hostFrame (s t : State) : Prop := sameLatches s t ∧ samePins s t ∧ sameInputs s t ∧ t.resetRan = s.resetRan

/-- Everything but the parser, the command, the response frames, the bytes waiting, and whose turn it is with the count of free
values drawn for it. -/
def blockFrame (s t : State) : Prop :=
  sameLatches s t ∧ samePins s t ∧ sameControl s t ∧ sameMemory s t ∧ sameSettings s t ∧ t.leaseSaved = s.leaseSaved
    ∧ t.resetRan = s.resetRan ∧ t.cfg = s.cfg ∧ t.samples = s.samples

/-- What no engine operation touches: all that is HOST's, the fields of Control State the engine only reads, the parameters,
the bytes and turns to come (rule R204). -/
def engineFrame (s t : State) : Prop :=
  sameHost s t ∧ t.singleStep = s.singleStep ∧ t.resetAsserted = s.resetAsserted ∧ t.clockPeriodHint = s.clockPeriodHint
    ∧ t.cfg = s.cfg ∧ t.turns = s.turns

/-- A command rejected for a cause: one `ERROR` frame, and nothing else of the block changes (rules R103, R202). -/
def rejectedFor (c : Cause) (s t : State) : Prop :=
  endedWith [errorText (s.cfg.code c)] s t ∧ hostFrame s t ∧ sameControl s t ∧ sameMemory s t ∧ sameSettings s t
    ∧ t.leaseSaved = s.leaseSaved

/-! ### The invariant of the reachable states -/

/-- Pins, clock and direction at each phase (rules R23, R82, R118, R119). -/
def engineOk (s : State) : Bool :=
  match s.phase, s.clk with
  | .idle, false | .acqLo, false => !s.alEn && !s.ahEn && (!s.dpDir || (s.dEn && s.dir == .cpuRead))
  | .acqHi, false => s.alEn && !s.ahEn && !s.dEn && !s.dpDir
  | .data, false => !s.alEn && s.ahEn && !s.dEn && !s.dpDir
  | .data, true => !s.alEn && !s.ahEn && s.dEn && (s.dpDir == (s.dir == .cpuRead))
  | _, true => false

/-- The positions each command has. -/
def posOk (p : Params) : Instr → Pos → Bool
  | .clock1, q | .clockPulse, q => q == .start || q == .second
  | .reset, q => q == .start || (q == .second && p.releasePolicy == .withResponse)
  | .romlw (.ok d), q =>
    match q with
    | .start | .leaseForce | .leaseWait | .leaseRelease _ => true
    | .body k => decide (k < d.data.length)
    | _ => false
  | .ramclr, q =>
    match q with
    | .start | .leaseForce | .leaseWait | .leaseRelease _ => true
    | .body k => decide (k < p.ramLen)
    | _ => false
  | .ramlr (.ok (a, n)), q =>
    match q with
    | .start => true
    | .reading k _ => decide (k < n) && decide (a.toNat + n ≤ p.ramLen)
    | _ => false
  | .romlr (.ok (a, n)), q =>
    match q with
    | .start => true
    | .reading k _ => decide (k < n) && decide (a.toNat + n ≤ p.romLen)
    | _ => false
  | _, q => q == .start

/-- HOST runs a command at one of its positions, or none (rule R86). -/
def cmdOk (s : State) : Bool :=
  match s.cmd with
  | none => s.pos == .start
  | some i => isCommand i && posOk s.cfg i s.pos

/-- The lease is held exactly between its acquisition and its release; from the forcing on the clock is disabled, and from
the end of the wait on the engine is in `Idle` (rules R42, R65, R161, R162). -/
def leaseOk (s : State) : Bool :=
  match s.pos with
  | .leaseForce => s.leaseSaved.isSome
  | .leaseWait => s.leaseSaved.isSome && !s.clockEnabled
  | .body _ | .leaseRelease _ => s.leaseSaved.isSome && !s.clockEnabled && s.phase == .idle
  | _ => s.leaseSaved == none

/-- The parser's buffers at each of its states (rules R43, R88 to R92). -/
def parserOk (s : State) : Bool :=
  match s.parser.pstate with
  | .awaitingSentinel | .awaitingOpenBrace =>
    s.parser.header == [] && s.parser.commaAt == none && s.parser.declared == 0 && s.parser.payload == []
      && s.parser.got == 0
  | .readingHeader =>
    decide (s.parser.header.length ≤ s.cfg.headerCap) && s.parser.payload == [] && s.parser.got == 0
      && s.parser.declared == 0
  | .readingPayload =>
    s.parser.payload.length == s.parser.got && decide (s.parser.declared ≤ s.cfg.payloadCap)
      && (if s.cmd = none then decide (s.parser.got < s.parser.declared) else decide (s.parser.got ≤ s.parser.declared))

/-- Both banks are in canonical form. -/
def memoryOk (s : State) : Bool := s.ram.wf s.cfg s.cfg.ramLen && s.rom.wf s.cfg s.cfg.romLen

/-- Latches and Bus Sample have the widths of rule R8 (rules R24, R26, R27, R59). -/
def widthOk (s : State) : Bool :=
  s.cfg.cut s.al == s.al && s.cfg.cut s.ah == s.ah && s.cfg.cut s.dout == s.dout && s.cfg.cut s.bs.data == s.bs.data
    && s.cfg.cutAddr s.bs.addr == s.bs.addr

/-- The invariant of the reachable states. -/
def State.Inv (s : State) : Prop :=
  engineOk s = true ∧ cmdOk s = true ∧ leaseOk s = true ∧ parserOk s = true ∧ memoryOk s = true
    ∧ widthOk s = true

end Sys2Proof.Machine
end

