-- ==== Sys2Proof/Certificates/Slice0/Obligations.lean ====
section
/-! DEFINITION. The statements for the provers, each from a rule of the spec. -/

open Sys2Proof Sys2Proof.Machine

/-! ### Encodings -/

/-- Rule R80: the selector is the phase's code, the clock pin and the direction bit, and each word enables the operation of
the row whose mask and match it meets, or none. -/
def Obligations.SelectorTableDecodes : Prop :=
  (∀ (ph : Phase) (clk : Bool) (d : Dir),
    (selector ph clk d).extractLsb' 2 2 =
        (match ph with
          | .idle => 0b00#2
          | .acqLo => 0b01#2
          | .acqHi => 0b10#2
          | .data => 0b11#2)
      ∧ (selector ph clk d).getLsbD 1 = clk ∧ ((selector ph clk d).getLsbD 0 = true ↔ d = .cpuRead))
  ∧ ∀ w : BitVec 4,
    (w &&& 0b1110#4 = 0b0000#4 → decodeSelector w = .ok .eIdlePoll)
    ∧ (w &&& 0b1110#4 = 0b0100#4 → decodeSelector w = .ok .eAcqLo)
    ∧ (w &&& 0b1110#4 = 0b1000#4 → decodeSelector w = .ok .eAcqHi)
    ∧ (w = 0b1100#4 → decodeSelector w = .ok .eDataWr)
    ∧ (w = 0b1101#4 → decodeSelector w = .ok .eDataRd)
    ∧ (w &&& 0b1110#4 = 0b1110#4 → decodeSelector w = .ok .eClkFall)

/-- Rules R81 and R118, in the form log entry 18 gives them: clock high outside the data phase is no operation, and an engine
turn there has no step; each operation's `pre:` line is checked, and an operation outside it does nothing but stop. -/
def Obligations.EngineStopsOutsideItsOperations : Prop :=
  ∀ s : State,
    (s.phase ≠ .data → s.clk = true →
      decodeSelector (selector s.phase s.clk s.dir) = .error .unreachableSelector
      ∧ (s.turn = .engine → step s = .fault .noEngineOperation))
    ∧ (s.phase ≠ .idle → exec .eIdlePoll s = .fault .preconditionFailed)
    ∧ (¬(s.phase = .acqLo ∧ s.clk = false) → exec .eAcqLo s = .fault .preconditionFailed)
    ∧ (¬(s.phase = .acqHi ∧ s.clk = false ∧ s.dpDir = false) → exec .eAcqHi s = .fault .preconditionFailed)
    ∧ (¬(s.phase = .data ∧ s.clk = false ∧ s.dir = .cpuWrite ∧ s.dpDir = false) →
        exec .eDataWr s = .fault .preconditionFailed)
    ∧ (¬(s.phase = .data ∧ s.clk = false ∧ s.dir = .cpuRead ∧ s.dpDir = false) →
        exec .eDataRd s = .fault .preconditionFailed)
    ∧ (¬(s.phase = .data ∧ s.clk = true) → exec .eClkFall s = .fault .preconditionFailed)

/-- Words written out from rules R80 and R85: the selector 1101, the frame of rule R142, and the example of rule R163, the
frames under any parameters that have room for them. -/
def Obligations.SpecWordsDecode : Prop :=
  decodeSelector 0b1101#4 = .ok .eDataRd
  ∧ ∀ p : Params, 7 ≤ p.headerCap → 7 ≤ p.payloadCap →
    decodeFrame p [0x3F#8, 0x7B#8, 0x43#8, 0x4C#8, 0x4F#8, 0x43#8, 0x4B#8, 0x2C#8, 0x31#8, 0x7D#8, 0x31#8]
        = .ok (.clock1, [])
    ∧ decodeFrame p
        [0x3F#8, 0x7B#8, 0x52#8, 0x4F#8, 0x4D#8, 0x2C#8, 0x37#8, 0x7D#8, 0x30#8, 0x30#8, 0x31#8, 0x30#8, 0x2C#8, 0x46#8,
          0x46#8] = .ok (.rom (.ok (0x0010#16, 0xFF#8)), [])

/-- Rules R84, R85, R88 to R94: the frame of a well-formed control command decodes to it, at every operand, under every
parameter, whatever bytes follow. -/
def Obligations.EncodedControlCommandsDecode : Prop :=
  ∀ (p : Params) (i : Instr) (bytes rest : List Byte), isControlFrame i = true → WellFormed p i = true →
    encodeFrame p i = some bytes → decodeFrame p (bytes ++ rest) = .ok (i, rest)

/-- As `EncodedControlCommandsDecode`, for the memory commands (rules R96, R97, R99). -/
def Obligations.EncodedMemoryCommandsDecode : Prop :=
  ∀ (p : Params) (i : Instr) (bytes rest : List Byte), isMemoryFrame i = true → WellFormed p i = true →
    encodeFrame p i = some bytes → decodeFrame p (bytes ++ rest) = .ok (i, rest)

/-- As `EncodedControlCommandsDecode`, for the link and settings commands and unknown actions (rules R100, R101). -/
def Obligations.EncodedLinkCommandsDecode : Prop :=
  ∀ (p : Params) (i : Instr) (bytes rest : List Byte), isLinkFrame i = true → WellFormed p i = true →
    encodeFrame p i = some bytes → decodeFrame p (bytes ++ rest) = .ok (i, rest)

/-! ### The Link Frame Parser -/

/-- Rules R88 and R89: in `awaiting_sentinel` a sentinel opens a frame of its kind with clear buffers (a cleared count is 0, log
entry 19), and any other byte is ignored; in `awaiting_open_brace` the open brace begins the header, a sentinel begins a new
frame, any other byte abandons the frame with no error. -/
def Obligations.FrameOpeningBytes : Prop :=
  ∀ (p : Params) (q : Parser) (c : Byte),
    (q.pstate = .awaitingSentinel →
      (c ≠ 0x21#8 → c ≠ 0x3F#8 → parserByte p q c = (q, .quiet))
      ∧ ∀ k, (c = 0x21#8 ∧ k = .message) ∨ (c = 0x3F#8 ∧ k = .request) →
          parserByte p q c = (⟨.awaitingOpenBrace, k, [], none, 0, [], 0⟩, .quiet))
    ∧ (q.pstate = .awaitingOpenBrace →
      (c = 0x7B#8 → parserByte p q c = ({ q with pstate := .readingHeader, header := [] }, .quiet))
      ∧ (∀ k, (c = 0x21#8 ∧ k = .message) ∨ (c = 0x3F#8 ∧ k = .request) →
          parserByte p q c = (⟨.awaitingOpenBrace, k, [], none, 0, [], 0⟩, .quiet))
      ∧ (c ≠ 0x7B#8 → c ≠ 0x21#8 → c ≠ 0x3F#8 →
          (parserByte p q c).1.pstate = .awaitingSentinel ∧ (parserByte p q c).2 = .quiet))

/-- Rule R91: what the close brace does, the tests in the rule's order. -/
def Obligations.HeaderCloseOutcome : Prop :=
  ∀ (p : Params) (q : Parser), q.pstate = .readingHeader →
    (q.commaAt = none →
      (parserByte p q 0x7D#8).2 = .error .malformedHeader ∧ (parserByte p q 0x7D#8).1.pstate = .awaitingSentinel)
    ∧ ∀ n, q.commaAt = some n →
      (parseNumeral 10 (q.header.drop (n + 1)) = none →
        (parserByte p q 0x7D#8).2 = .error .malformedHeader ∧ (parserByte p q 0x7D#8).1.pstate = .awaitingSentinel)
      ∧ ∀ d, parseNumeral 10 (q.header.drop (n + 1)) = some d →
        (p.payloadCap < d →
          (parserByte p q 0x7D#8).2 = .error .frameTooLarge ∧ (parserByte p q 0x7D#8).1.pstate = .awaitingSentinel)
        ∧ (d ≤ p.payloadCap → d = 0 → (parserByte p q 0x7D#8).2 = .frame q.kind (q.header.take n) [])
        ∧ (d ≤ p.payloadCap → d ≠ 0 →
            parserByte p q 0x7D#8 = ({ q with declared := d, got := 0, pstate := .readingPayload }, .quiet))

/-- Rule R92: in `reading_payload` every byte is payload, the sentinels too unless `PREEMPT_IN_PAYLOAD` is set, when one starts
a new frame with clear buffers (a cleared count is 0, log entry 19); the frame is complete with the last declared byte. -/
def Obligations.PayloadBytesArePayload : Prop :=
  ∀ (p : Params) (q : Parser) (c : Byte), q.pstate = .readingPayload →
    (p.preemptInPayload = false ∨ (c ≠ 0x21#8 ∧ c ≠ 0x3F#8) →
      (parserByte p q c).1 = { q with payload := q.payload ++ [c], got := q.got + 1 }
      ∧ (q.got + 1 = q.declared → (parserByte p q c).2 = .frame q.kind q.action (q.payload ++ [c]))
      ∧ (q.got + 1 ≠ q.declared → (parserByte p q c).2 = .quiet))
    ∧ (p.preemptInPayload = true → ∀ k, (c = 0x21#8 ∧ k = .message) ∨ (c = 0x3F#8 ∧ k = .request) →
        parserByte p q c = (⟨.awaitingOpenBrace, k, [], none, 0, [], 0⟩, .quiet))

/-- Rule R90 (with R88, R93): in `reading_header` a sentinel discards everything accumulated and starts a new frame with no
report (a cleared count is 0, log entry 19); the close brace closes the header; with room below `HEADER_CAP` a comma is appended
and the first one recorded; any other byte is appended with room, and else overruns `HEADER_CAP`. The comma at the cap is in
`MalformedHeaderReported` (log entry 17). -/
def Obligations.HeaderBytesAccumulate : Prop :=
  ∀ (p : Params) (q : Parser) (c : Byte), q.pstate = .readingHeader →
    (∀ k, (c = 0x21#8 ∧ k = .message) ∨ (c = 0x3F#8 ∧ k = .request) →
      parserByte p q c = (⟨.awaitingOpenBrace, k, [], none, 0, [], 0⟩, .quiet))
    ∧ (c = 0x7D#8 → parserByte p q c = closeHeader p q)
    ∧ (c = 0x2C#8 → q.header.length < p.headerCap →
      parserByte p q c =
        ({ q with commaAt := some (q.commaAt.getD q.header.length), header := q.header ++ [0x2C#8] }, .quiet))
    ∧ (c ≠ 0x21#8 → c ≠ 0x3F#8 → c ≠ 0x7D#8 → c ≠ 0x2C#8 →
      (q.header.length < p.headerCap → parserByte p q c = ({ q with header := q.header ++ [c] }, .quiet))
      ∧ (p.headerCap ≤ q.header.length →
        (parserByte p q c).2 = .error .malformedHeader ∧ (parserByte p q c).1.pstate = .awaitingSentinel))

/-- Rule R195, in the two steps of log entry 20: a frame whose declared length exceeds the cap is answered by exactly one
`!{ERROR,2}-2` and dispatches nothing; the parser then awaits a sentinel, and nothing of the block changes. -/
def Obligations.OversizedFrameReported : Prop :=
  ∀ (s : State) (n d : Nat) (later : List Byte), s.cmd = none → s.turn = .host → s.rx = 0x7D#8 :: later →
    s.parser.pstate = .readingHeader → s.parser.commaAt = some n →
    parseNumeral 10 (s.parser.header.drop (n + 1)) = some d → s.cfg.payloadCap < d → s.cfg.errFrameTooLarge = -2 →
    answers (step s) fun t =>
      t.cmd = some (.error (-2)) ∧ t.pos = .start ∧ t.sent = s.sent ∧ t.rx = later ∧ t.turns = s.turns.tail
      ∧ t.parser.pstate = .awaitingSentinel ∧ blockFrame s t
      ∧ answers (exec (.error (-2)) t) fun u =>
          endedWith [[0x21#8, 0x7B#8, 0x45#8, 0x52#8, 0x52#8, 0x4F#8, 0x52#8, 0x2C#8, 0x32#8, 0x7D#8, 0x2D#8, 0x32#8]] t u
          ∧ u.parser.pstate = .awaitingSentinel ∧ blockFrame t u ∧ hostFrame t u

/-- Rule R194, in the two steps of log entry 20: a header with no comma, with an empty or non-numeric length, or overrunning
`HEADER_CAP` (with a comma too, log entry 17) is handed to the `ERROR` operation, whatever the frame's kind; nothing is
dispatched, the parser is cleared (log entry 19), and nothing of the block changes. -/
def Obligations.MalformedHeaderReported : Prop :=
  ∀ (s : State) (c : Byte) (later : List Byte), s.cmd = none → s.turn = .host → s.rx = c :: later →
    s.parser.pstate = .readingHeader →
    ((c = 0x7D#8 ∧ s.parser.commaAt = none)
      ∨ (c = 0x7D#8 ∧ ∃ n, s.parser.commaAt = some n ∧ parseNumeral 10 (s.parser.header.drop (n + 1)) = none)
      ∨ (c ≠ 0x7D#8 ∧ c ≠ 0x21#8 ∧ c ≠ 0x3F#8 ∧ s.cfg.headerCap ≤ s.parser.header.length)) →
    answers (step s) fun t =>
      t.cmd = some (.error s.cfg.errMalformedHeader) ∧ t.pos = .start ∧ t.parser = s.parser.clear ∧ t.sent = s.sent
      ∧ t.rx = later ∧ t.turns = s.turns.tail ∧ blockFrame s t
      ∧ answers (exec (.error s.cfg.errMalformedHeader) t) fun u =>
          endedWith [errorText s.cfg.errMalformedHeader] t u ∧ blockFrame t u ∧ hostFrame t u

/-- Rules R86, R94: HOST reads the bytes one turn each, and when those the decoder uses are read, HOST has exactly the
decoder's instruction before it, at its first step; nothing of the block has changed. -/
def Obligations.FrameBytesReachDispatcher : Prop :=
  ∀ (s : State) (i : Instr) (used later : List Byte) (ts : List Turn), s.cmd = none →
    decodeFrom s.cfg s.parser (used ++ later) = .ok (i, later) → s.rx = used ++ later →
    s.turns = List.replicate used.length .host ++ ts →
    ∃ t, core.run used.length s = .next t ∧ t.cmd = some i ∧ t.pos = .start ∧ t.rx = later ∧ t.turns = ts
      ∧ t.sent = s.sent ∧ t.draws = s.draws ∧ blockFrame s t

/-! ### The step -/

/-- A step runs the decoded instruction, with the choice of the turn taken and nothing else around it: on an engine turn the
operation that the sequencer's state decodes to (rules R61, R80), on a turn of HOST the next atomic step of the command it has
before it (rules R14, R86). -/
def Obligations.StepRunsDecodedInstruction : Prop :=
  ∀ (s : State) (i : Instr),
    (s.turn = .engine → decodeSelector (selector s.phase s.clk s.dir) = .ok i → step s = exec i s.popTurn)
    ∧ (s.turn = .host → s.cmd = some i → step s = exec i s.popTurn)

/-- A turn of HOST with no command polls the link: it returns at once when no byte waits (rule R15), else the parser takes
the first. -/
def Obligations.StepPollsLink : Prop :=
  ∀ s : State, s.turn = .host → s.cmd = none →
    (s.rx = [] → step s = .next s.popTurn)
    ∧ ∀ c later, s.rx = c :: later → step s = .next (({ s.popTurn with rx := later } : State).takeByte c)

/-- Rule R145: under the policy `any_time`, `ResetRelease` is a move HOST may make at any time after a `RESET`, a command
running or not; before any `RESET`, and under another policy, it is not. -/
def Obligations.StepOffersResetRelease : Prop :=
  ∀ s : State, s.turn = .release →
    (s.cfg.releasePolicy = .anyTime → s.resetRan = true → step s = exec .resetRelease s.popTurn)
    ∧ (s.cfg.releasePolicy ≠ .anyTime ∨ s.resetRan = false → step s = .next s.popTurn)

/-! ### Engine operations -/

/-- Rule R111. -/
def Obligations.IdlePollFollowsClockEnable : Prop :=
  ∀ s : State, s.phase = .idle →
    exec .eIdlePoll s = .next { s with phase := if s.clockEnabled then .acqLo else .idle }

/-- Rule R112: pin events in order, the settle wait (its record is log entry 24), the latches from one sample, which is used up
(log entry 9), the next phase, and the frame. -/
def Obligations.AcquireLowLatchesByteAndDirection : Prop :=
  ∀ s : State, s.phase = .acqLo → s.clk = false →
    answers (exec .eAcqLo s) fun t =>
      t.al = s.sampled.b
      ∧ t.dir = (if s.sampled.rw = s.cfg.rwReadLevel then .cpuRead else .cpuWrite)
      ∧ t.phase = .acqHi
      ∧ t.dpDir = false ∧ t.dEn = false ∧ t.ahEn = false ∧ t.alEn = true ∧ t.clk = false
      ∧ t.pinTrace = s.pinTrace ++ (if s.dpDir then [[.dpOff]] else []) ++ (if s.dEn then [[.dEn false]] else [])
          ++ (if s.ahEn then [[.ahEn false]] else []) ++ (if s.alEn then [] else [[.alEn true]])
      ∧ t.waits = s.waits ++ [⟨t.pinTrace.length, s.cfg.tSettle⟩]
      ∧ t.samples = s.samples.tail ∧ t.draws = drawsAfter s.samples s.draws
      ∧ t.ah = s.ah ∧ t.dout = s.dout ∧ t.bs = s.bs ∧ t.clockEnabled = s.clockEnabled
      ∧ sameMemory s t ∧ engineFrame s t

/-- Rule R113: after the settle wait (its record is log entry 24) the high byte is latched from one sample, which is used up
(log entry 9); `al` and `dir` keep their values, the `rw` bit has no effect. -/
def Obligations.AcquireHighLatchesByte : Prop :=
  ∀ s : State, s.phase = .acqHi → s.clk = false → s.dpDir = false →
    answers (exec .eAcqHi s) fun t =>
      t.ah = s.sampled.b ∧ t.phase = .data
      ∧ t.alEn = false ∧ t.ahEn = true ∧ t.dEn = s.dEn ∧ t.clk = false ∧ t.dpDir = false
      ∧ t.pinTrace = s.pinTrace ++ (if s.alEn then [[.alEn false]] else []) ++ (if s.ahEn then [] else [[.ahEn true]])
      ∧ t.waits = s.waits ++ [⟨t.pinTrace.length, s.cfg.tSettle⟩]
      ∧ t.samples = s.samples.tail ∧ t.draws = drawsAfter s.samples s.draws
      ∧ t.al = s.al ∧ t.dir = s.dir ∧ t.dout = s.dout ∧ t.bs = s.bs ∧ t.clockEnabled = s.clockEnabled
      ∧ sameMemory s t ∧ engineFrame s t

/-- Rule R114: the sampled byte is stored in RAM when the latched address is below `RAM_LEN` and nowhere else; the Bus
Sample holds it in both cases; the block never drives. The one sample is used up (log entry 9), and the settle wait comes after
the clock's rise (its record is log entry 24). -/
def Obligations.WriteCycleShadowsRam : Prop :=
  ∀ s : State, s.phase = .data → s.clk = false → s.dir = .cpuWrite → s.dpDir = false →
    answers (exec .eDataWr s) fun t =>
      t.bs = ⟨busAddr s.cfg s.ah s.al, .cpuWrite, s.sampled.b⟩
      ∧ (∀ b a, t.cell b a =
          if b = .ram ∧ a = (busAddr s.cfg s.ah s.al).toNat ∧ (busAddr s.cfg s.ah s.al).toNat < s.cfg.ramLen then s.sampled.b
          else s.cell b a)
      ∧ t.ahEn = false ∧ t.dEn = true ∧ t.clk = true ∧ t.dpDir = false ∧ t.alEn = s.alEn ∧ t.phase = .data
      ∧ t.pinTrace = s.pinTrace ++ (if s.ahEn then [[.ahEn false]] else [])
          ++ [if s.dEn then [.clk true] else [.dEn true, .clk true]]
      ∧ t.waits = s.waits ++ [⟨t.pinTrace.length, s.cfg.tSettle⟩]
      ∧ t.samples = s.samples.tail ∧ t.draws = drawsAfter s.samples s.draws
      ∧ t.al = s.al ∧ t.ah = s.ah ∧ t.dir = s.dir ∧ t.dout = s.dout ∧ t.clockEnabled = s.clockEnabled
      ∧ engineFrame s t

/-- Rules R115, R117: the byte served is RAM's, else ROM's, else the fallback (of the data path's width, log entry 2), and it is
driven with the clock's rise and held in the Bus Sample; no sample is taken and no cell changes. With ROM as long as the bus
address reaches, the fallback is never driven (rule R9). -/
def Obligations.ReadCycleDrivesServedByte : Prop :=
  ∀ s : State, s.phase = .data → s.clk = false → s.dir = .cpuRead → s.dpDir = false →
    answers (exec .eDataRd s) fun t =>
      t.dout = (if (busAddr s.cfg s.ah s.al).toNat < s.cfg.ramLen then s.cell .ram (busAddr s.cfg s.ah s.al).toNat
        else if (busAddr s.cfg s.ah s.al).toNat < s.cfg.romLen then s.cell .rom (busAddr s.cfg s.ah s.al).toNat
        else s.cfg.cut s.cfg.fallbackByte)
      ∧ (2 ^ s.cfg.addrW.val ≤ s.cfg.romLen → t.dout = if (busAddr s.cfg s.ah s.al).toNat < s.cfg.ramLen
        then s.cell .ram (busAddr s.cfg s.ah s.al).toNat else s.cell .rom (busAddr s.cfg s.ah s.al).toNat)
      ∧ t.bs = ⟨busAddr s.cfg s.ah s.al, .cpuRead, t.dout⟩
      ∧ t.dpOut = some t.dout
      ∧ t.ahEn = false ∧ t.dEn = true ∧ t.clk = true ∧ t.dpDir = true ∧ t.alEn = s.alEn ∧ t.phase = .data
      ∧ t.pinTrace = s.pinTrace ++ (if s.ahEn then [[.ahEn false]] else []) ++ [[.dpOn t.dout]]
          ++ [if s.dEn then [.clk true] else [.dEn true, .clk true]]
      ∧ t.waits = s.waits
      ∧ t.al = s.al ∧ t.ah = s.ah ∧ t.dir = s.dir ∧ t.clockEnabled = s.clockEnabled
      ∧ t.samples = s.samples ∧ t.draws = s.draws
      ∧ sameMemory s t ∧ engineFrame s t

/-- Rule R116: the clock falls, and the atomic block decides where the sequencer goes and clears `clock_enabled` when a
single step is consumed; `single_step` is not cleared. The wait of `clock_period_hint` comes before the fall (its record is log
entry 24). -/
def Obligations.ClockFallEndsCycle : Prop :=
  ∀ s : State, s.phase = .data → s.clk = true →
    answers (exec .eClkFall s) fun t =>
      t.clk = false
      ∧ (s.singleStep = true → t.clockEnabled = false ∧ t.phase = .idle)
      ∧ (s.singleStep = false → t.clockEnabled = s.clockEnabled ∧ t.phase = if s.clockEnabled then .acqLo else .idle)
      ∧ t.pinTrace = s.pinTrace ++ [[.clk false]]
      ∧ t.waits = s.waits ++ [⟨s.pinTrace.length, s.clockPeriodHint⟩]
      ∧ t.alEn = s.alEn ∧ t.ahEn = s.ahEn ∧ t.dEn = s.dEn ∧ t.dpDir = s.dpDir
      ∧ t.al = s.al ∧ t.ah = s.ah ∧ t.dir = s.dir ∧ t.dout = s.dout ∧ t.bs = s.bs
      ∧ t.samples = s.samples ∧ t.draws = s.draws
      ∧ sameMemory s t ∧ engineFrame s t

/-! ### Host-port control commands -/

/-- Rule R141. -/
def Obligations.ClockZeroDisablesClock : Prop :=
  ∀ s : State, answers (exec .clock0 s) fun t =>
    t.clockEnabled = false
    ∧ endedWith [[0x21#8, 0x7B#8, 0x43#8, 0x4C#8, 0x4F#8, 0x43#8, 0x4B#8, 0x2C#8, 0x31#8, 0x7D#8, 0x30#8]] s t
    ∧ t.singleStep = s.singleStep ∧ t.resetAsserted = s.resetAsserted ∧ t.clockPeriodHint = s.clockPeriodHint
    ∧ t.leaseSaved = s.leaseSaved ∧ sameSettings s t ∧ sameMemory s t ∧ hostFrame s t

/-- Rule R142: `single_step` is cleared by the first atomic step and `clock_enabled` set by the second, which responds. -/
def Obligations.ClockOneStartsFreeRun : Prop :=
  ∀ s : State,
    (s.pos = .start → answers (exec .clock1 s) fun t =>
      t.singleStep = false ∧ t.clockEnabled = s.clockEnabled ∧ goesOnAt .clock1 .second s t
      ∧ t.resetAsserted = s.resetAsserted ∧ t.clockPeriodHint = s.clockPeriodHint
      ∧ t.leaseSaved = s.leaseSaved ∧ sameSettings s t ∧ sameMemory s t ∧ hostFrame s t)
    ∧ (s.pos = .second → answers (exec .clock1 s) fun t =>
      t.clockEnabled = true ∧ t.singleStep = s.singleStep
      ∧ endedWith [[0x21#8, 0x7B#8, 0x43#8, 0x4C#8, 0x4F#8, 0x43#8, 0x4B#8, 0x2C#8, 0x31#8, 0x7D#8, 0x31#8]] s t
      ∧ t.resetAsserted = s.resetAsserted ∧ t.clockPeriodHint = s.clockPeriodHint
      ∧ t.leaseSaved = s.leaseSaved ∧ sameSettings s t ∧ sameMemory s t ∧ hostFrame s t)

/-- Rules R143, R148: `single_step` is set by the first atomic step and `clock_enabled` by the second, which responds; a
payload is ignored. -/
def Obligations.ClockPulseArmsSingleStep : Prop :=
  ∀ s : State,
    (∀ payload, dispatch s.cfg .request kwClockPulse payload = .clockPulse)
    ∧ (s.pos = .start → answers (exec .clockPulse s) fun t =>
      t.singleStep = true ∧ t.clockEnabled = s.clockEnabled ∧ goesOnAt .clockPulse .second s t
      ∧ t.resetAsserted = s.resetAsserted ∧ t.clockPeriodHint = s.clockPeriodHint
      ∧ t.leaseSaved = s.leaseSaved ∧ sameSettings s t ∧ sameMemory s t ∧ hostFrame s t)
    ∧ (s.pos = .second → answers (exec .clockPulse s) fun t =>
      t.clockEnabled = true ∧ t.singleStep = s.singleStep
      ∧ endedWith [responseText kwClockPulse []] s t
      ∧ t.resetAsserted = s.resetAsserted ∧ t.clockPeriodHint = s.clockPeriodHint
      ∧ t.leaseSaved = s.leaseSaved ∧ sameSettings s t ∧ sameMemory s t ∧ hostFrame s t)

/-- Rules R144, R145: `RESET` asserts the target's reset, with one `RESET_OUT` event if it was not asserted, and changes
nothing else (that a `RESET` has run is the model's own note, log entry 13); under the policy `with_response` it releases in a
second step before it responds (the two steps are log entry 13); a payload is ignored (rule R148). -/
def Obligations.ResetAssertsTargetReset : Prop :=
  ∀ s : State,
    (∀ payload, dispatch s.cfg .request kwReset payload = .reset)
    ∧ (s.pos = .start → s.cfg.releasePolicy ≠ .withResponse → answers (exec .reset s) fun t =>
      t.resetAsserted = true ∧ t.pinLevel .resetOut = true ∧ t.resetRan = true
      ∧ t.pinTrace = s.pinTrace ++ (if s.resetAsserted then [] else [[.resetOut true]])
      ∧ endedWith [[0x21#8, 0x7B#8, 0x52#8, 0x45#8, 0x53#8, 0x45#8, 0x54#8, 0x2C#8, 0x30#8, 0x7D#8]] s t
      ∧ t.clockEnabled = s.clockEnabled ∧ t.singleStep = s.singleStep ∧ t.clockPeriodHint = s.clockPeriodHint
      ∧ t.alEn = s.alEn ∧ t.ahEn = s.ahEn ∧ t.dEn = s.dEn ∧ t.clk = s.clk ∧ t.dpDir = s.dpDir ∧ t.waits = s.waits
      ∧ t.leaseSaved = s.leaseSaved ∧ sameSettings s t ∧ sameMemory s t ∧ sameLatches s t ∧ sameInputs s t)
    ∧ (s.pos = .start → s.cfg.releasePolicy = .withResponse → answers (exec .reset s) fun t =>
      t.resetAsserted = true ∧ t.resetRan = true ∧ goesOnAt .reset .second s t
      ∧ t.pinTrace = s.pinTrace ++ (if s.resetAsserted then [] else [[.resetOut true]])
      ∧ t.clockEnabled = s.clockEnabled ∧ t.singleStep = s.singleStep ∧ t.clockPeriodHint = s.clockPeriodHint
      ∧ t.alEn = s.alEn ∧ t.ahEn = s.ahEn ∧ t.dEn = s.dEn ∧ t.clk = s.clk ∧ t.dpDir = s.dpDir ∧ t.waits = s.waits
      ∧ t.leaseSaved = s.leaseSaved ∧ sameSettings s t ∧ sameMemory s t ∧ sameLatches s t ∧ sameInputs s t)
    ∧ (s.pos = .second → answers (exec .reset s) fun t =>
      t.resetAsserted = false ∧ t.resetRan = s.resetRan
      ∧ t.pinTrace = s.pinTrace ++ (if s.resetAsserted then [[.resetOut false]] else [])
      ∧ endedWith [[0x21#8, 0x7B#8, 0x52#8, 0x45#8, 0x53#8, 0x45#8, 0x54#8, 0x2C#8, 0x30#8, 0x7D#8]] s t
      ∧ t.clockEnabled = s.clockEnabled ∧ t.singleStep = s.singleStep ∧ t.clockPeriodHint = s.clockPeriodHint
      ∧ t.alEn = s.alEn ∧ t.ahEn = s.ahEn ∧ t.dEn = s.dEn ∧ t.clk = s.clk ∧ t.dpDir = s.dpDir ∧ t.waits = s.waits
      ∧ t.leaseSaved = s.leaseSaved ∧ sameSettings s t ∧ sameMemory s t ∧ sameLatches s t ∧ sameInputs s t)

/-- Rule R145: `ResetRelease` clears `reset_asserted`, which `RESET_OUT` follows, and does nothing else. -/
def Obligations.ResetReleaseDeassertsTargetReset : Prop :=
  ∀ s : State, answers (exec .resetRelease s) fun t =>
    t.resetAsserted = false ∧ t.pinLevel .resetOut = false
    ∧ t.pinTrace = s.pinTrace ++ (if s.resetAsserted then [[.resetOut false]] else [])
    ∧ t.clockEnabled = s.clockEnabled ∧ t.singleStep = s.singleStep ∧ t.clockPeriodHint = s.clockPeriodHint
    ∧ t.alEn = s.alEn ∧ t.ahEn = s.ahEn ∧ t.dEn = s.dEn ∧ t.clk = s.clk ∧ t.dpDir = s.dpDir ∧ t.waits = s.waits
    ∧ sameHost s t ∧ sameMemory s t ∧ sameLatches s t ∧ sameInputs s t

/-- Rule R146: the one write of `SETT TICK` is made at once, and the response names the value, rebuilt as a numeral without
leading zeros (log entry 22, D25); a value that is no decimal numeral is rejected and writes nothing. -/
def Obligations.TickSetsClockPeriod : Prop :=
  ∀ (s : State) (value : List Byte),
    (∀ n, parseNumeral 10 value = some n →
      dispatch s.cfg .request kwSett ([0x54#8, 0x49#8, 0x43#8, 0x4B#8, 0x2C#8] ++ value) = .settTick (.ok n)
      ∧ answers (exec (.settTick (.ok n)) s) fun t =>
        t.clockPeriodHint = n
        ∧ endedWith [responseText kwSetting ([0x54#8, 0x49#8, 0x43#8, 0x4B#8, 0x2C#8] ++ numeral 10 n)] s t
        ∧ t.clockEnabled = s.clockEnabled ∧ t.singleStep = s.singleStep ∧ t.resetAsserted = s.resetAsserted
        ∧ t.settings = s.settings ∧ t.leaseSaved = s.leaseSaved ∧ sameMemory s t ∧ hostFrame s t)
    ∧ (parseNumeral 10 value = none →
      dispatch s.cfg .request kwSett ([0x54#8, 0x49#8, 0x43#8, 0x4B#8, 0x2C#8] ++ value) = .settTick (.bad .badArgument)
      ∧ answers (exec (.settTick (.bad .badArgument)) s) (rejectedFor .badArgument s))

/-- Rule R147. -/
def Obligations.OtherClockPayloadRejected : Prop :=
  ∀ (s : State) (payload : List Byte),
    (payload ≠ [0x30#8] → payload ≠ [0x31#8] → dispatch s.cfg .request kwClock payload = .clockOther payload)
    ∧ answers (exec (.clockOther payload) s) (rejectedFor .badArgument s)

/-! ### Host-port memory commands and the lease -/

/-- Rule R163: the payload's tests in the rule's order; one ROM cell is written, with the bits of its width (log entry 2: at
`DATA_W` = 8 the whole byte), and the echo rebuilt from the parsed values; out of range, nothing is written. -/
def Obligations.RomWritesOneCell : Prop :=
  ∀ (s : State),
    (∀ payload, payload.length ≠ 7 ∨ payload[4]? ≠ some 0x2C#8 →
      dispatch s.cfg .request kwRom payload = .rom (.bad .badArgument))
    ∧ (∀ a0 a1 a2 a3 v0 v1,
      (hex4 a0 a1 a2 a3 = none ∨ hex2 v0 v1 = none →
        dispatch s.cfg .request kwRom [a0, a1, a2, a3, 0x2C#8, v0, v1] = .rom (.bad .invalidDigit))
      ∧ ∀ a v, hex4 a0 a1 a2 a3 = some a → hex2 v0 v1 = some v →
        dispatch s.cfg .request kwRom [a0, a1, a2, a3, 0x2C#8, v0, v1] = .rom (.ok (a, v)))
    ∧ (∀ c, answers (exec (.rom (.bad c)) s) (rejectedFor c s))
    ∧ ∀ (a : Addr) (v : Byte),
      (a.toNat < s.cfg.romLen → answers (exec (.rom (.ok (a, v))) s) fun t =>
        (∀ b i, t.cell b i = if b = .rom ∧ i = a.toNat then s.cfg.cut v else s.cell b i)
        ∧ endedWith [responseText kwRom (wordToHex4 a ++ 0x2C#8 :: byteToHex2 v)] s t
        ∧ sameControl s t ∧ t.leaseSaved = s.leaseSaved ∧ sameSettings s t ∧ hostFrame s t)
      ∧ (s.cfg.romLen ≤ a.toNat → answers (exec (.rom (.ok (a, v))) s) (rejectedFor .outOfRange s))

/-- Rule R161: the bulk mutations save `clock_enabled`, force it false, and poll the sequencer until it is in `Idle`, one
atomic step each; then they go on at their first cell, or at the release when they have none. -/
def Obligations.LeaseIsTaken : Prop :=
  ∀ (i : Instr) (s : State), isBulk i = true →
    (s.pos = .start → answers (exec i s) fun t =>
      t.leaseSaved = some s.clockEnabled ∧ t.clockEnabled = s.clockEnabled ∧ goesOnAt i .leaseForce s t
      ∧ t.singleStep = s.singleStep ∧ t.resetAsserted = s.resetAsserted ∧ t.clockPeriodHint = s.clockPeriodHint
      ∧ sameSettings s t ∧ sameMemory s t ∧ hostFrame s t)
    ∧ (s.pos = .leaseForce → answers (exec i s) fun t =>
      t.clockEnabled = false ∧ t.leaseSaved = s.leaseSaved ∧ goesOnAt i .leaseWait s t
      ∧ t.singleStep = s.singleStep ∧ t.resetAsserted = s.resetAsserted ∧ t.clockPeriodHint = s.clockPeriodHint
      ∧ sameSettings s t ∧ sameMemory s t ∧ hostFrame s t)
    ∧ (s.pos = .leaseWait → answers (exec i s) fun t =>
      (s.phase ≠ .idle → goesOnAt i .leaseWait s t)
      ∧ (s.phase = .idle →
        (∀ d, i = .romlw (.ok d) →
          goesOnAt i (if 0 < d.data.length then .body 0 else .leaseRelease (if d.clean then none else some .invalidDigit)) s t)
        ∧ (i = .ramclr → goesOnAt i (if 0 < s.cfg.ramLen then .body 0 else .leaseRelease none) s t))
      ∧ t.leaseSaved = s.leaseSaved ∧ sameControl s t ∧ sameSettings s t ∧ sameMemory s t
      ∧ hostFrame s t)

/-- Rule R162: the release restores `clock_enabled`, ends the lease and the command, and does not write `single_step`; the
error the mutation met is then reported. -/
def Obligations.LeaseIsReleased : Prop :=
  ∀ (i : Instr) (s : State) (e : Option Cause) (saved : Bool), isBulk i = true → s.pos = .leaseRelease e →
    s.leaseSaved = some saved → answers (exec i s) fun t =>
      t.clockEnabled = saved ∧ t.leaseSaved = none
      ∧ endedWith (match e with
          | none => []
          | some c => [errorText (s.cfg.code c)]) s t
      ∧ t.singleStep = s.singleStep ∧ t.resetAsserted = s.resetAsserted ∧ t.clockPeriodHint = s.clockPeriodHint
      ∧ sameSettings s t ∧ sameMemory s t ∧ hostFrame s t

/-- Rules R58, R164, R165: under the lease each byte of a `ROMLW` is one atomic `BankWrite` at `a + k`, not wrapped, past the
end of ROM nothing is written and the release follows with `OutOfRange`; each cell of a `RAMCLR` is one atomic write of 0x00. A
cell holds the bits of its width (log entry 2). -/
def Obligations.BulkMutationWritesOneCellPerStep : Prop :=
  (∀ (s : State) (d : RomLoad) (k : Nat) (v : Byte), s.pos = .body k → d.data[k]? = some v →
      answers (exec (.romlw (.ok d)) s) fun t =>
        (d.addr.toNat + k < s.cfg.romLen →
          (∀ b i, t.cell b i = if b = .rom ∧ i = d.addr.toNat + k then s.cfg.cut v else s.cell b i)
          ∧ t.pos = (if k + 1 < d.data.length then .body (k + 1)
              else .leaseRelease (if d.clean then none else some .invalidDigit)))
        ∧ (s.cfg.romLen ≤ d.addr.toNat + k → sameMemory s t ∧ t.pos = .leaseRelease (some .outOfRange))
        ∧ t.cmd = some (.romlw (.ok d)) ∧ t.sent = s.sent ∧ t.parser = s.parser ∧ t.leaseSaved = s.leaseSaved
        ∧ sameControl s t ∧ sameSettings s t ∧ hostFrame s t)
  ∧ ∀ (s : State) (k : Nat), s.pos = .body k → k < s.cfg.ramLen →
      answers (exec .ramclr s) fun t =>
        (∀ b i, t.cell b i = if b = .ram ∧ i = k then 0x00#8 else s.cell b i)
        ∧ goesOnAt .ramclr (if k + 1 < s.cfg.ramLen then .body (k + 1) else .leaseRelease none) s t
        ∧ t.leaseSaved = s.leaseSaved ∧ sameControl s t ∧ sameSettings s t ∧ hostFrame s t

/-- Rule R164, from the first step to the last with the engine in `Idle`: the bytes that fit are written in order, the
first that does not fit ends the load with `OutOfRange`, a bad pair or lone digit after the written bytes with
`InvalidDigit`, and `clock_enabled` has its value again. A cell holds the bits of its width (log entry 2). -/
def Obligations.RomLoadRunsToItsEnd : Prop :=
  ∀ (s : State) (d : RomLoad), s.pos = .start → s.phase = .idle →
    (d.data = [] ∨ d.addr.toNat + d.data.length ≤ s.cfg.romLen →
      answers (execTimes (.romlw (.ok d)) (d.data.length + 4) s) fun t =>
        (∀ i, t.cell .rom i =
          if d.addr.toNat ≤ i then (d.data.map s.cfg.cut)[i - d.addr.toNat]?.getD (s.cell .rom i) else s.cell .rom i)
        ∧ (∀ i, t.cell .ram i = s.cell .ram i)
        ∧ endedWith (if d.clean then [] else [errorText s.cfg.errInvalidDigit]) s t
        ∧ t.leaseSaved = none ∧ sameControl s t ∧ sameSettings s t ∧ hostFrame s t)
    ∧ (d.data ≠ [] → s.cfg.romLen < d.addr.toNat + d.data.length →
      answers (execTimes (.romlw (.ok d)) (s.cfg.romLen - d.addr.toNat + 5) s) fun t =>
        (∀ i, t.cell .rom i =
          if d.addr.toNat ≤ i ∧ i < s.cfg.romLen then (d.data.map s.cfg.cut)[i - d.addr.toNat]?.getD (s.cell .rom i)
          else s.cell .rom i)
        ∧ (∀ i, t.cell .ram i = s.cell .ram i)
        ∧ endedWith [errorText s.cfg.errOutOfRange] s t
        ∧ t.leaseSaved = none ∧ sameControl s t ∧ sameSettings s t ∧ hostFrame s t)

/-- Rule R165, from the first step to the last with the engine in `Idle`: every RAM cell is zero, ROM is untouched, no
response is sent and `clock_enabled` has its value again; a payload is ignored. -/
def Obligations.RamClearZeroesEveryCell : Prop :=
  ∀ s : State, (∀ payload, dispatch s.cfg .message kwRamclr payload = .ramclr) ∧ (s.pos = .start → s.phase = .idle →
    answers (execTimes .ramclr (s.cfg.ramLen + 4) s) fun t =>
      (∀ i, t.cell .ram i = if i < s.cfg.ramLen then 0x00#8 else s.cell .ram i)
      ∧ (∀ i, t.cell .rom i = s.cell .rom i)
      ∧ endedWith [] s t
      ∧ t.leaseSaved = none ∧ sameControl s t ∧ sameSettings s t ∧ hostFrame s t)

/-- Rules R64, R166, R167: a read-back reads one cell per atomic step, as the cell then is, and responds with the last. -/
def Obligations.ReadBackReadsOneCellPerStep : Prop :=
  ∀ (s : State) (a : Addr) (n k : Nat) (out : List Byte), s.pos = .reading k out → k < n →
    (a.toNat + n ≤ s.cfg.ramLen → answers (exec (.ramlr (.ok (a, n))) s) fun t =>
      (k + 1 < n →
        goesOnAt (.ramlr (.ok (a, n))) (.reading (k + 1) (out ++ byteToHex2 (s.cell .ram (a.toNat + k)))) s t)
      ∧ (k + 1 = n → endedWith [responseText kwRamlr (out ++ byteToHex2 (s.cell .ram (a.toNat + k)))] s t)
      ∧ sameControl s t ∧ t.leaseSaved = s.leaseSaved ∧ sameSettings s t ∧ sameMemory s t ∧ hostFrame s t)
    ∧ (a.toNat + n ≤ s.cfg.romLen → answers (exec (.romlr (.ok (a, n))) s) fun t =>
      (k + 1 < n →
        goesOnAt (.romlr (.ok (a, n))) (.reading (k + 1) (out ++ byteToHex2 (s.cell .rom (a.toNat + k)))) s t)
      ∧ (k + 1 = n → endedWith [responseText kwRomlr (out ++ byteToHex2 (s.cell .rom (a.toNat + k)))] s t)
      ∧ sameControl s t ∧ t.leaseSaved = s.leaseSaved ∧ sameSettings s t ∧ sameMemory s t ∧ hostFrame s t)

/-- Rule R166, from the first step to the last with no step of ENGINE between: the range is checked before any read; a
count of 0 in range gives the empty response; else the response holds the digits of the cells. The step counts are log
entry 23. -/
def Obligations.RamReadBackReturnsCells : Prop :=
  ∀ (s : State) (a : Addr) (n : Nat), s.pos = .start →
    (s.cfg.ramLen < a.toNat + n → answers (exec (.ramlr (.ok (a, n))) s) (rejectedFor .outOfRange s))
    ∧ (a.toNat + n ≤ s.cfg.ramLen → answers (execTimes (.ramlr (.ok (a, n))) (if n = 0 then 1 else n) s) fun t =>
      endedWith [responseText kwRamlr (cellsText .ram a.toNat n s)] s t
      ∧ sameControl s t ∧ t.leaseSaved = s.leaseSaved ∧ sameSettings s t ∧ sameMemory s t ∧ hostFrame s t)

/-- Rule R167: as `RamReadBackReturnsCells`, on the ROM bank by index, the cells below `RAM_LEN` included; the step counts are
log entry 23. -/
def Obligations.RomReadBackReturnsCells : Prop :=
  ∀ (s : State) (a : Addr) (n : Nat), s.pos = .start →
    (s.cfg.romLen < a.toNat + n → answers (exec (.romlr (.ok (a, n))) s) (rejectedFor .outOfRange s))
    ∧ (a.toNat + n ≤ s.cfg.romLen → answers (execTimes (.romlr (.ok (a, n))) (if n = 0 then 1 else n) s) fun t =>
      endedWith [responseText kwRomlr (cellsText .rom a.toNat n s)] s t
      ∧ sameControl s t ∧ t.leaseSaved = s.leaseSaved ∧ sameSettings s t ∧ sameMemory s t ∧ hostFrame s t)

/-- Rules R96, R97, R164: digits of either case have their value, most significant first; a character outside `0-9A-Fa-f` is
`InvalidDigit` (`none`); the emitted digits are upper case; and a stream of pairs ends at the first bad pair or a lone digit,
which is not clean, the bytes before it kept. -/
def Obligations.HexCodecReadsDigits : Prop :=
  (∀ (c0 c1 : Byte) (d0 d1 : Nat), hexDigit c0 d0 → hexDigit c1 d1 → hex2 c0 c1 = some (BitVec.ofNat 8 (16 * d0 + d1)))
  ∧ (∀ c0 c1 : Byte, (∀ d, ¬hexDigit c0 d) ∨ (∀ d, ¬hexDigit c1 d) → hex2 c0 c1 = none)
  ∧ (∀ (c0 c1 c2 c3 : Byte) (d0 d1 d2 d3 : Nat), hexDigit c0 d0 → hexDigit c1 d1 → hexDigit c2 d2 → hexDigit c3 d3 →
      hex4 c0 c1 c2 c3 = some (BitVec.ofNat 16 (4096 * d0 + 256 * d1 + 16 * d2 + d3)))
  ∧ (∀ c0 c1 c2 c3 : Byte,
      (∀ d, ¬hexDigit c0 d) ∨ (∀ d, ¬hexDigit c1 d) ∨ (∀ d, ¬hexDigit c2 d) ∨ (∀ d, ¬hexDigit c3 d) →
      hex4 c0 c1 c2 c3 = none)
  ∧ (∀ v : Byte, ∃ c0 c1, byteToHex2 v = [c0, c1] ∧ hexDigit c0 (v.toNat / 16) ∧ hexDigit c1 (v.toNat % 16)
      ∧ c0.toNat ≤ 0x46 ∧ c1.toNat ≤ 0x46)
  ∧ (∀ w : Addr, ∃ c0 c1 c2 c3, wordToHex4 w = [c0, c1, c2, c3] ∧ hexDigit c0 (w.toNat / 4096)
      ∧ hexDigit c1 (w.toNat / 256 % 16) ∧ hexDigit c2 (w.toNat / 16 % 16) ∧ hexDigit c3 (w.toNat % 16)
      ∧ c0.toNat ≤ 0x46 ∧ c1.toNat ≤ 0x46 ∧ c2.toNat ≤ 0x46 ∧ c3.toNat ≤ 0x46)
  ∧ hexPairs [] = ([], true)
  ∧ (∀ c, hexPairs [c] = ([], false))
  ∧ ∀ (c0 c1 : Byte) (text : List Byte),
      (hex2 c0 c1 = none → hexPairs (c0 :: c1 :: text) = ([], false))
      ∧ ∀ v, hex2 c0 c1 = some v → hexPairs (c0 :: c1 :: text) = (v :: (hexPairs text).1, (hexPairs text).2)

/-- Rules R103, R146, R163, R164, R166, R167, R182, R183, R200: a command whose payload its own tests reject changes no state
of the block, takes no lease and is answered by one `ERROR` frame with the code of its cause; and which payloads of `ROMLW`,
`RAMLR`, `ROMLR`, `SETT` and `SETTING` are rejected for which cause, the tests in the rules' order, and which are not. -/
def Obligations.MalformedOperandsRejected : Prop :=
  (∀ (i : Instr) (c : Cause) (s : State), rejectedOperand i = some c → answers (exec i s) (rejectedFor c s))
  ∧ ∀ p : Params,
    (∀ payload, payload[4]? ≠ some 0x2C#8 →
      dispatch p .message kwRomlw payload = .romlw (.bad .badArgument)
      ∧ dispatch p .request kwRamlr payload = .ramlr (.bad .badArgument)
      ∧ dispatch p .request kwRomlr payload = .romlr (.bad .badArgument))
    ∧ (∀ a0 a1 a2 a3 text,
      (hex4 a0 a1 a2 a3 = none →
        dispatch p .message kwRomlw ([a0, a1, a2, a3, 0x2C#8] ++ text) = .romlw (.bad .invalidDigit))
      ∧ (∀ a, hex4 a0 a1 a2 a3 = some a → dispatch p .message kwRomlw ([a0, a1, a2, a3, 0x2C#8] ++ text) =
          .romlw (.ok { addr := a, data := (hexPairs text).1, clean := (hexPairs text).2 }))
      ∧ (parseNumeral p.countRadix text = none →
        dispatch p .request kwRamlr ([a0, a1, a2, a3, 0x2C#8] ++ text) = .ramlr (.bad .badArgument)
        ∧ dispatch p .request kwRomlr ([a0, a1, a2, a3, 0x2C#8] ++ text) = .romlr (.bad .badArgument))
      ∧ ∀ n, parseNumeral p.countRadix text = some n →
        (hex4 a0 a1 a2 a3 = none →
          dispatch p .request kwRamlr ([a0, a1, a2, a3, 0x2C#8] ++ text) = .ramlr (.bad .invalidDigit)
          ∧ dispatch p .request kwRomlr ([a0, a1, a2, a3, 0x2C#8] ++ text) = .romlr (.bad .invalidDigit))
        ∧ ∀ a, hex4 a0 a1 a2 a3 = some a →
          dispatch p .request kwRamlr ([a0, a1, a2, a3, 0x2C#8] ++ text) = .ramlr (.ok (a, n))
          ∧ dispatch p .request kwRomlr ([a0, a1, a2, a3, 0x2C#8] ++ text) = .romlr (.ok (a, n)))
    ∧ (∀ payload, 0x2C#8 ∉ payload → dispatch p .request kwSett payload = .sett (.bad .badArgument))
    ∧ (∀ key value, 0x2C#8 ∉ key →
      ((∀ k, key ≠ keyText k) → dispatch p .request kwSett (key ++ 0x2C#8 :: value) = .sett (.bad .badArgument))
      ∧ ∀ k, k ≠ .tick → key = keyText k → dispatch p .request kwSett (key ++ 0x2C#8 :: value) = .sett (.ok (k, value)))
    ∧ ∀ payload,
      ((∀ k, payload ≠ keyText k) → dispatch p .request kwSetting payload = .setting (.bad .badArgument))
      ∧ ∀ k, payload = keyText k → dispatch p .request kwSetting payload = .setting (.ok k)

/-! ### Link and settings commands, errors -/

/-- Rule R181: a payload, if sent, is ignored. -/
def Obligations.AwakeAnswers : Prop :=
  ∀ s : State, (∀ payload, dispatch s.cfg .request kwAwake payload = .awake) ∧ answers (exec .awake s) fun t =>
    endedWith [[0x21#8, 0x7B#8, 0x41#8, 0x57#8, 0x41#8, 0x4B#8, 0x45#8, 0x2C#8, 0x30#8, 0x7D#8]] s t
    ∧ sameControl s t ∧ t.leaseSaved = s.leaseSaved ∧ sameSettings s t ∧ sameMemory s t ∧ hostFrame s t

/-- Rule R182, for the keys that do not reach the block: the setting is put through the collaborator, `BAUD` re-establishes
the transport, and the response names key and value. -/
def Obligations.SettStoresSetting : Prop :=
  ∀ (s : State) (k : SettKey) (v : List Byte), k ≠ .tick → answers (exec (.sett (.ok (k, v))) s) fun t =>
    t.settingText k = v
    ∧ (∀ k', k' ≠ k → t.settingText k' = s.settingText k')
    ∧ t.calls = s.calls ++ [.put k v] ++ (if k = .baud then [.reopen v] else [])
    ∧ endedWith [responseText kwSetting (keyText k ++ 0x2C#8 :: v)] s t
    ∧ sameControl s t ∧ t.leaseSaved = s.leaseSaved ∧ sameMemory s t ∧ hostFrame s t

/-- Rule R183: the response names the key and its current value; for `TICK` that is `clock_period_hint` in decimal. -/
def Obligations.SettingReportsValue : Prop :=
  ∀ (s : State) (k : SettKey), answers (exec (.setting (.ok k)) s) fun t =>
    endedWith [responseText kwSetting (keyText k ++ 0x2C#8 ::
      (match k with
        | .baud => s.settings.baud
        | .tick => numeral 10 s.clockPeriodHint
        | .name => s.settings.name
        | .rams => s.settings.rams))] s t
    ∧ sameControl s t ∧ t.leaseSaved = s.leaseSaved ∧ sameSettings s t ∧ sameMemory s t ∧ hostFrame s t

/-- Rule R184: the record is committed (as an entry of `calls`, log entry 8) and one frame is sent, the one that
`SAVE_RESPONSE_FORMAT` makes of the texts of the four settings (log entry 11). -/
def Obligations.SaveCommitsSettings : Prop :=
  ∀ s : State, answers (exec .save s) fun t =>
    t.calls = s.calls ++ [.commit s.settings.baud (numeral 10 s.clockPeriodHint) s.settings.name s.settings.rams]
    ∧ (∀ action payload,
        Config.saveResponse s.settings.baud (numeral 10 s.clockPeriodHint) s.settings.name s.settings.rams = (action, payload) →
        endedWith [responseText action payload] s t)
    ∧ t.settings = s.settings ∧ sameControl s t ∧ t.leaseSaved = s.leaseSaved ∧ sameMemory s t ∧ hostFrame s t

/-- Rule R185: the frame carries the code as a signed decimal numeral and nothing else. -/
def Obligations.ErrorFrameCarriesCode : Prop :=
  ∀ (s : State) (code : Int), answers (exec (.error code) s) fun t =>
    endedWith [responseText [0x45#8, 0x52#8, 0x52#8, 0x4F#8, 0x52#8]
      ((if code < 0 then [0x2D#8] else []) ++ numeral 10 code.natAbs)] s t
    ∧ sameControl s t ∧ t.leaseSaved = s.leaseSaved ∧ sameSettings s t ∧ sameMemory s t ∧ hostFrame s t

/-- Rule R101: an action keyword that is not of its kind's table is an unknown action; a Request gets the error, a Message
nothing, and no state of the block changes. -/
def Obligations.UnknownActionReportedToRequestsOnly : Prop :=
  ∀ (s : State) (k : Kind) (action payload : List Byte),
    (knownAction k action = false → dispatch s.cfg k action payload = .unknownAction k action)
    ∧ answers (exec (.unknownAction .request action) s) (fun t => rejectedFor .unknownAction s t
        ∧ (s.cfg.errUnknownAction = -1 → t.sent = s.sent ++
          [[0x21#8, 0x7B#8, 0x45#8, 0x52#8, 0x52#8, 0x4F#8, 0x52#8, 0x2C#8, 0x32#8, 0x7D#8, 0x2D#8, 0x31#8]]))
    ∧ answers (exec (.unknownAction .message action) s) fun t =>
        endedWith [] s t ∧ sameControl s t ∧ t.leaseSaved = s.leaseSaved ∧ sameSettings s t ∧ sameMemory s t
        ∧ hostFrame s t

/-! ### The whole machine -/

/-- Rules R20, R220, R221: what start-up leaves, under any parameters, as far as the spec gives it; `State.reset` is the
start-up under the values of rule R8. That no `RESET` has run is the model's own note (log entry 13). -/
def Obligations.ResetLeavesStartUpValues : Prop :=
  State.reset = State.startUp Params.default
  ∧ ∀ (p : Params) (s : State), s = State.startUp p →
    s.phase = .idle ∧ s.clockEnabled = false
    ∧ s.alEn = false ∧ s.ahEn = false ∧ s.dEn = false ∧ s.clk = false ∧ s.dpDir = false ∧ s.dpOut = none
    ∧ s.parser.pstate = .awaitingSentinel ∧ s.parser.header = [] ∧ s.parser.payload = []
    ∧ s.leaseSaved = none ∧ s.resetAsserted = p.initResetAsserted ∧ s.cfg = p ∧ s.resetRan = false

/-- Rules R8, R24, R59, in the form log entry 2 gives them: `ADDR_W` and `DATA_W` are 16 and 8 by default; a cell, and what a
`Sample()` gives, has the `DATA_W` low bits of a byte, and the bus address is `ah : al` in `ADDR_W` bits; at the default widths
that is the whole byte and both latches. -/
def Obligations.WidthsLimitBusAddressAndCell : Prop :=
  State.reset.cfg.addrW = 16 ∧ State.reset.cfg.dataW = 8
  ∧ ∀ s : State,
    (∀ (b : Bank) (a : Nat) (v : Byte) (t : State), s.bankWrite b a v = some t →
      (t.cell b a).toNat = v.toNat % 2 ^ s.cfg.dataW.val ∧ (s.cfg.dataW = 8 → t.cell b a = v))
    ∧ s.sampled.rw = s.presented.rw ∧ s.sampled.b.toNat = s.presented.b.toNat % 2 ^ s.cfg.dataW.val
    ∧ (s.cfg.dataW = 8 → s.sampled = s.presented)
    ∧ (s.al.toNat < 2 ^ s.cfg.dataW.val →
        (busAddr s.cfg s.ah s.al).toNat = (s.ah.toNat * 2 ^ s.cfg.dataW.val + s.al.toNat) % 2 ^ s.cfg.addrW.val)
    ∧ (s.cfg.addrW = 16 → s.cfg.dataW = 8 → busAddr s.cfg s.ah s.al = s.ah ++ s.al)

/-- The invariant holds at start-up, under any parameters. -/
def Obligations.ResetMeetsInvariant : Prop := State.reset.Inv ∧ ∀ p : Params, (State.startUp p).Inv

/-- Rules R23, R42, R65, R82, R118, R119: every step keeps the pins and the clock at the pattern of their phase, the enables
one-hot, the drivers off an address phase, the lease held where it is held and the engine in `Idle` under it, the parser's
buffers consistent, both banks in canonical form, and cells, latches and Bus Sample of their widths (rule R8, log entry 2). -/
def Obligations.EveryStepKeepsInvariant : Prop :=
  ∀ s t : State, s.Inv → step s = .next t → t.Inv

/-- Rules R15, R122, R190: in a state that meets the invariant every step of either agent completes. -/
def Obligations.EveryReachableStepAnswers : Prop := ∀ s : State, s.Inv → answers (step s) fun t => t.cfg = s.cfg

/-- Rule R206, of an operation and of an execution's step: who may change a ROM cell, a RAM cell, and set `clock_enabled`. A
step that runs no operation (a poll of the link, a move that is not offered) does none of the three. -/
def Obligations.PortRightsHold : Prop :=
  (∀ (i : Instr) (s t : State), exec i s = .next t →
    (∀ a, t.cell .rom a ≠ s.cell .rom a → (∃ x, i = .rom x) ∨ ∃ x, i = .romlw x)
    ∧ (∀ a, t.cell .ram a ≠ s.cell .ram a →
        (i = .eDataWr ∧ a = (busAddr s.cfg s.ah s.al).toNat ∧ a < s.cfg.ramLen) ∨ i = .ramclr)
    ∧ (s.clockEnabled = false → t.clockEnabled = true → isCommand i = true))
  ∧ ∀ s t : State, step s = .next t →
    (∀ a, t.cell .rom a ≠ s.cell .rom a →
      s.turn = .host ∧ ((∃ x, s.cmd = some (.rom x)) ∨ ∃ x, s.cmd = some (.romlw x)))
    ∧ (∀ a, t.cell .ram a ≠ s.cell .ram a →
        (s.fetch = .run .eDataWr ∧ a = (busAddr s.cfg s.ah s.al).toNat ∧ a < s.cfg.ramLen)
        ∨ (s.turn = .host ∧ s.cmd = some .ramclr))
    ∧ (s.clockEnabled = false → t.clockEnabled = true → s.turn = .host)

/-- Rule R121, of an operation and of an execution's step: the complete transition relation of `phase` (`phaseEdge`, row by
row); a step that runs no operation leaves it alone, and in a state that meets the invariant only ENGINE moves it (rule R22). -/
def Obligations.PhaseMovesOnlyAlongItsEdges : Prop :=
  (∀ (i : Instr) (s t : State), exec i s = .next t → phaseEdge i s t)
  ∧ ∀ s t : State, step s = .next t →
    ((∃ i, s.fetch = .run i ∧ phaseEdge i s t) ∨ ((s.fetch = .poll ∨ s.fetch = .pass) ∧ t.phase = s.phase))
    ∧ (s.Inv → t.phase ≠ s.phase → s.turn = .engine)

/-- Rule R123: `CLOCKPULSE` in `Idle` with the clock disabled runs exactly one cycle, its four operations in order, with one
rise and one fall of the clock line, and leaves the engine in `Idle` with the clock disabled, where it stays. -/
def Obligations.SingleStepRunsExactlyOneCycle : Prop :=
  ∀ s : State, engineOk s = true → s.phase = .idle → s.clockEnabled = false → s.pos = .start →
    answers (execTimes .clockPulse 2 s) fun u =>
      ∃ a b c d t, exec .eIdlePoll u = .next a ∧ exec .eAcqLo a = .next b ∧ exec .eAcqHi b = .next c
        ∧ (exec .eDataWr c = .next d ∨ exec .eDataRd c = .next d) ∧ exec .eClkFall d = .next t
        ∧ (∀ m, engineRun (5 + m) u = .next t)
        ∧ t.phase = .idle ∧ t.clockEnabled = false ∧ t.singleStep = true
        ∧ t.clk = false ∧ clockEvents t.pinTrace = clockEvents s.pinTrace ++ [true, false]

/-- Rule R124: with `clock_enabled` false the engine is in `Idle` after at most the cycle in progress, with at most one fall
of the clock line, and stays there. -/
def Obligations.ClockOffStopsWithinOneCycle : Prop :=
  ∀ s : State, engineOk s = true → s.clockEnabled = false →
    ∃ n t, n ≤ 4 ∧ (∀ m, engineRun (n + m) s = .next t) ∧ t.phase = .idle ∧ t.clockEnabled = false ∧ t.clk = false
      ∧ ((clockEvents t.pinTrace).filter (· == false)).length
          ≤ ((clockEvents s.pinTrace).filter (· == false)).length + 1

/-- Rule R65: between the first write of a bulk mutation and its release an engine turn is an `Idle` poll that changes
nothing but whose turn it is. It relies on decision D17: "the wait for `phase == Idle` is what makes the guarantee true and is
the spec's own" (rule R161). -/
def Obligations.BulkMutationSeesNoBusCycle : Prop :=
  ∀ s : State, s.Inv → ((∃ k, s.pos = .body k) ∨ ∃ e, s.pos = .leaseRelease e) → s.turn = .engine →
    step s = .next s.popTurn

/-- Rule R166 with rules R57, R114 (D0's property V1): a byte a bus write puts at a RAM address comes back from `RAMLR`
there, in any later state whose cells are the same. Rules R164, R167 (V2): what a clean load in range writes comes back from
`ROMLR` as the same digits in upper case, of the bytes that cells hold (log entry 2). -/
def Obligations.WritesReadBack : Prop :=
  (∀ s : State, s.phase = .data → s.clk = false → s.dir = .cpuWrite → s.dpDir = false →
    (busAddr s.cfg s.ah s.al).toNat < s.cfg.ramLen →
    answers (exec .eDataWr s) fun t =>
      ∀ u : State, sameMemory t u → u.cfg = t.cfg → u.pos = .start →
        answers (exec (.ramlr (.ok (busAddr s.cfg s.ah s.al, 1))) u) fun w =>
          w.sent = u.sent ++ [responseText kwRamlr (byteToHex2 s.sampled.b)])
  ∧ ∀ (s : State) (d : RomLoad), s.pos = .start → s.phase = .idle → d.clean = true → d.data ≠ [] →
    d.addr.toNat + d.data.length ≤ s.cfg.romLen →
    answers (execTimes (.romlw (.ok d)) (d.data.length + 4) s) fun t =>
      answers (execTimes (.romlr (.ok (d.addr, d.data.length))) d.data.length t) fun w =>
        w.sent = s.sent ++ [responseText kwRomlr (hexPairsText (d.data.map s.cfg.cut))]

/-- Rules R105, R200, R202: an atomic step of a command either leaves the command going on with no frame sent, or ends it
with at most one frame, exactly one for a Request. -/
def Obligations.RequestsGetOneResponse : Prop :=
  ∀ (i : Instr) (s t : State), isCommand i = true → exec i s = .next t →
    (t.cmd = some i ∧ t.sent = s.sent)
    ∨ (t.cmd = none ∧ ∃ frames, t.sent = s.sent ++ frames ∧ frames.length ≤ 1
        ∧ (isRequest i = true → frames.length = 1))

/-- Rule R242 with R161, R162: under a fair schedule a lease being taken is had, with the engine in `Idle`, and a lease that is
held or being taken ends. -/
def Obligations.LeaseEndsUnderFairness : Prop :=
  ∀ (s : State) (σ : Nat → Turn), s.Inv → FairSchedule σ →
    (s.pos = .leaseForce ∨ s.pos = .leaseWait →
      ∃ n t, runUnder σ n s = .next t ∧ t.phase = .idle ∧ ((∃ k, t.pos = .body k) ∨ ∃ e, t.pos = .leaseRelease e))
    ∧ (s.leaseSaved ≠ none → ∃ n t, runUnder σ n s = .next t ∧ t.leaseSaved = none)

/-- Rule R242 with R123, R143: under a fair schedule a `CLOCKPULSE` issued in `Idle` gets its response and is followed by a
cycle, after which the engine is in `Idle` with the clock disabled; with the clock disabled when it is issued, that is the only
cycle. No further byte waits, since a later command could clear `clock_enabled` before the engine polls it (rule R111). -/
def Obligations.PulseGetsItsCycleUnderFairness : Prop :=
  ∀ (s : State) (σ : Nat → Turn), s.Inv → FairSchedule σ → s.cmd = some .clockPulse → s.pos = .start → s.phase = .idle →
    s.rx = [] →
    ∃ n t earlier, runUnder σ n s = .next t ∧ t.phase = .idle ∧ t.clockEnabled = false ∧ t.singleStep = true
      ∧ t.cmd = none ∧ t.sent = s.sent ++ [responseText kwClockPulse []]
      ∧ clockEvents t.pinTrace = clockEvents s.pinTrace ++ earlier ++ [true, false]
      ∧ (s.clockEnabled = false → earlier = [])
end

