-- ==== Sys2Proof/Laws/Codec.lean ====
section
/-! SUPPORT. The text codec: digits, hex pairs, numerals, and that a numeral holds none of the parser's own characters. -/

namespace Sys2Proof

/-- A byte that is an upper-case hex digit. -/
def IsDigit (c : Byte) : Prop := ∃ d, d < 16 ∧ c = digitChar d

theorem digitVal_digitChar {d : Nat} (h : d < 16) : digitVal (digitChar d) = some d := by
  have : ∀ d : Fin 16, digitVal (digitChar d) = some d.val := by decide
  exact this ⟨d, h⟩

theorem isDigit_plain {c : Byte} (h : IsDigit c) : kindOf c = none ∧ c ≠ chComma ∧ c ≠ chClose := by
  obtain ⟨d, hd, rfl⟩ := h
  have : ∀ d : Fin 16, kindOf (digitChar d) = none ∧ digitChar d ≠ chComma ∧ digitChar d ≠ chClose := by decide
  exact this ⟨d, hd⟩

theorem hex2_digitChar {m n : Nat} (hm : m < 16) (hn : n < 16) :
    hex2 (digitChar m) (digitChar n) = some (BitVec.ofNat 8 (16 * m + n)) := by
  simp only [hex2, digitVal_digitChar hm, digitVal_digitChar hn]

/-- Two digits of a byte read back as the byte (rules R96, R97). -/
theorem hex2_of_byte (v : Byte) : hex2 (digitChar (v.toNat / 16)) (digitChar (v.toNat % 16)) = some v := by
  have hv := v.isLt
  rw [hex2_digitChar (by omega) (by omega)]
  congr 1
  apply BitVec.eq_of_toNat_eq
  rw [BitVec.toNat_ofNat]
  omega

/-- Four digits of a word read back as the word (rules R96, R97). -/
theorem hex4_of_word (w : Addr) :
    hex4 (digitChar (w.toNat / 4096)) (digitChar (w.toNat / 256 % 16)) (digitChar (w.toNat / 16 % 16))
      (digitChar (w.toNat % 16)) = some w := by
  have hw := w.isLt
  simp only [hex4, digitVal_digitChar (show w.toNat / 4096 < 16 by omega),
    digitVal_digitChar (show w.toNat / 256 % 16 < 16 by omega), digitVal_digitChar (show w.toNat / 16 % 16 < 16 by omega),
    digitVal_digitChar (show w.toNat % 16 < 16 by omega)]
  congr 1
  apply BitVec.eq_of_toNat_eq
  rw [BitVec.toNat_ofNat]
  omega

@[simp] theorem byteToHex2_length (v : Byte) : (byteToHex2 v).length = 2 := rfl
@[simp] theorem wordToHex4_length (w : Addr) : (wordToHex4 w).length = 4 := rfl

/-- Digit pairs read back, whatever follows them (rule R164). -/
theorem hexPairs_append (bs : List Byte) (rest : List Byte) :
    hexPairs (hexPairsText bs ++ rest) = (bs ++ (hexPairs rest).1, (hexPairs rest).2) := by
  induction bs with
  | nil => simp [hexPairsText]
  | cons v bs ih =>
    have : hexPairsText (v :: bs) ++ rest
        = digitChar (v.toNat / 16) :: digitChar (v.toNat % 16) :: (hexPairsText bs ++ rest) := by
      simp [hexPairsText, byteToHex2]
    rw [this, hexPairs, hex2_of_byte]
    simp [ih]

theorem hexPairsText_length (bs : List Byte) : (hexPairsText bs).length = 2 * bs.length := by
  induction bs with
  | nil => rfl
  | cons v bs ih =>
    have : hexPairsText (v :: bs) = byteToHex2 v ++ hexPairsText bs := by simp [hexPairsText]
    rw [this, List.length_append, ih, byteToHex2_length, List.length_cons]
    omega

/-! ### Numerals -/

theorem numeralGo_append (r : Nat) (fuel n : Nat) (acc : List Byte) :
    numeralGo r fuel n acc = numeralGo r fuel n [] ++ acc := by
  induction fuel generalizing n acc with
  | zero => rfl
  | succ f ih =>
    simp only [numeralGo]
    split
    · rfl
    · rw [ih, ih (n / r) [digitChar (n % r)]]
      simp

theorem numeralGo_isDigit {r : Nat} (h2 : 2 ≤ r) (h16 : r ≤ 16) (fuel n : Nat) :
    ∀ c ∈ numeralGo r fuel n [], IsDigit c := by
  induction fuel generalizing n with
  | zero => simp [numeralGo]
  | succ f ih =>
    intro c hc
    simp only [numeralGo] at hc
    split at hc
    · exact ⟨n, by omega, by simpa using hc⟩
    · rw [numeralGo_append] at hc
      rcases List.mem_append.1 hc with hc | hc
      · exact ih _ c hc
      · exact ⟨n % r, lt_of_lt_of_le (Nat.mod_lt _ (by omega)) h16, by simpa using hc⟩

/-- A numeral is made of digits. -/
theorem numeral_isDigit {r : Nat} (h2 : 2 ≤ r) (h16 : r ≤ 16) (n : Nat) : ∀ c ∈ numeral r n, IsDigit c :=
  numeralGo_isDigit h2 h16 (n + 1) n

theorem numeral_ne_nil (r n : Nat) : numeral r n ≠ [] := by
  simp only [numeral, numeralGo]
  split
  · simp
  · rw [numeralGo_append]; simp

theorem numeralValue_append (r acc : Nat) (xs ys : List Byte) :
    numeralValue r acc (xs ++ ys) = (numeralValue r acc xs).bind fun a => numeralValue r a ys := by
  induction xs generalizing acc with
  | nil => rfl
  | cons c xs ih =>
    simp only [List.cons_append, numeralValue]
    split
    · split
      · rw [ih]
      · rfl
    · rfl

theorem numeralValue_numeralGo {r : Nat} (h2 : 2 ≤ r) (h16 : r ≤ 16) (fuel n : Nat) (hf : n < fuel) :
    numeralValue r 0 (numeralGo r fuel n []) = some n := by
  induction fuel generalizing n with
  | zero => omega
  | succ f ih =>
    simp only [numeralGo]
    split
    · rename_i h
      simp [numeralValue, digitVal_digitChar (show n < 16 by omega), h]
    · rename_i h
      have hm : n % r < r := Nat.mod_lt _ (by omega)
      have hd : n / r < n := Nat.div_lt_self (by omega) (by omega)
      rw [numeralGo_append, numeralValue_append, ih (n / r) (by omega)]
      simp [numeralValue, digitVal_digitChar (show n % r < 16 by omega), hm, Nat.div_add_mod']

/-- A numeral reads back as its value (rule R98). -/
theorem parseNumeral_numeral {r : Nat} (h2 : 2 ≤ r) (h16 : r ≤ 16) (n : Nat) :
    parseNumeral r (numeral r n) = some n := by
  rw [parseNumeral, if_neg (numeral_ne_nil r n)]
  exact numeralValue_numeralGo h2 h16 (n + 1) n (by omega)

/-- Two numerals of one value are one text. -/
theorem numeral_injective {r : Nat} (h2 : 2 ≤ r) (h16 : r ≤ 16) {m n : Nat} (h : numeral r m = numeral r n) : m = n := by
  have := parseNumeral_numeral h2 h16 m
  rw [h, parseNumeral_numeral h2 h16] at this
  exact (Option.some.inj this).symm

/-! ### Splitting at the first comma -/

theorem splitComma_append (k v : List Byte) (h : chComma ∉ k) : splitComma (k ++ chComma :: v) = some (k, v) := by
  induction k with
  | nil => simp [splitComma]
  | cons c k ih =>
    have hc : c ≠ chComma := by rintro rfl; exact h (by simp)
    have hk : chComma ∉ k := fun hm => h (by simp [hm])
    simp [splitComma, hc, ih hk]

theorem keyOf_keyText (k : SettKey) : keyOf (keyText k) = some k := by cases k <;> decide

theorem comma_notMem_keyText (k : SettKey) : chComma ∉ keyText k := by cases k <;> decide

end Sys2Proof
end

