-- ==== Sys2Proof/Laws/State.lean ====
section
/-! SUPPORT. One lemma per field per update, true by unfolding once, so that no later proof unfolds a record update. -/

namespace Sys2Proof.Machine

/-! ### `setAlEn` -/

@[simp] theorem State.setAlEn_phase (s : State) (v : Bool) : (s.setAlEn v).phase = s.phase := rfl
@[simp] theorem State.setAlEn_al (s : State) (v : Bool) : (s.setAlEn v).al = s.al := rfl
@[simp] theorem State.setAlEn_ah (s : State) (v : Bool) : (s.setAlEn v).ah = s.ah := rfl
@[simp] theorem State.setAlEn_dir (s : State) (v : Bool) : (s.setAlEn v).dir = s.dir := rfl
@[simp] theorem State.setAlEn_dout (s : State) (v : Bool) : (s.setAlEn v).dout = s.dout := rfl
@[simp] theorem State.setAlEn_bs (s : State) (v : Bool) : (s.setAlEn v).bs = s.bs := rfl
@[simp] theorem State.setAlEn_clockEnabled (s : State) (v : Bool) : (s.setAlEn v).clockEnabled = s.clockEnabled := rfl
@[simp] theorem State.setAlEn_singleStep (s : State) (v : Bool) : (s.setAlEn v).singleStep = s.singleStep := rfl
@[simp] theorem State.setAlEn_resetAsserted (s : State) (v : Bool) : (s.setAlEn v).resetAsserted = s.resetAsserted := rfl
@[simp] theorem State.setAlEn_clockPeriodHint (s : State) (v : Bool) : (s.setAlEn v).clockPeriodHint = s.clockPeriodHint := rfl
@[simp] theorem State.setAlEn_alEn (s : State) (v : Bool) : (s.setAlEn v).alEn = v := rfl
@[simp] theorem State.setAlEn_ahEn (s : State) (v : Bool) : (s.setAlEn v).ahEn = s.ahEn := rfl
@[simp] theorem State.setAlEn_dEn (s : State) (v : Bool) : (s.setAlEn v).dEn = s.dEn := rfl
@[simp] theorem State.setAlEn_clk (s : State) (v : Bool) : (s.setAlEn v).clk = s.clk := rfl
@[simp] theorem State.setAlEn_dpDir (s : State) (v : Bool) : (s.setAlEn v).dpDir = s.dpDir := rfl
@[simp] theorem State.setAlEn_ram (s : State) (v : Bool) : (s.setAlEn v).ram = s.ram := rfl
@[simp] theorem State.setAlEn_rom (s : State) (v : Bool) : (s.setAlEn v).rom = s.rom := rfl
@[simp] theorem State.setAlEn_leaseSaved (s : State) (v : Bool) : (s.setAlEn v).leaseSaved = s.leaseSaved := rfl
@[simp] theorem State.setAlEn_parser (s : State) (v : Bool) : (s.setAlEn v).parser = s.parser := rfl
@[simp] theorem State.setAlEn_cfg (s : State) (v : Bool) : (s.setAlEn v).cfg = s.cfg := rfl
@[simp] theorem State.setAlEn_cmd (s : State) (v : Bool) : (s.setAlEn v).cmd = s.cmd := rfl
@[simp] theorem State.setAlEn_pos (s : State) (v : Bool) : (s.setAlEn v).pos = s.pos := rfl
@[simp] theorem State.setAlEn_resetRan (s : State) (v : Bool) : (s.setAlEn v).resetRan = s.resetRan := rfl
@[simp] theorem State.setAlEn_settings (s : State) (v : Bool) : (s.setAlEn v).settings = s.settings := rfl
@[simp] theorem State.setAlEn_rx (s : State) (v : Bool) : (s.setAlEn v).rx = s.rx := rfl
@[simp] theorem State.setAlEn_samples (s : State) (v : Bool) : (s.setAlEn v).samples = s.samples := rfl
@[simp] theorem State.setAlEn_turns (s : State) (v : Bool) : (s.setAlEn v).turns = s.turns := rfl
@[simp] theorem State.setAlEn_draws (s : State) (v : Bool) : (s.setAlEn v).draws = s.draws := rfl
@[simp] theorem State.setAlEn_pinTrace (s : State) (v : Bool) : (s.setAlEn v).pinTrace = noteEvents s.pinTrace (pinChange s.alEn v (.alEn v)) := rfl
@[simp] theorem State.setAlEn_waits (s : State) (v : Bool) : (s.setAlEn v).waits = s.waits := rfl
@[simp] theorem State.setAlEn_sent (s : State) (v : Bool) : (s.setAlEn v).sent = s.sent := rfl
@[simp] theorem State.setAlEn_calls (s : State) (v : Bool) : (s.setAlEn v).calls = s.calls := rfl

/-! ### `setAhEn` -/

@[simp] theorem State.setAhEn_phase (s : State) (v : Bool) : (s.setAhEn v).phase = s.phase := rfl
@[simp] theorem State.setAhEn_al (s : State) (v : Bool) : (s.setAhEn v).al = s.al := rfl
@[simp] theorem State.setAhEn_ah (s : State) (v : Bool) : (s.setAhEn v).ah = s.ah := rfl
@[simp] theorem State.setAhEn_dir (s : State) (v : Bool) : (s.setAhEn v).dir = s.dir := rfl
@[simp] theorem State.setAhEn_dout (s : State) (v : Bool) : (s.setAhEn v).dout = s.dout := rfl
@[simp] theorem State.setAhEn_bs (s : State) (v : Bool) : (s.setAhEn v).bs = s.bs := rfl
@[simp] theorem State.setAhEn_clockEnabled (s : State) (v : Bool) : (s.setAhEn v).clockEnabled = s.clockEnabled := rfl
@[simp] theorem State.setAhEn_singleStep (s : State) (v : Bool) : (s.setAhEn v).singleStep = s.singleStep := rfl
@[simp] theorem State.setAhEn_resetAsserted (s : State) (v : Bool) : (s.setAhEn v).resetAsserted = s.resetAsserted := rfl
@[simp] theorem State.setAhEn_clockPeriodHint (s : State) (v : Bool) : (s.setAhEn v).clockPeriodHint = s.clockPeriodHint := rfl
@[simp] theorem State.setAhEn_alEn (s : State) (v : Bool) : (s.setAhEn v).alEn = s.alEn := rfl
@[simp] theorem State.setAhEn_ahEn (s : State) (v : Bool) : (s.setAhEn v).ahEn = v := rfl
@[simp] theorem State.setAhEn_dEn (s : State) (v : Bool) : (s.setAhEn v).dEn = s.dEn := rfl
@[simp] theorem State.setAhEn_clk (s : State) (v : Bool) : (s.setAhEn v).clk = s.clk := rfl
@[simp] theorem State.setAhEn_dpDir (s : State) (v : Bool) : (s.setAhEn v).dpDir = s.dpDir := rfl
@[simp] theorem State.setAhEn_ram (s : State) (v : Bool) : (s.setAhEn v).ram = s.ram := rfl
@[simp] theorem State.setAhEn_rom (s : State) (v : Bool) : (s.setAhEn v).rom = s.rom := rfl
@[simp] theorem State.setAhEn_leaseSaved (s : State) (v : Bool) : (s.setAhEn v).leaseSaved = s.leaseSaved := rfl
@[simp] theorem State.setAhEn_parser (s : State) (v : Bool) : (s.setAhEn v).parser = s.parser := rfl
@[simp] theorem State.setAhEn_cfg (s : State) (v : Bool) : (s.setAhEn v).cfg = s.cfg := rfl
@[simp] theorem State.setAhEn_cmd (s : State) (v : Bool) : (s.setAhEn v).cmd = s.cmd := rfl
@[simp] theorem State.setAhEn_pos (s : State) (v : Bool) : (s.setAhEn v).pos = s.pos := rfl
@[simp] theorem State.setAhEn_resetRan (s : State) (v : Bool) : (s.setAhEn v).resetRan = s.resetRan := rfl
@[simp] theorem State.setAhEn_settings (s : State) (v : Bool) : (s.setAhEn v).settings = s.settings := rfl
@[simp] theorem State.setAhEn_rx (s : State) (v : Bool) : (s.setAhEn v).rx = s.rx := rfl
@[simp] theorem State.setAhEn_samples (s : State) (v : Bool) : (s.setAhEn v).samples = s.samples := rfl
@[simp] theorem State.setAhEn_turns (s : State) (v : Bool) : (s.setAhEn v).turns = s.turns := rfl
@[simp] theorem State.setAhEn_draws (s : State) (v : Bool) : (s.setAhEn v).draws = s.draws := rfl
@[simp] theorem State.setAhEn_pinTrace (s : State) (v : Bool) : (s.setAhEn v).pinTrace = noteEvents s.pinTrace (pinChange s.ahEn v (.ahEn v)) := rfl
@[simp] theorem State.setAhEn_waits (s : State) (v : Bool) : (s.setAhEn v).waits = s.waits := rfl
@[simp] theorem State.setAhEn_sent (s : State) (v : Bool) : (s.setAhEn v).sent = s.sent := rfl
@[simp] theorem State.setAhEn_calls (s : State) (v : Bool) : (s.setAhEn v).calls = s.calls := rfl

/-! ### `setDEn` -/

@[simp] theorem State.setDEn_phase (s : State) (v : Bool) : (s.setDEn v).phase = s.phase := rfl
@[simp] theorem State.setDEn_al (s : State) (v : Bool) : (s.setDEn v).al = s.al := rfl
@[simp] theorem State.setDEn_ah (s : State) (v : Bool) : (s.setDEn v).ah = s.ah := rfl
@[simp] theorem State.setDEn_dir (s : State) (v : Bool) : (s.setDEn v).dir = s.dir := rfl
@[simp] theorem State.setDEn_dout (s : State) (v : Bool) : (s.setDEn v).dout = s.dout := rfl
@[simp] theorem State.setDEn_bs (s : State) (v : Bool) : (s.setDEn v).bs = s.bs := rfl
@[simp] theorem State.setDEn_clockEnabled (s : State) (v : Bool) : (s.setDEn v).clockEnabled = s.clockEnabled := rfl
@[simp] theorem State.setDEn_singleStep (s : State) (v : Bool) : (s.setDEn v).singleStep = s.singleStep := rfl
@[simp] theorem State.setDEn_resetAsserted (s : State) (v : Bool) : (s.setDEn v).resetAsserted = s.resetAsserted := rfl
@[simp] theorem State.setDEn_clockPeriodHint (s : State) (v : Bool) : (s.setDEn v).clockPeriodHint = s.clockPeriodHint := rfl
@[simp] theorem State.setDEn_alEn (s : State) (v : Bool) : (s.setDEn v).alEn = s.alEn := rfl
@[simp] theorem State.setDEn_ahEn (s : State) (v : Bool) : (s.setDEn v).ahEn = s.ahEn := rfl
@[simp] theorem State.setDEn_dEn (s : State) (v : Bool) : (s.setDEn v).dEn = v := rfl
@[simp] theorem State.setDEn_clk (s : State) (v : Bool) : (s.setDEn v).clk = s.clk := rfl
@[simp] theorem State.setDEn_dpDir (s : State) (v : Bool) : (s.setDEn v).dpDir = s.dpDir := rfl
@[simp] theorem State.setDEn_ram (s : State) (v : Bool) : (s.setDEn v).ram = s.ram := rfl
@[simp] theorem State.setDEn_rom (s : State) (v : Bool) : (s.setDEn v).rom = s.rom := rfl
@[simp] theorem State.setDEn_leaseSaved (s : State) (v : Bool) : (s.setDEn v).leaseSaved = s.leaseSaved := rfl
@[simp] theorem State.setDEn_parser (s : State) (v : Bool) : (s.setDEn v).parser = s.parser := rfl
@[simp] theorem State.setDEn_cfg (s : State) (v : Bool) : (s.setDEn v).cfg = s.cfg := rfl
@[simp] theorem State.setDEn_cmd (s : State) (v : Bool) : (s.setDEn v).cmd = s.cmd := rfl
@[simp] theorem State.setDEn_pos (s : State) (v : Bool) : (s.setDEn v).pos = s.pos := rfl
@[simp] theorem State.setDEn_resetRan (s : State) (v : Bool) : (s.setDEn v).resetRan = s.resetRan := rfl
@[simp] theorem State.setDEn_settings (s : State) (v : Bool) : (s.setDEn v).settings = s.settings := rfl
@[simp] theorem State.setDEn_rx (s : State) (v : Bool) : (s.setDEn v).rx = s.rx := rfl
@[simp] theorem State.setDEn_samples (s : State) (v : Bool) : (s.setDEn v).samples = s.samples := rfl
@[simp] theorem State.setDEn_turns (s : State) (v : Bool) : (s.setDEn v).turns = s.turns := rfl
@[simp] theorem State.setDEn_draws (s : State) (v : Bool) : (s.setDEn v).draws = s.draws := rfl
@[simp] theorem State.setDEn_pinTrace (s : State) (v : Bool) : (s.setDEn v).pinTrace = noteEvents s.pinTrace (pinChange s.dEn v (.dEn v)) := rfl
@[simp] theorem State.setDEn_waits (s : State) (v : Bool) : (s.setDEn v).waits = s.waits := rfl
@[simp] theorem State.setDEn_sent (s : State) (v : Bool) : (s.setDEn v).sent = s.sent := rfl
@[simp] theorem State.setDEn_calls (s : State) (v : Bool) : (s.setDEn v).calls = s.calls := rfl

/-! ### `setClk` -/

@[simp] theorem State.setClk_phase (s : State) (v : Bool) : (s.setClk v).phase = s.phase := rfl
@[simp] theorem State.setClk_al (s : State) (v : Bool) : (s.setClk v).al = s.al := rfl
@[simp] theorem State.setClk_ah (s : State) (v : Bool) : (s.setClk v).ah = s.ah := rfl
@[simp] theorem State.setClk_dir (s : State) (v : Bool) : (s.setClk v).dir = s.dir := rfl
@[simp] theorem State.setClk_dout (s : State) (v : Bool) : (s.setClk v).dout = s.dout := rfl
@[simp] theorem State.setClk_bs (s : State) (v : Bool) : (s.setClk v).bs = s.bs := rfl
@[simp] theorem State.setClk_clockEnabled (s : State) (v : Bool) : (s.setClk v).clockEnabled = s.clockEnabled := rfl
@[simp] theorem State.setClk_singleStep (s : State) (v : Bool) : (s.setClk v).singleStep = s.singleStep := rfl
@[simp] theorem State.setClk_resetAsserted (s : State) (v : Bool) : (s.setClk v).resetAsserted = s.resetAsserted := rfl
@[simp] theorem State.setClk_clockPeriodHint (s : State) (v : Bool) : (s.setClk v).clockPeriodHint = s.clockPeriodHint := rfl
@[simp] theorem State.setClk_alEn (s : State) (v : Bool) : (s.setClk v).alEn = s.alEn := rfl
@[simp] theorem State.setClk_ahEn (s : State) (v : Bool) : (s.setClk v).ahEn = s.ahEn := rfl
@[simp] theorem State.setClk_dEn (s : State) (v : Bool) : (s.setClk v).dEn = s.dEn := rfl
@[simp] theorem State.setClk_clk (s : State) (v : Bool) : (s.setClk v).clk = v := rfl
@[simp] theorem State.setClk_dpDir (s : State) (v : Bool) : (s.setClk v).dpDir = s.dpDir := rfl
@[simp] theorem State.setClk_ram (s : State) (v : Bool) : (s.setClk v).ram = s.ram := rfl
@[simp] theorem State.setClk_rom (s : State) (v : Bool) : (s.setClk v).rom = s.rom := rfl
@[simp] theorem State.setClk_leaseSaved (s : State) (v : Bool) : (s.setClk v).leaseSaved = s.leaseSaved := rfl
@[simp] theorem State.setClk_parser (s : State) (v : Bool) : (s.setClk v).parser = s.parser := rfl
@[simp] theorem State.setClk_cfg (s : State) (v : Bool) : (s.setClk v).cfg = s.cfg := rfl
@[simp] theorem State.setClk_cmd (s : State) (v : Bool) : (s.setClk v).cmd = s.cmd := rfl
@[simp] theorem State.setClk_pos (s : State) (v : Bool) : (s.setClk v).pos = s.pos := rfl
@[simp] theorem State.setClk_resetRan (s : State) (v : Bool) : (s.setClk v).resetRan = s.resetRan := rfl
@[simp] theorem State.setClk_settings (s : State) (v : Bool) : (s.setClk v).settings = s.settings := rfl
@[simp] theorem State.setClk_rx (s : State) (v : Bool) : (s.setClk v).rx = s.rx := rfl
@[simp] theorem State.setClk_samples (s : State) (v : Bool) : (s.setClk v).samples = s.samples := rfl
@[simp] theorem State.setClk_turns (s : State) (v : Bool) : (s.setClk v).turns = s.turns := rfl
@[simp] theorem State.setClk_draws (s : State) (v : Bool) : (s.setClk v).draws = s.draws := rfl
@[simp] theorem State.setClk_pinTrace (s : State) (v : Bool) : (s.setClk v).pinTrace = noteEvents s.pinTrace (pinChange s.clk v (.clk v)) := rfl
@[simp] theorem State.setClk_waits (s : State) (v : Bool) : (s.setClk v).waits = s.waits := rfl
@[simp] theorem State.setClk_sent (s : State) (v : Bool) : (s.setClk v).sent = s.sent := rfl
@[simp] theorem State.setClk_calls (s : State) (v : Bool) : (s.setClk v).calls = s.calls := rfl

/-! ### `raiseDEnClk` -/

@[simp] theorem State.raiseDEnClk_phase (s : State) : (s.raiseDEnClk).phase = s.phase := rfl
@[simp] theorem State.raiseDEnClk_al (s : State) : (s.raiseDEnClk).al = s.al := rfl
@[simp] theorem State.raiseDEnClk_ah (s : State) : (s.raiseDEnClk).ah = s.ah := rfl
@[simp] theorem State.raiseDEnClk_dir (s : State) : (s.raiseDEnClk).dir = s.dir := rfl
@[simp] theorem State.raiseDEnClk_dout (s : State) : (s.raiseDEnClk).dout = s.dout := rfl
@[simp] theorem State.raiseDEnClk_bs (s : State) : (s.raiseDEnClk).bs = s.bs := rfl
@[simp] theorem State.raiseDEnClk_clockEnabled (s : State) : (s.raiseDEnClk).clockEnabled = s.clockEnabled := rfl
@[simp] theorem State.raiseDEnClk_singleStep (s : State) : (s.raiseDEnClk).singleStep = s.singleStep := rfl
@[simp] theorem State.raiseDEnClk_resetAsserted (s : State) : (s.raiseDEnClk).resetAsserted = s.resetAsserted := rfl
@[simp] theorem State.raiseDEnClk_clockPeriodHint (s : State) : (s.raiseDEnClk).clockPeriodHint = s.clockPeriodHint := rfl
@[simp] theorem State.raiseDEnClk_alEn (s : State) : (s.raiseDEnClk).alEn = s.alEn := rfl
@[simp] theorem State.raiseDEnClk_ahEn (s : State) : (s.raiseDEnClk).ahEn = s.ahEn := rfl
@[simp] theorem State.raiseDEnClk_dEn (s : State) : (s.raiseDEnClk).dEn = true := rfl
@[simp] theorem State.raiseDEnClk_clk (s : State) : (s.raiseDEnClk).clk = true := rfl
@[simp] theorem State.raiseDEnClk_dpDir (s : State) : (s.raiseDEnClk).dpDir = s.dpDir := rfl
@[simp] theorem State.raiseDEnClk_ram (s : State) : (s.raiseDEnClk).ram = s.ram := rfl
@[simp] theorem State.raiseDEnClk_rom (s : State) : (s.raiseDEnClk).rom = s.rom := rfl
@[simp] theorem State.raiseDEnClk_leaseSaved (s : State) : (s.raiseDEnClk).leaseSaved = s.leaseSaved := rfl
@[simp] theorem State.raiseDEnClk_parser (s : State) : (s.raiseDEnClk).parser = s.parser := rfl
@[simp] theorem State.raiseDEnClk_cfg (s : State) : (s.raiseDEnClk).cfg = s.cfg := rfl
@[simp] theorem State.raiseDEnClk_cmd (s : State) : (s.raiseDEnClk).cmd = s.cmd := rfl
@[simp] theorem State.raiseDEnClk_pos (s : State) : (s.raiseDEnClk).pos = s.pos := rfl
@[simp] theorem State.raiseDEnClk_resetRan (s : State) : (s.raiseDEnClk).resetRan = s.resetRan := rfl
@[simp] theorem State.raiseDEnClk_settings (s : State) : (s.raiseDEnClk).settings = s.settings := rfl
@[simp] theorem State.raiseDEnClk_rx (s : State) : (s.raiseDEnClk).rx = s.rx := rfl
@[simp] theorem State.raiseDEnClk_samples (s : State) : (s.raiseDEnClk).samples = s.samples := rfl
@[simp] theorem State.raiseDEnClk_turns (s : State) : (s.raiseDEnClk).turns = s.turns := rfl
@[simp] theorem State.raiseDEnClk_draws (s : State) : (s.raiseDEnClk).draws = s.draws := rfl
@[simp] theorem State.raiseDEnClk_pinTrace (s : State) : (s.raiseDEnClk).pinTrace = noteEvents s.pinTrace (pinChange s.dEn true (.dEn true) ++ pinChange s.clk true (.clk true)) := rfl
@[simp] theorem State.raiseDEnClk_waits (s : State) : (s.raiseDEnClk).waits = s.waits := rfl
@[simp] theorem State.raiseDEnClk_sent (s : State) : (s.raiseDEnClk).sent = s.sent := rfl
@[simp] theorem State.raiseDEnClk_calls (s : State) : (s.raiseDEnClk).calls = s.calls := rfl

/-! ### `dpRelease` -/

@[simp] theorem State.dpRelease_phase (s : State) : (s.dpRelease).phase = s.phase := rfl
@[simp] theorem State.dpRelease_al (s : State) : (s.dpRelease).al = s.al := rfl
@[simp] theorem State.dpRelease_ah (s : State) : (s.dpRelease).ah = s.ah := rfl
@[simp] theorem State.dpRelease_dir (s : State) : (s.dpRelease).dir = s.dir := rfl
@[simp] theorem State.dpRelease_dout (s : State) : (s.dpRelease).dout = s.dout := rfl
@[simp] theorem State.dpRelease_bs (s : State) : (s.dpRelease).bs = s.bs := rfl
@[simp] theorem State.dpRelease_clockEnabled (s : State) : (s.dpRelease).clockEnabled = s.clockEnabled := rfl
@[simp] theorem State.dpRelease_singleStep (s : State) : (s.dpRelease).singleStep = s.singleStep := rfl
@[simp] theorem State.dpRelease_resetAsserted (s : State) : (s.dpRelease).resetAsserted = s.resetAsserted := rfl
@[simp] theorem State.dpRelease_clockPeriodHint (s : State) : (s.dpRelease).clockPeriodHint = s.clockPeriodHint := rfl
@[simp] theorem State.dpRelease_alEn (s : State) : (s.dpRelease).alEn = s.alEn := rfl
@[simp] theorem State.dpRelease_ahEn (s : State) : (s.dpRelease).ahEn = s.ahEn := rfl
@[simp] theorem State.dpRelease_dEn (s : State) : (s.dpRelease).dEn = s.dEn := rfl
@[simp] theorem State.dpRelease_clk (s : State) : (s.dpRelease).clk = s.clk := rfl
@[simp] theorem State.dpRelease_dpDir (s : State) : (s.dpRelease).dpDir = false := rfl
@[simp] theorem State.dpRelease_ram (s : State) : (s.dpRelease).ram = s.ram := rfl
@[simp] theorem State.dpRelease_rom (s : State) : (s.dpRelease).rom = s.rom := rfl
@[simp] theorem State.dpRelease_leaseSaved (s : State) : (s.dpRelease).leaseSaved = s.leaseSaved := rfl
@[simp] theorem State.dpRelease_parser (s : State) : (s.dpRelease).parser = s.parser := rfl
@[simp] theorem State.dpRelease_cfg (s : State) : (s.dpRelease).cfg = s.cfg := rfl
@[simp] theorem State.dpRelease_cmd (s : State) : (s.dpRelease).cmd = s.cmd := rfl
@[simp] theorem State.dpRelease_pos (s : State) : (s.dpRelease).pos = s.pos := rfl
@[simp] theorem State.dpRelease_resetRan (s : State) : (s.dpRelease).resetRan = s.resetRan := rfl
@[simp] theorem State.dpRelease_settings (s : State) : (s.dpRelease).settings = s.settings := rfl
@[simp] theorem State.dpRelease_rx (s : State) : (s.dpRelease).rx = s.rx := rfl
@[simp] theorem State.dpRelease_samples (s : State) : (s.dpRelease).samples = s.samples := rfl
@[simp] theorem State.dpRelease_turns (s : State) : (s.dpRelease).turns = s.turns := rfl
@[simp] theorem State.dpRelease_draws (s : State) : (s.dpRelease).draws = s.draws := rfl
@[simp] theorem State.dpRelease_pinTrace (s : State) : (s.dpRelease).pinTrace = noteEvents s.pinTrace (pinChange s.dpDir false .dpOff) := rfl
@[simp] theorem State.dpRelease_waits (s : State) : (s.dpRelease).waits = s.waits := rfl
@[simp] theorem State.dpRelease_sent (s : State) : (s.dpRelease).sent = s.sent := rfl
@[simp] theorem State.dpRelease_calls (s : State) : (s.dpRelease).calls = s.calls := rfl

/-! ### `dpDrive` -/

@[simp] theorem State.dpDrive_phase (s : State) : (s.dpDrive).phase = s.phase := rfl
@[simp] theorem State.dpDrive_al (s : State) : (s.dpDrive).al = s.al := rfl
@[simp] theorem State.dpDrive_ah (s : State) : (s.dpDrive).ah = s.ah := rfl
@[simp] theorem State.dpDrive_dir (s : State) : (s.dpDrive).dir = s.dir := rfl
@[simp] theorem State.dpDrive_dout (s : State) : (s.dpDrive).dout = s.dout := rfl
@[simp] theorem State.dpDrive_bs (s : State) : (s.dpDrive).bs = s.bs := rfl
@[simp] theorem State.dpDrive_clockEnabled (s : State) : (s.dpDrive).clockEnabled = s.clockEnabled := rfl
@[simp] theorem State.dpDrive_singleStep (s : State) : (s.dpDrive).singleStep = s.singleStep := rfl
@[simp] theorem State.dpDrive_resetAsserted (s : State) : (s.dpDrive).resetAsserted = s.resetAsserted := rfl
@[simp] theorem State.dpDrive_clockPeriodHint (s : State) : (s.dpDrive).clockPeriodHint = s.clockPeriodHint := rfl
@[simp] theorem State.dpDrive_alEn (s : State) : (s.dpDrive).alEn = s.alEn := rfl
@[simp] theorem State.dpDrive_ahEn (s : State) : (s.dpDrive).ahEn = s.ahEn := rfl
@[simp] theorem State.dpDrive_dEn (s : State) : (s.dpDrive).dEn = s.dEn := rfl
@[simp] theorem State.dpDrive_clk (s : State) : (s.dpDrive).clk = s.clk := rfl
@[simp] theorem State.dpDrive_dpDir (s : State) : (s.dpDrive).dpDir = true := rfl
@[simp] theorem State.dpDrive_ram (s : State) : (s.dpDrive).ram = s.ram := rfl
@[simp] theorem State.dpDrive_rom (s : State) : (s.dpDrive).rom = s.rom := rfl
@[simp] theorem State.dpDrive_leaseSaved (s : State) : (s.dpDrive).leaseSaved = s.leaseSaved := rfl
@[simp] theorem State.dpDrive_parser (s : State) : (s.dpDrive).parser = s.parser := rfl
@[simp] theorem State.dpDrive_cfg (s : State) : (s.dpDrive).cfg = s.cfg := rfl
@[simp] theorem State.dpDrive_cmd (s : State) : (s.dpDrive).cmd = s.cmd := rfl
@[simp] theorem State.dpDrive_pos (s : State) : (s.dpDrive).pos = s.pos := rfl
@[simp] theorem State.dpDrive_resetRan (s : State) : (s.dpDrive).resetRan = s.resetRan := rfl
@[simp] theorem State.dpDrive_settings (s : State) : (s.dpDrive).settings = s.settings := rfl
@[simp] theorem State.dpDrive_rx (s : State) : (s.dpDrive).rx = s.rx := rfl
@[simp] theorem State.dpDrive_samples (s : State) : (s.dpDrive).samples = s.samples := rfl
@[simp] theorem State.dpDrive_turns (s : State) : (s.dpDrive).turns = s.turns := rfl
@[simp] theorem State.dpDrive_draws (s : State) : (s.dpDrive).draws = s.draws := rfl
@[simp] theorem State.dpDrive_pinTrace (s : State) : (s.dpDrive).pinTrace = noteEvents s.pinTrace (pinChange s.dpDir true (.dpOn s.dout)) := rfl
@[simp] theorem State.dpDrive_waits (s : State) : (s.dpDrive).waits = s.waits := rfl
@[simp] theorem State.dpDrive_sent (s : State) : (s.dpDrive).sent = s.sent := rfl
@[simp] theorem State.dpDrive_calls (s : State) : (s.dpDrive).calls = s.calls := rfl

/-! ### `setResetAsserted` -/

@[simp] theorem State.setResetAsserted_phase (s : State) (v : Bool) : (s.setResetAsserted v).phase = s.phase := rfl
@[simp] theorem State.setResetAsserted_al (s : State) (v : Bool) : (s.setResetAsserted v).al = s.al := rfl
@[simp] theorem State.setResetAsserted_ah (s : State) (v : Bool) : (s.setResetAsserted v).ah = s.ah := rfl
@[simp] theorem State.setResetAsserted_dir (s : State) (v : Bool) : (s.setResetAsserted v).dir = s.dir := rfl
@[simp] theorem State.setResetAsserted_dout (s : State) (v : Bool) : (s.setResetAsserted v).dout = s.dout := rfl
@[simp] theorem State.setResetAsserted_bs (s : State) (v : Bool) : (s.setResetAsserted v).bs = s.bs := rfl
@[simp] theorem State.setResetAsserted_clockEnabled (s : State) (v : Bool) : (s.setResetAsserted v).clockEnabled = s.clockEnabled := rfl
@[simp] theorem State.setResetAsserted_singleStep (s : State) (v : Bool) : (s.setResetAsserted v).singleStep = s.singleStep := rfl
@[simp] theorem State.setResetAsserted_resetAsserted (s : State) (v : Bool) : (s.setResetAsserted v).resetAsserted = v := rfl
@[simp] theorem State.setResetAsserted_clockPeriodHint (s : State) (v : Bool) : (s.setResetAsserted v).clockPeriodHint = s.clockPeriodHint := rfl
@[simp] theorem State.setResetAsserted_alEn (s : State) (v : Bool) : (s.setResetAsserted v).alEn = s.alEn := rfl
@[simp] theorem State.setResetAsserted_ahEn (s : State) (v : Bool) : (s.setResetAsserted v).ahEn = s.ahEn := rfl
@[simp] theorem State.setResetAsserted_dEn (s : State) (v : Bool) : (s.setResetAsserted v).dEn = s.dEn := rfl
@[simp] theorem State.setResetAsserted_clk (s : State) (v : Bool) : (s.setResetAsserted v).clk = s.clk := rfl
@[simp] theorem State.setResetAsserted_dpDir (s : State) (v : Bool) : (s.setResetAsserted v).dpDir = s.dpDir := rfl
@[simp] theorem State.setResetAsserted_ram (s : State) (v : Bool) : (s.setResetAsserted v).ram = s.ram := rfl
@[simp] theorem State.setResetAsserted_rom (s : State) (v : Bool) : (s.setResetAsserted v).rom = s.rom := rfl
@[simp] theorem State.setResetAsserted_leaseSaved (s : State) (v : Bool) : (s.setResetAsserted v).leaseSaved = s.leaseSaved := rfl
@[simp] theorem State.setResetAsserted_parser (s : State) (v : Bool) : (s.setResetAsserted v).parser = s.parser := rfl
@[simp] theorem State.setResetAsserted_cfg (s : State) (v : Bool) : (s.setResetAsserted v).cfg = s.cfg := rfl
@[simp] theorem State.setResetAsserted_cmd (s : State) (v : Bool) : (s.setResetAsserted v).cmd = s.cmd := rfl
@[simp] theorem State.setResetAsserted_pos (s : State) (v : Bool) : (s.setResetAsserted v).pos = s.pos := rfl
@[simp] theorem State.setResetAsserted_resetRan (s : State) (v : Bool) : (s.setResetAsserted v).resetRan = s.resetRan := rfl
@[simp] theorem State.setResetAsserted_settings (s : State) (v : Bool) : (s.setResetAsserted v).settings = s.settings := rfl
@[simp] theorem State.setResetAsserted_rx (s : State) (v : Bool) : (s.setResetAsserted v).rx = s.rx := rfl
@[simp] theorem State.setResetAsserted_samples (s : State) (v : Bool) : (s.setResetAsserted v).samples = s.samples := rfl
@[simp] theorem State.setResetAsserted_turns (s : State) (v : Bool) : (s.setResetAsserted v).turns = s.turns := rfl
@[simp] theorem State.setResetAsserted_draws (s : State) (v : Bool) : (s.setResetAsserted v).draws = s.draws := rfl
@[simp] theorem State.setResetAsserted_pinTrace (s : State) (v : Bool) : (s.setResetAsserted v).pinTrace = noteEvents s.pinTrace (pinChange s.resetAsserted v (.resetOut v)) := rfl
@[simp] theorem State.setResetAsserted_waits (s : State) (v : Bool) : (s.setResetAsserted v).waits = s.waits := rfl
@[simp] theorem State.setResetAsserted_sent (s : State) (v : Bool) : (s.setResetAsserted v).sent = s.sent := rfl
@[simp] theorem State.setResetAsserted_calls (s : State) (v : Bool) : (s.setResetAsserted v).calls = s.calls := rfl

/-! ### `acqLoPins` -/

@[simp] theorem State.acqLoPins_phase (s : State) : (s.acqLoPins).phase = s.phase := rfl
@[simp] theorem State.acqLoPins_al (s : State) : (s.acqLoPins).al = s.al := rfl
@[simp] theorem State.acqLoPins_ah (s : State) : (s.acqLoPins).ah = s.ah := rfl
@[simp] theorem State.acqLoPins_dir (s : State) : (s.acqLoPins).dir = s.dir := rfl
@[simp] theorem State.acqLoPins_dout (s : State) : (s.acqLoPins).dout = s.dout := rfl
@[simp] theorem State.acqLoPins_bs (s : State) : (s.acqLoPins).bs = s.bs := rfl
@[simp] theorem State.acqLoPins_clockEnabled (s : State) : (s.acqLoPins).clockEnabled = s.clockEnabled := rfl
@[simp] theorem State.acqLoPins_singleStep (s : State) : (s.acqLoPins).singleStep = s.singleStep := rfl
@[simp] theorem State.acqLoPins_resetAsserted (s : State) : (s.acqLoPins).resetAsserted = s.resetAsserted := rfl
@[simp] theorem State.acqLoPins_clockPeriodHint (s : State) : (s.acqLoPins).clockPeriodHint = s.clockPeriodHint := rfl
@[simp] theorem State.acqLoPins_alEn (s : State) : (s.acqLoPins).alEn = true := rfl
@[simp] theorem State.acqLoPins_ahEn (s : State) : (s.acqLoPins).ahEn = false := rfl
@[simp] theorem State.acqLoPins_dEn (s : State) : (s.acqLoPins).dEn = false := rfl
@[simp] theorem State.acqLoPins_clk (s : State) : (s.acqLoPins).clk = s.clk := rfl
@[simp] theorem State.acqLoPins_dpDir (s : State) : (s.acqLoPins).dpDir = false := rfl
@[simp] theorem State.acqLoPins_ram (s : State) : (s.acqLoPins).ram = s.ram := rfl
@[simp] theorem State.acqLoPins_rom (s : State) : (s.acqLoPins).rom = s.rom := rfl
@[simp] theorem State.acqLoPins_leaseSaved (s : State) : (s.acqLoPins).leaseSaved = s.leaseSaved := rfl
@[simp] theorem State.acqLoPins_parser (s : State) : (s.acqLoPins).parser = s.parser := rfl
@[simp] theorem State.acqLoPins_cfg (s : State) : (s.acqLoPins).cfg = s.cfg := rfl
@[simp] theorem State.acqLoPins_cmd (s : State) : (s.acqLoPins).cmd = s.cmd := rfl
@[simp] theorem State.acqLoPins_pos (s : State) : (s.acqLoPins).pos = s.pos := rfl
@[simp] theorem State.acqLoPins_resetRan (s : State) : (s.acqLoPins).resetRan = s.resetRan := rfl
@[simp] theorem State.acqLoPins_settings (s : State) : (s.acqLoPins).settings = s.settings := rfl
@[simp] theorem State.acqLoPins_rx (s : State) : (s.acqLoPins).rx = s.rx := rfl
@[simp] theorem State.acqLoPins_samples (s : State) : (s.acqLoPins).samples = s.samples := rfl
@[simp] theorem State.acqLoPins_turns (s : State) : (s.acqLoPins).turns = s.turns := rfl
@[simp] theorem State.acqLoPins_draws (s : State) : (s.acqLoPins).draws = s.draws := rfl
@[simp] theorem State.acqLoPins_waits (s : State) : (s.acqLoPins).waits = s.waits := rfl
@[simp] theorem State.acqLoPins_sent (s : State) : (s.acqLoPins).sent = s.sent := rfl
@[simp] theorem State.acqLoPins_calls (s : State) : (s.acqLoPins).calls = s.calls := rfl

/-! ### `assertReset` -/

@[simp] theorem State.assertReset_phase (s : State) : (s.assertReset).phase = s.phase := rfl
@[simp] theorem State.assertReset_al (s : State) : (s.assertReset).al = s.al := rfl
@[simp] theorem State.assertReset_ah (s : State) : (s.assertReset).ah = s.ah := rfl
@[simp] theorem State.assertReset_dir (s : State) : (s.assertReset).dir = s.dir := rfl
@[simp] theorem State.assertReset_dout (s : State) : (s.assertReset).dout = s.dout := rfl
@[simp] theorem State.assertReset_bs (s : State) : (s.assertReset).bs = s.bs := rfl
@[simp] theorem State.assertReset_clockEnabled (s : State) : (s.assertReset).clockEnabled = s.clockEnabled := rfl
@[simp] theorem State.assertReset_singleStep (s : State) : (s.assertReset).singleStep = s.singleStep := rfl
@[simp] theorem State.assertReset_resetAsserted (s : State) : (s.assertReset).resetAsserted = true := rfl
@[simp] theorem State.assertReset_clockPeriodHint (s : State) : (s.assertReset).clockPeriodHint = s.clockPeriodHint := rfl
@[simp] theorem State.assertReset_alEn (s : State) : (s.assertReset).alEn = s.alEn := rfl
@[simp] theorem State.assertReset_ahEn (s : State) : (s.assertReset).ahEn = s.ahEn := rfl
@[simp] theorem State.assertReset_dEn (s : State) : (s.assertReset).dEn = s.dEn := rfl
@[simp] theorem State.assertReset_clk (s : State) : (s.assertReset).clk = s.clk := rfl
@[simp] theorem State.assertReset_dpDir (s : State) : (s.assertReset).dpDir = s.dpDir := rfl
@[simp] theorem State.assertReset_ram (s : State) : (s.assertReset).ram = s.ram := rfl
@[simp] theorem State.assertReset_rom (s : State) : (s.assertReset).rom = s.rom := rfl
@[simp] theorem State.assertReset_leaseSaved (s : State) : (s.assertReset).leaseSaved = s.leaseSaved := rfl
@[simp] theorem State.assertReset_parser (s : State) : (s.assertReset).parser = s.parser := rfl
@[simp] theorem State.assertReset_cfg (s : State) : (s.assertReset).cfg = s.cfg := rfl
@[simp] theorem State.assertReset_cmd (s : State) : (s.assertReset).cmd = s.cmd := rfl
@[simp] theorem State.assertReset_pos (s : State) : (s.assertReset).pos = s.pos := rfl
@[simp] theorem State.assertReset_resetRan (s : State) : (s.assertReset).resetRan = true := rfl
@[simp] theorem State.assertReset_settings (s : State) : (s.assertReset).settings = s.settings := rfl
@[simp] theorem State.assertReset_rx (s : State) : (s.assertReset).rx = s.rx := rfl
@[simp] theorem State.assertReset_samples (s : State) : (s.assertReset).samples = s.samples := rfl
@[simp] theorem State.assertReset_turns (s : State) : (s.assertReset).turns = s.turns := rfl
@[simp] theorem State.assertReset_draws (s : State) : (s.assertReset).draws = s.draws := rfl
@[simp] theorem State.assertReset_pinTrace (s : State) : (s.assertReset).pinTrace = noteEvents s.pinTrace (pinChange s.resetAsserted true (.resetOut true)) := rfl
@[simp] theorem State.assertReset_waits (s : State) : (s.assertReset).waits = s.waits := rfl
@[simp] theorem State.assertReset_sent (s : State) : (s.assertReset).sent = s.sent := rfl
@[simp] theorem State.assertReset_calls (s : State) : (s.assertReset).calls = s.calls := rfl

/-! ### `wait` -/

@[simp] theorem State.wait_phase (s : State) (d : Nat) : (s.wait d).phase = s.phase := rfl
@[simp] theorem State.wait_al (s : State) (d : Nat) : (s.wait d).al = s.al := rfl
@[simp] theorem State.wait_ah (s : State) (d : Nat) : (s.wait d).ah = s.ah := rfl
@[simp] theorem State.wait_dir (s : State) (d : Nat) : (s.wait d).dir = s.dir := rfl
@[simp] theorem State.wait_dout (s : State) (d : Nat) : (s.wait d).dout = s.dout := rfl
@[simp] theorem State.wait_bs (s : State) (d : Nat) : (s.wait d).bs = s.bs := rfl
@[simp] theorem State.wait_clockEnabled (s : State) (d : Nat) : (s.wait d).clockEnabled = s.clockEnabled := rfl
@[simp] theorem State.wait_singleStep (s : State) (d : Nat) : (s.wait d).singleStep = s.singleStep := rfl
@[simp] theorem State.wait_resetAsserted (s : State) (d : Nat) : (s.wait d).resetAsserted = s.resetAsserted := rfl
@[simp] theorem State.wait_clockPeriodHint (s : State) (d : Nat) : (s.wait d).clockPeriodHint = s.clockPeriodHint := rfl
@[simp] theorem State.wait_alEn (s : State) (d : Nat) : (s.wait d).alEn = s.alEn := rfl
@[simp] theorem State.wait_ahEn (s : State) (d : Nat) : (s.wait d).ahEn = s.ahEn := rfl
@[simp] theorem State.wait_dEn (s : State) (d : Nat) : (s.wait d).dEn = s.dEn := rfl
@[simp] theorem State.wait_clk (s : State) (d : Nat) : (s.wait d).clk = s.clk := rfl
@[simp] theorem State.wait_dpDir (s : State) (d : Nat) : (s.wait d).dpDir = s.dpDir := rfl
@[simp] theorem State.wait_ram (s : State) (d : Nat) : (s.wait d).ram = s.ram := rfl
@[simp] theorem State.wait_rom (s : State) (d : Nat) : (s.wait d).rom = s.rom := rfl
@[simp] theorem State.wait_leaseSaved (s : State) (d : Nat) : (s.wait d).leaseSaved = s.leaseSaved := rfl
@[simp] theorem State.wait_parser (s : State) (d : Nat) : (s.wait d).parser = s.parser := rfl
@[simp] theorem State.wait_cfg (s : State) (d : Nat) : (s.wait d).cfg = s.cfg := rfl
@[simp] theorem State.wait_cmd (s : State) (d : Nat) : (s.wait d).cmd = s.cmd := rfl
@[simp] theorem State.wait_pos (s : State) (d : Nat) : (s.wait d).pos = s.pos := rfl
@[simp] theorem State.wait_resetRan (s : State) (d : Nat) : (s.wait d).resetRan = s.resetRan := rfl
@[simp] theorem State.wait_settings (s : State) (d : Nat) : (s.wait d).settings = s.settings := rfl
@[simp] theorem State.wait_rx (s : State) (d : Nat) : (s.wait d).rx = s.rx := rfl
@[simp] theorem State.wait_samples (s : State) (d : Nat) : (s.wait d).samples = s.samples := rfl
@[simp] theorem State.wait_turns (s : State) (d : Nat) : (s.wait d).turns = s.turns := rfl
@[simp] theorem State.wait_draws (s : State) (d : Nat) : (s.wait d).draws = s.draws := rfl
@[simp] theorem State.wait_pinTrace (s : State) (d : Nat) : (s.wait d).pinTrace = s.pinTrace := rfl
@[simp] theorem State.wait_waits (s : State) (d : Nat) : (s.wait d).waits = s.waits ++ [⟨s.pinTrace.length, d⟩] := rfl
@[simp] theorem State.wait_sent (s : State) (d : Nat) : (s.wait d).sent = s.sent := rfl
@[simp] theorem State.wait_calls (s : State) (d : Nat) : (s.wait d).calls = s.calls := rfl

/-! ### `drawSample` -/

@[simp] theorem State.drawSample_phase (s : State) : (s.drawSample).phase = s.phase := rfl
@[simp] theorem State.drawSample_al (s : State) : (s.drawSample).al = s.al := rfl
@[simp] theorem State.drawSample_ah (s : State) : (s.drawSample).ah = s.ah := rfl
@[simp] theorem State.drawSample_dir (s : State) : (s.drawSample).dir = s.dir := rfl
@[simp] theorem State.drawSample_dout (s : State) : (s.drawSample).dout = s.dout := rfl
@[simp] theorem State.drawSample_bs (s : State) : (s.drawSample).bs = s.bs := rfl
@[simp] theorem State.drawSample_clockEnabled (s : State) : (s.drawSample).clockEnabled = s.clockEnabled := rfl
@[simp] theorem State.drawSample_singleStep (s : State) : (s.drawSample).singleStep = s.singleStep := rfl
@[simp] theorem State.drawSample_resetAsserted (s : State) : (s.drawSample).resetAsserted = s.resetAsserted := rfl
@[simp] theorem State.drawSample_clockPeriodHint (s : State) : (s.drawSample).clockPeriodHint = s.clockPeriodHint := rfl
@[simp] theorem State.drawSample_alEn (s : State) : (s.drawSample).alEn = s.alEn := rfl
@[simp] theorem State.drawSample_ahEn (s : State) : (s.drawSample).ahEn = s.ahEn := rfl
@[simp] theorem State.drawSample_dEn (s : State) : (s.drawSample).dEn = s.dEn := rfl
@[simp] theorem State.drawSample_clk (s : State) : (s.drawSample).clk = s.clk := rfl
@[simp] theorem State.drawSample_dpDir (s : State) : (s.drawSample).dpDir = s.dpDir := rfl
@[simp] theorem State.drawSample_ram (s : State) : (s.drawSample).ram = s.ram := rfl
@[simp] theorem State.drawSample_rom (s : State) : (s.drawSample).rom = s.rom := rfl
@[simp] theorem State.drawSample_leaseSaved (s : State) : (s.drawSample).leaseSaved = s.leaseSaved := rfl
@[simp] theorem State.drawSample_parser (s : State) : (s.drawSample).parser = s.parser := rfl
@[simp] theorem State.drawSample_cfg (s : State) : (s.drawSample).cfg = s.cfg := rfl
@[simp] theorem State.drawSample_cmd (s : State) : (s.drawSample).cmd = s.cmd := rfl
@[simp] theorem State.drawSample_pos (s : State) : (s.drawSample).pos = s.pos := rfl
@[simp] theorem State.drawSample_resetRan (s : State) : (s.drawSample).resetRan = s.resetRan := rfl
@[simp] theorem State.drawSample_settings (s : State) : (s.drawSample).settings = s.settings := rfl
@[simp] theorem State.drawSample_rx (s : State) : (s.drawSample).rx = s.rx := rfl
@[simp] theorem State.drawSample_samples (s : State) : (s.drawSample).samples = s.samples.tail := rfl
@[simp] theorem State.drawSample_turns (s : State) : (s.drawSample).turns = s.turns := rfl
@[simp] theorem State.drawSample_draws (s : State) : (s.drawSample).draws = drawsAfter s.samples s.draws := rfl
@[simp] theorem State.drawSample_pinTrace (s : State) : (s.drawSample).pinTrace = s.pinTrace := rfl
@[simp] theorem State.drawSample_waits (s : State) : (s.drawSample).waits = s.waits := rfl
@[simp] theorem State.drawSample_sent (s : State) : (s.drawSample).sent = s.sent := rfl
@[simp] theorem State.drawSample_calls (s : State) : (s.drawSample).calls = s.calls := rfl

/-! ### `popTurn` -/

@[simp] theorem State.popTurn_phase (s : State) : (s.popTurn).phase = s.phase := rfl
@[simp] theorem State.popTurn_al (s : State) : (s.popTurn).al = s.al := rfl
@[simp] theorem State.popTurn_ah (s : State) : (s.popTurn).ah = s.ah := rfl
@[simp] theorem State.popTurn_dir (s : State) : (s.popTurn).dir = s.dir := rfl
@[simp] theorem State.popTurn_dout (s : State) : (s.popTurn).dout = s.dout := rfl
@[simp] theorem State.popTurn_bs (s : State) : (s.popTurn).bs = s.bs := rfl
@[simp] theorem State.popTurn_clockEnabled (s : State) : (s.popTurn).clockEnabled = s.clockEnabled := rfl
@[simp] theorem State.popTurn_singleStep (s : State) : (s.popTurn).singleStep = s.singleStep := rfl
@[simp] theorem State.popTurn_resetAsserted (s : State) : (s.popTurn).resetAsserted = s.resetAsserted := rfl
@[simp] theorem State.popTurn_clockPeriodHint (s : State) : (s.popTurn).clockPeriodHint = s.clockPeriodHint := rfl
@[simp] theorem State.popTurn_alEn (s : State) : (s.popTurn).alEn = s.alEn := rfl
@[simp] theorem State.popTurn_ahEn (s : State) : (s.popTurn).ahEn = s.ahEn := rfl
@[simp] theorem State.popTurn_dEn (s : State) : (s.popTurn).dEn = s.dEn := rfl
@[simp] theorem State.popTurn_clk (s : State) : (s.popTurn).clk = s.clk := rfl
@[simp] theorem State.popTurn_dpDir (s : State) : (s.popTurn).dpDir = s.dpDir := rfl
@[simp] theorem State.popTurn_ram (s : State) : (s.popTurn).ram = s.ram := rfl
@[simp] theorem State.popTurn_rom (s : State) : (s.popTurn).rom = s.rom := rfl
@[simp] theorem State.popTurn_leaseSaved (s : State) : (s.popTurn).leaseSaved = s.leaseSaved := rfl
@[simp] theorem State.popTurn_parser (s : State) : (s.popTurn).parser = s.parser := rfl
@[simp] theorem State.popTurn_cfg (s : State) : (s.popTurn).cfg = s.cfg := rfl
@[simp] theorem State.popTurn_cmd (s : State) : (s.popTurn).cmd = s.cmd := rfl
@[simp] theorem State.popTurn_pos (s : State) : (s.popTurn).pos = s.pos := rfl
@[simp] theorem State.popTurn_resetRan (s : State) : (s.popTurn).resetRan = s.resetRan := rfl
@[simp] theorem State.popTurn_settings (s : State) : (s.popTurn).settings = s.settings := rfl
@[simp] theorem State.popTurn_rx (s : State) : (s.popTurn).rx = s.rx := rfl
@[simp] theorem State.popTurn_samples (s : State) : (s.popTurn).samples = s.samples := rfl
@[simp] theorem State.popTurn_turns (s : State) : (s.popTurn).turns = s.turns.tail := rfl
@[simp] theorem State.popTurn_draws (s : State) : (s.popTurn).draws = drawsAfter s.turns s.draws := rfl
@[simp] theorem State.popTurn_pinTrace (s : State) : (s.popTurn).pinTrace = s.pinTrace := rfl
@[simp] theorem State.popTurn_waits (s : State) : (s.popTurn).waits = s.waits := rfl
@[simp] theorem State.popTurn_sent (s : State) : (s.popTurn).sent = s.sent := rfl
@[simp] theorem State.popTurn_calls (s : State) : (s.popTurn).calls = s.calls := rfl

/-! ### `respond` -/

@[simp] theorem State.respond_phase (s : State) (f : List Byte) : (s.respond f).phase = s.phase := rfl
@[simp] theorem State.respond_al (s : State) (f : List Byte) : (s.respond f).al = s.al := rfl
@[simp] theorem State.respond_ah (s : State) (f : List Byte) : (s.respond f).ah = s.ah := rfl
@[simp] theorem State.respond_dir (s : State) (f : List Byte) : (s.respond f).dir = s.dir := rfl
@[simp] theorem State.respond_dout (s : State) (f : List Byte) : (s.respond f).dout = s.dout := rfl
@[simp] theorem State.respond_bs (s : State) (f : List Byte) : (s.respond f).bs = s.bs := rfl
@[simp] theorem State.respond_clockEnabled (s : State) (f : List Byte) : (s.respond f).clockEnabled = s.clockEnabled := rfl
@[simp] theorem State.respond_singleStep (s : State) (f : List Byte) : (s.respond f).singleStep = s.singleStep := rfl
@[simp] theorem State.respond_resetAsserted (s : State) (f : List Byte) : (s.respond f).resetAsserted = s.resetAsserted := rfl
@[simp] theorem State.respond_clockPeriodHint (s : State) (f : List Byte) : (s.respond f).clockPeriodHint = s.clockPeriodHint := rfl
@[simp] theorem State.respond_alEn (s : State) (f : List Byte) : (s.respond f).alEn = s.alEn := rfl
@[simp] theorem State.respond_ahEn (s : State) (f : List Byte) : (s.respond f).ahEn = s.ahEn := rfl
@[simp] theorem State.respond_dEn (s : State) (f : List Byte) : (s.respond f).dEn = s.dEn := rfl
@[simp] theorem State.respond_clk (s : State) (f : List Byte) : (s.respond f).clk = s.clk := rfl
@[simp] theorem State.respond_dpDir (s : State) (f : List Byte) : (s.respond f).dpDir = s.dpDir := rfl
@[simp] theorem State.respond_ram (s : State) (f : List Byte) : (s.respond f).ram = s.ram := rfl
@[simp] theorem State.respond_rom (s : State) (f : List Byte) : (s.respond f).rom = s.rom := rfl
@[simp] theorem State.respond_leaseSaved (s : State) (f : List Byte) : (s.respond f).leaseSaved = s.leaseSaved := rfl
@[simp] theorem State.respond_parser (s : State) (f : List Byte) : (s.respond f).parser = s.parser := rfl
@[simp] theorem State.respond_cfg (s : State) (f : List Byte) : (s.respond f).cfg = s.cfg := rfl
@[simp] theorem State.respond_cmd (s : State) (f : List Byte) : (s.respond f).cmd = s.cmd := rfl
@[simp] theorem State.respond_pos (s : State) (f : List Byte) : (s.respond f).pos = s.pos := rfl
@[simp] theorem State.respond_resetRan (s : State) (f : List Byte) : (s.respond f).resetRan = s.resetRan := rfl
@[simp] theorem State.respond_settings (s : State) (f : List Byte) : (s.respond f).settings = s.settings := rfl
@[simp] theorem State.respond_rx (s : State) (f : List Byte) : (s.respond f).rx = s.rx := rfl
@[simp] theorem State.respond_samples (s : State) (f : List Byte) : (s.respond f).samples = s.samples := rfl
@[simp] theorem State.respond_turns (s : State) (f : List Byte) : (s.respond f).turns = s.turns := rfl
@[simp] theorem State.respond_draws (s : State) (f : List Byte) : (s.respond f).draws = s.draws := rfl
@[simp] theorem State.respond_pinTrace (s : State) (f : List Byte) : (s.respond f).pinTrace = s.pinTrace := rfl
@[simp] theorem State.respond_waits (s : State) (f : List Byte) : (s.respond f).waits = s.waits := rfl
@[simp] theorem State.respond_sent (s : State) (f : List Byte) : (s.respond f).sent = s.sent ++ [f] := rfl
@[simp] theorem State.respond_calls (s : State) (f : List Byte) : (s.respond f).calls = s.calls := rfl

/-! ### `finish` -/

@[simp] theorem State.finish_phase (s : State) : (s.finish).phase = s.phase := rfl
@[simp] theorem State.finish_al (s : State) : (s.finish).al = s.al := rfl
@[simp] theorem State.finish_ah (s : State) : (s.finish).ah = s.ah := rfl
@[simp] theorem State.finish_dir (s : State) : (s.finish).dir = s.dir := rfl
@[simp] theorem State.finish_dout (s : State) : (s.finish).dout = s.dout := rfl
@[simp] theorem State.finish_bs (s : State) : (s.finish).bs = s.bs := rfl
@[simp] theorem State.finish_clockEnabled (s : State) : (s.finish).clockEnabled = s.clockEnabled := rfl
@[simp] theorem State.finish_singleStep (s : State) : (s.finish).singleStep = s.singleStep := rfl
@[simp] theorem State.finish_resetAsserted (s : State) : (s.finish).resetAsserted = s.resetAsserted := rfl
@[simp] theorem State.finish_clockPeriodHint (s : State) : (s.finish).clockPeriodHint = s.clockPeriodHint := rfl
@[simp] theorem State.finish_alEn (s : State) : (s.finish).alEn = s.alEn := rfl
@[simp] theorem State.finish_ahEn (s : State) : (s.finish).ahEn = s.ahEn := rfl
@[simp] theorem State.finish_dEn (s : State) : (s.finish).dEn = s.dEn := rfl
@[simp] theorem State.finish_clk (s : State) : (s.finish).clk = s.clk := rfl
@[simp] theorem State.finish_dpDir (s : State) : (s.finish).dpDir = s.dpDir := rfl
@[simp] theorem State.finish_ram (s : State) : (s.finish).ram = s.ram := rfl
@[simp] theorem State.finish_rom (s : State) : (s.finish).rom = s.rom := rfl
@[simp] theorem State.finish_leaseSaved (s : State) : (s.finish).leaseSaved = s.leaseSaved := rfl
@[simp] theorem State.finish_parser (s : State) : (s.finish).parser = s.parser.clear := rfl
@[simp] theorem State.finish_cfg (s : State) : (s.finish).cfg = s.cfg := rfl
@[simp] theorem State.finish_cmd (s : State) : (s.finish).cmd = none := rfl
@[simp] theorem State.finish_pos (s : State) : (s.finish).pos = .start := rfl
@[simp] theorem State.finish_resetRan (s : State) : (s.finish).resetRan = s.resetRan := rfl
@[simp] theorem State.finish_settings (s : State) : (s.finish).settings = s.settings := rfl
@[simp] theorem State.finish_rx (s : State) : (s.finish).rx = s.rx := rfl
@[simp] theorem State.finish_samples (s : State) : (s.finish).samples = s.samples := rfl
@[simp] theorem State.finish_turns (s : State) : (s.finish).turns = s.turns := rfl
@[simp] theorem State.finish_draws (s : State) : (s.finish).draws = s.draws := rfl
@[simp] theorem State.finish_pinTrace (s : State) : (s.finish).pinTrace = s.pinTrace := rfl
@[simp] theorem State.finish_waits (s : State) : (s.finish).waits = s.waits := rfl
@[simp] theorem State.finish_sent (s : State) : (s.finish).sent = s.sent := rfl
@[simp] theorem State.finish_calls (s : State) : (s.finish).calls = s.calls := rfl

/-! ### `goTo` -/

@[simp] theorem State.goTo_phase (s : State) (i : Instr) (q : Pos) : (s.goTo i q).phase = s.phase := rfl
@[simp] theorem State.goTo_al (s : State) (i : Instr) (q : Pos) : (s.goTo i q).al = s.al := rfl
@[simp] theorem State.goTo_ah (s : State) (i : Instr) (q : Pos) : (s.goTo i q).ah = s.ah := rfl
@[simp] theorem State.goTo_dir (s : State) (i : Instr) (q : Pos) : (s.goTo i q).dir = s.dir := rfl
@[simp] theorem State.goTo_dout (s : State) (i : Instr) (q : Pos) : (s.goTo i q).dout = s.dout := rfl
@[simp] theorem State.goTo_bs (s : State) (i : Instr) (q : Pos) : (s.goTo i q).bs = s.bs := rfl
@[simp] theorem State.goTo_clockEnabled (s : State) (i : Instr) (q : Pos) : (s.goTo i q).clockEnabled = s.clockEnabled := rfl
@[simp] theorem State.goTo_singleStep (s : State) (i : Instr) (q : Pos) : (s.goTo i q).singleStep = s.singleStep := rfl
@[simp] theorem State.goTo_resetAsserted (s : State) (i : Instr) (q : Pos) : (s.goTo i q).resetAsserted = s.resetAsserted := rfl
@[simp] theorem State.goTo_clockPeriodHint (s : State) (i : Instr) (q : Pos) : (s.goTo i q).clockPeriodHint = s.clockPeriodHint := rfl
@[simp] theorem State.goTo_alEn (s : State) (i : Instr) (q : Pos) : (s.goTo i q).alEn = s.alEn := rfl
@[simp] theorem State.goTo_ahEn (s : State) (i : Instr) (q : Pos) : (s.goTo i q).ahEn = s.ahEn := rfl
@[simp] theorem State.goTo_dEn (s : State) (i : Instr) (q : Pos) : (s.goTo i q).dEn = s.dEn := rfl
@[simp] theorem State.goTo_clk (s : State) (i : Instr) (q : Pos) : (s.goTo i q).clk = s.clk := rfl
@[simp] theorem State.goTo_dpDir (s : State) (i : Instr) (q : Pos) : (s.goTo i q).dpDir = s.dpDir := rfl
@[simp] theorem State.goTo_ram (s : State) (i : Instr) (q : Pos) : (s.goTo i q).ram = s.ram := rfl
@[simp] theorem State.goTo_rom (s : State) (i : Instr) (q : Pos) : (s.goTo i q).rom = s.rom := rfl
@[simp] theorem State.goTo_leaseSaved (s : State) (i : Instr) (q : Pos) : (s.goTo i q).leaseSaved = s.leaseSaved := rfl
@[simp] theorem State.goTo_parser (s : State) (i : Instr) (q : Pos) : (s.goTo i q).parser = s.parser := rfl
@[simp] theorem State.goTo_cfg (s : State) (i : Instr) (q : Pos) : (s.goTo i q).cfg = s.cfg := rfl
@[simp] theorem State.goTo_cmd (s : State) (i : Instr) (q : Pos) : (s.goTo i q).cmd = some i := rfl
@[simp] theorem State.goTo_pos (s : State) (i : Instr) (q : Pos) : (s.goTo i q).pos = q := rfl
@[simp] theorem State.goTo_resetRan (s : State) (i : Instr) (q : Pos) : (s.goTo i q).resetRan = s.resetRan := rfl
@[simp] theorem State.goTo_settings (s : State) (i : Instr) (q : Pos) : (s.goTo i q).settings = s.settings := rfl
@[simp] theorem State.goTo_rx (s : State) (i : Instr) (q : Pos) : (s.goTo i q).rx = s.rx := rfl
@[simp] theorem State.goTo_samples (s : State) (i : Instr) (q : Pos) : (s.goTo i q).samples = s.samples := rfl
@[simp] theorem State.goTo_turns (s : State) (i : Instr) (q : Pos) : (s.goTo i q).turns = s.turns := rfl
@[simp] theorem State.goTo_draws (s : State) (i : Instr) (q : Pos) : (s.goTo i q).draws = s.draws := rfl
@[simp] theorem State.goTo_pinTrace (s : State) (i : Instr) (q : Pos) : (s.goTo i q).pinTrace = s.pinTrace := rfl
@[simp] theorem State.goTo_waits (s : State) (i : Instr) (q : Pos) : (s.goTo i q).waits = s.waits := rfl
@[simp] theorem State.goTo_sent (s : State) (i : Instr) (q : Pos) : (s.goTo i q).sent = s.sent := rfl
@[simp] theorem State.goTo_calls (s : State) (i : Instr) (q : Pos) : (s.goTo i q).calls = s.calls := rfl

/-! ### `sendError` -/

@[simp] theorem State.sendError_phase (s : State) (c : Int) : (s.sendError c).phase = s.phase := rfl
@[simp] theorem State.sendError_al (s : State) (c : Int) : (s.sendError c).al = s.al := rfl
@[simp] theorem State.sendError_ah (s : State) (c : Int) : (s.sendError c).ah = s.ah := rfl
@[simp] theorem State.sendError_dir (s : State) (c : Int) : (s.sendError c).dir = s.dir := rfl
@[simp] theorem State.sendError_dout (s : State) (c : Int) : (s.sendError c).dout = s.dout := rfl
@[simp] theorem State.sendError_bs (s : State) (c : Int) : (s.sendError c).bs = s.bs := rfl
@[simp] theorem State.sendError_clockEnabled (s : State) (c : Int) : (s.sendError c).clockEnabled = s.clockEnabled := rfl
@[simp] theorem State.sendError_singleStep (s : State) (c : Int) : (s.sendError c).singleStep = s.singleStep := rfl
@[simp] theorem State.sendError_resetAsserted (s : State) (c : Int) : (s.sendError c).resetAsserted = s.resetAsserted := rfl
@[simp] theorem State.sendError_clockPeriodHint (s : State) (c : Int) : (s.sendError c).clockPeriodHint = s.clockPeriodHint := rfl
@[simp] theorem State.sendError_alEn (s : State) (c : Int) : (s.sendError c).alEn = s.alEn := rfl
@[simp] theorem State.sendError_ahEn (s : State) (c : Int) : (s.sendError c).ahEn = s.ahEn := rfl
@[simp] theorem State.sendError_dEn (s : State) (c : Int) : (s.sendError c).dEn = s.dEn := rfl
@[simp] theorem State.sendError_clk (s : State) (c : Int) : (s.sendError c).clk = s.clk := rfl
@[simp] theorem State.sendError_dpDir (s : State) (c : Int) : (s.sendError c).dpDir = s.dpDir := rfl
@[simp] theorem State.sendError_ram (s : State) (c : Int) : (s.sendError c).ram = s.ram := rfl
@[simp] theorem State.sendError_rom (s : State) (c : Int) : (s.sendError c).rom = s.rom := rfl
@[simp] theorem State.sendError_leaseSaved (s : State) (c : Int) : (s.sendError c).leaseSaved = s.leaseSaved := rfl
@[simp] theorem State.sendError_parser (s : State) (c : Int) : (s.sendError c).parser = s.parser := rfl
@[simp] theorem State.sendError_cfg (s : State) (c : Int) : (s.sendError c).cfg = s.cfg := rfl
@[simp] theorem State.sendError_cmd (s : State) (c : Int) : (s.sendError c).cmd = s.cmd := rfl
@[simp] theorem State.sendError_pos (s : State) (c : Int) : (s.sendError c).pos = s.pos := rfl
@[simp] theorem State.sendError_resetRan (s : State) (c : Int) : (s.sendError c).resetRan = s.resetRan := rfl
@[simp] theorem State.sendError_settings (s : State) (c : Int) : (s.sendError c).settings = s.settings := rfl
@[simp] theorem State.sendError_rx (s : State) (c : Int) : (s.sendError c).rx = s.rx := rfl
@[simp] theorem State.sendError_samples (s : State) (c : Int) : (s.sendError c).samples = s.samples := rfl
@[simp] theorem State.sendError_turns (s : State) (c : Int) : (s.sendError c).turns = s.turns := rfl
@[simp] theorem State.sendError_draws (s : State) (c : Int) : (s.sendError c).draws = s.draws := rfl
@[simp] theorem State.sendError_pinTrace (s : State) (c : Int) : (s.sendError c).pinTrace = s.pinTrace := rfl
@[simp] theorem State.sendError_waits (s : State) (c : Int) : (s.sendError c).waits = s.waits := rfl
@[simp] theorem State.sendError_sent (s : State) (c : Int) : (s.sendError c).sent = s.sent ++ [errorText c] := rfl
@[simp] theorem State.sendError_calls (s : State) (c : Int) : (s.sendError c).calls = s.calls := rfl

/-! ### `raise` -/

@[simp] theorem State.raise_phase (s : State) (c : Cause) : (s.raise c).phase = s.phase := rfl
@[simp] theorem State.raise_al (s : State) (c : Cause) : (s.raise c).al = s.al := rfl
@[simp] theorem State.raise_ah (s : State) (c : Cause) : (s.raise c).ah = s.ah := rfl
@[simp] theorem State.raise_dir (s : State) (c : Cause) : (s.raise c).dir = s.dir := rfl
@[simp] theorem State.raise_dout (s : State) (c : Cause) : (s.raise c).dout = s.dout := rfl
@[simp] theorem State.raise_bs (s : State) (c : Cause) : (s.raise c).bs = s.bs := rfl
@[simp] theorem State.raise_clockEnabled (s : State) (c : Cause) : (s.raise c).clockEnabled = s.clockEnabled := rfl
@[simp] theorem State.raise_singleStep (s : State) (c : Cause) : (s.raise c).singleStep = s.singleStep := rfl
@[simp] theorem State.raise_resetAsserted (s : State) (c : Cause) : (s.raise c).resetAsserted = s.resetAsserted := rfl
@[simp] theorem State.raise_clockPeriodHint (s : State) (c : Cause) : (s.raise c).clockPeriodHint = s.clockPeriodHint := rfl
@[simp] theorem State.raise_alEn (s : State) (c : Cause) : (s.raise c).alEn = s.alEn := rfl
@[simp] theorem State.raise_ahEn (s : State) (c : Cause) : (s.raise c).ahEn = s.ahEn := rfl
@[simp] theorem State.raise_dEn (s : State) (c : Cause) : (s.raise c).dEn = s.dEn := rfl
@[simp] theorem State.raise_clk (s : State) (c : Cause) : (s.raise c).clk = s.clk := rfl
@[simp] theorem State.raise_dpDir (s : State) (c : Cause) : (s.raise c).dpDir = s.dpDir := rfl
@[simp] theorem State.raise_ram (s : State) (c : Cause) : (s.raise c).ram = s.ram := rfl
@[simp] theorem State.raise_rom (s : State) (c : Cause) : (s.raise c).rom = s.rom := rfl
@[simp] theorem State.raise_leaseSaved (s : State) (c : Cause) : (s.raise c).leaseSaved = s.leaseSaved := rfl
@[simp] theorem State.raise_parser (s : State) (c : Cause) : (s.raise c).parser = s.parser.clear := rfl
@[simp] theorem State.raise_cfg (s : State) (c : Cause) : (s.raise c).cfg = s.cfg := rfl
@[simp] theorem State.raise_cmd (s : State) (c : Cause) : (s.raise c).cmd = none := rfl
@[simp] theorem State.raise_pos (s : State) (c : Cause) : (s.raise c).pos = .start := rfl
@[simp] theorem State.raise_resetRan (s : State) (c : Cause) : (s.raise c).resetRan = s.resetRan := rfl
@[simp] theorem State.raise_settings (s : State) (c : Cause) : (s.raise c).settings = s.settings := rfl
@[simp] theorem State.raise_rx (s : State) (c : Cause) : (s.raise c).rx = s.rx := rfl
@[simp] theorem State.raise_samples (s : State) (c : Cause) : (s.raise c).samples = s.samples := rfl
@[simp] theorem State.raise_turns (s : State) (c : Cause) : (s.raise c).turns = s.turns := rfl
@[simp] theorem State.raise_draws (s : State) (c : Cause) : (s.raise c).draws = s.draws := rfl
@[simp] theorem State.raise_pinTrace (s : State) (c : Cause) : (s.raise c).pinTrace = s.pinTrace := rfl
@[simp] theorem State.raise_waits (s : State) (c : Cause) : (s.raise c).waits = s.waits := rfl
@[simp] theorem State.raise_sent (s : State) (c : Cause) : (s.raise c).sent = s.sent ++ [errorText (s.cfg.code c)] := rfl
@[simp] theorem State.raise_calls (s : State) (c : Cause) : (s.raise c).calls = s.calls := rfl

/-! ### `leaseSave` -/

@[simp] theorem State.leaseSave_phase (s : State) (i : Instr) : (s.leaseSave i).phase = s.phase := rfl
@[simp] theorem State.leaseSave_al (s : State) (i : Instr) : (s.leaseSave i).al = s.al := rfl
@[simp] theorem State.leaseSave_ah (s : State) (i : Instr) : (s.leaseSave i).ah = s.ah := rfl
@[simp] theorem State.leaseSave_dir (s : State) (i : Instr) : (s.leaseSave i).dir = s.dir := rfl
@[simp] theorem State.leaseSave_dout (s : State) (i : Instr) : (s.leaseSave i).dout = s.dout := rfl
@[simp] theorem State.leaseSave_bs (s : State) (i : Instr) : (s.leaseSave i).bs = s.bs := rfl
@[simp] theorem State.leaseSave_clockEnabled (s : State) (i : Instr) : (s.leaseSave i).clockEnabled = s.clockEnabled := rfl
@[simp] theorem State.leaseSave_singleStep (s : State) (i : Instr) : (s.leaseSave i).singleStep = s.singleStep := rfl
@[simp] theorem State.leaseSave_resetAsserted (s : State) (i : Instr) : (s.leaseSave i).resetAsserted = s.resetAsserted := rfl
@[simp] theorem State.leaseSave_clockPeriodHint (s : State) (i : Instr) : (s.leaseSave i).clockPeriodHint = s.clockPeriodHint := rfl
@[simp] theorem State.leaseSave_alEn (s : State) (i : Instr) : (s.leaseSave i).alEn = s.alEn := rfl
@[simp] theorem State.leaseSave_ahEn (s : State) (i : Instr) : (s.leaseSave i).ahEn = s.ahEn := rfl
@[simp] theorem State.leaseSave_dEn (s : State) (i : Instr) : (s.leaseSave i).dEn = s.dEn := rfl
@[simp] theorem State.leaseSave_clk (s : State) (i : Instr) : (s.leaseSave i).clk = s.clk := rfl
@[simp] theorem State.leaseSave_dpDir (s : State) (i : Instr) : (s.leaseSave i).dpDir = s.dpDir := rfl
@[simp] theorem State.leaseSave_ram (s : State) (i : Instr) : (s.leaseSave i).ram = s.ram := rfl
@[simp] theorem State.leaseSave_rom (s : State) (i : Instr) : (s.leaseSave i).rom = s.rom := rfl
@[simp] theorem State.leaseSave_leaseSaved (s : State) (i : Instr) : (s.leaseSave i).leaseSaved = some s.clockEnabled := rfl
@[simp] theorem State.leaseSave_parser (s : State) (i : Instr) : (s.leaseSave i).parser = s.parser := rfl
@[simp] theorem State.leaseSave_cfg (s : State) (i : Instr) : (s.leaseSave i).cfg = s.cfg := rfl
@[simp] theorem State.leaseSave_cmd (s : State) (i : Instr) : (s.leaseSave i).cmd = some i := rfl
@[simp] theorem State.leaseSave_pos (s : State) (i : Instr) : (s.leaseSave i).pos = .leaseForce := rfl
@[simp] theorem State.leaseSave_resetRan (s : State) (i : Instr) : (s.leaseSave i).resetRan = s.resetRan := rfl
@[simp] theorem State.leaseSave_settings (s : State) (i : Instr) : (s.leaseSave i).settings = s.settings := rfl
@[simp] theorem State.leaseSave_rx (s : State) (i : Instr) : (s.leaseSave i).rx = s.rx := rfl
@[simp] theorem State.leaseSave_samples (s : State) (i : Instr) : (s.leaseSave i).samples = s.samples := rfl
@[simp] theorem State.leaseSave_turns (s : State) (i : Instr) : (s.leaseSave i).turns = s.turns := rfl
@[simp] theorem State.leaseSave_draws (s : State) (i : Instr) : (s.leaseSave i).draws = s.draws := rfl
@[simp] theorem State.leaseSave_pinTrace (s : State) (i : Instr) : (s.leaseSave i).pinTrace = s.pinTrace := rfl
@[simp] theorem State.leaseSave_waits (s : State) (i : Instr) : (s.leaseSave i).waits = s.waits := rfl
@[simp] theorem State.leaseSave_sent (s : State) (i : Instr) : (s.leaseSave i).sent = s.sent := rfl
@[simp] theorem State.leaseSave_calls (s : State) (i : Instr) : (s.leaseSave i).calls = s.calls := rfl

/-! ### `leaseForce` -/

@[simp] theorem State.leaseForce_phase (s : State) (i : Instr) : (s.leaseForce i).phase = s.phase := rfl
@[simp] theorem State.leaseForce_al (s : State) (i : Instr) : (s.leaseForce i).al = s.al := rfl
@[simp] theorem State.leaseForce_ah (s : State) (i : Instr) : (s.leaseForce i).ah = s.ah := rfl
@[simp] theorem State.leaseForce_dir (s : State) (i : Instr) : (s.leaseForce i).dir = s.dir := rfl
@[simp] theorem State.leaseForce_dout (s : State) (i : Instr) : (s.leaseForce i).dout = s.dout := rfl
@[simp] theorem State.leaseForce_bs (s : State) (i : Instr) : (s.leaseForce i).bs = s.bs := rfl
@[simp] theorem State.leaseForce_clockEnabled (s : State) (i : Instr) : (s.leaseForce i).clockEnabled = false := rfl
@[simp] theorem State.leaseForce_singleStep (s : State) (i : Instr) : (s.leaseForce i).singleStep = s.singleStep := rfl
@[simp] theorem State.leaseForce_resetAsserted (s : State) (i : Instr) : (s.leaseForce i).resetAsserted = s.resetAsserted := rfl
@[simp] theorem State.leaseForce_clockPeriodHint (s : State) (i : Instr) : (s.leaseForce i).clockPeriodHint = s.clockPeriodHint := rfl
@[simp] theorem State.leaseForce_alEn (s : State) (i : Instr) : (s.leaseForce i).alEn = s.alEn := rfl
@[simp] theorem State.leaseForce_ahEn (s : State) (i : Instr) : (s.leaseForce i).ahEn = s.ahEn := rfl
@[simp] theorem State.leaseForce_dEn (s : State) (i : Instr) : (s.leaseForce i).dEn = s.dEn := rfl
@[simp] theorem State.leaseForce_clk (s : State) (i : Instr) : (s.leaseForce i).clk = s.clk := rfl
@[simp] theorem State.leaseForce_dpDir (s : State) (i : Instr) : (s.leaseForce i).dpDir = s.dpDir := rfl
@[simp] theorem State.leaseForce_ram (s : State) (i : Instr) : (s.leaseForce i).ram = s.ram := rfl
@[simp] theorem State.leaseForce_rom (s : State) (i : Instr) : (s.leaseForce i).rom = s.rom := rfl
@[simp] theorem State.leaseForce_leaseSaved (s : State) (i : Instr) : (s.leaseForce i).leaseSaved = s.leaseSaved := rfl
@[simp] theorem State.leaseForce_parser (s : State) (i : Instr) : (s.leaseForce i).parser = s.parser := rfl
@[simp] theorem State.leaseForce_cfg (s : State) (i : Instr) : (s.leaseForce i).cfg = s.cfg := rfl
@[simp] theorem State.leaseForce_cmd (s : State) (i : Instr) : (s.leaseForce i).cmd = some i := rfl
@[simp] theorem State.leaseForce_pos (s : State) (i : Instr) : (s.leaseForce i).pos = .leaseWait := rfl
@[simp] theorem State.leaseForce_resetRan (s : State) (i : Instr) : (s.leaseForce i).resetRan = s.resetRan := rfl
@[simp] theorem State.leaseForce_settings (s : State) (i : Instr) : (s.leaseForce i).settings = s.settings := rfl
@[simp] theorem State.leaseForce_rx (s : State) (i : Instr) : (s.leaseForce i).rx = s.rx := rfl
@[simp] theorem State.leaseForce_samples (s : State) (i : Instr) : (s.leaseForce i).samples = s.samples := rfl
@[simp] theorem State.leaseForce_turns (s : State) (i : Instr) : (s.leaseForce i).turns = s.turns := rfl
@[simp] theorem State.leaseForce_draws (s : State) (i : Instr) : (s.leaseForce i).draws = s.draws := rfl
@[simp] theorem State.leaseForce_pinTrace (s : State) (i : Instr) : (s.leaseForce i).pinTrace = s.pinTrace := rfl
@[simp] theorem State.leaseForce_waits (s : State) (i : Instr) : (s.leaseForce i).waits = s.waits := rfl
@[simp] theorem State.leaseForce_sent (s : State) (i : Instr) : (s.leaseForce i).sent = s.sent := rfl
@[simp] theorem State.leaseForce_calls (s : State) (i : Instr) : (s.leaseForce i).calls = s.calls := rfl

/-! ### `leaseWait` -/

@[simp] theorem State.leaseWait_phase (s : State) (i : Instr) (q : Pos) : (s.leaseWait i q).phase = s.phase := rfl
@[simp] theorem State.leaseWait_al (s : State) (i : Instr) (q : Pos) : (s.leaseWait i q).al = s.al := rfl
@[simp] theorem State.leaseWait_ah (s : State) (i : Instr) (q : Pos) : (s.leaseWait i q).ah = s.ah := rfl
@[simp] theorem State.leaseWait_dir (s : State) (i : Instr) (q : Pos) : (s.leaseWait i q).dir = s.dir := rfl
@[simp] theorem State.leaseWait_dout (s : State) (i : Instr) (q : Pos) : (s.leaseWait i q).dout = s.dout := rfl
@[simp] theorem State.leaseWait_bs (s : State) (i : Instr) (q : Pos) : (s.leaseWait i q).bs = s.bs := rfl
@[simp] theorem State.leaseWait_clockEnabled (s : State) (i : Instr) (q : Pos) : (s.leaseWait i q).clockEnabled = s.clockEnabled := rfl
@[simp] theorem State.leaseWait_singleStep (s : State) (i : Instr) (q : Pos) : (s.leaseWait i q).singleStep = s.singleStep := rfl
@[simp] theorem State.leaseWait_resetAsserted (s : State) (i : Instr) (q : Pos) : (s.leaseWait i q).resetAsserted = s.resetAsserted := rfl
@[simp] theorem State.leaseWait_clockPeriodHint (s : State) (i : Instr) (q : Pos) : (s.leaseWait i q).clockPeriodHint = s.clockPeriodHint := rfl
@[simp] theorem State.leaseWait_alEn (s : State) (i : Instr) (q : Pos) : (s.leaseWait i q).alEn = s.alEn := rfl
@[simp] theorem State.leaseWait_ahEn (s : State) (i : Instr) (q : Pos) : (s.leaseWait i q).ahEn = s.ahEn := rfl
@[simp] theorem State.leaseWait_dEn (s : State) (i : Instr) (q : Pos) : (s.leaseWait i q).dEn = s.dEn := rfl
@[simp] theorem State.leaseWait_clk (s : State) (i : Instr) (q : Pos) : (s.leaseWait i q).clk = s.clk := rfl
@[simp] theorem State.leaseWait_dpDir (s : State) (i : Instr) (q : Pos) : (s.leaseWait i q).dpDir = s.dpDir := rfl
@[simp] theorem State.leaseWait_ram (s : State) (i : Instr) (q : Pos) : (s.leaseWait i q).ram = s.ram := rfl
@[simp] theorem State.leaseWait_rom (s : State) (i : Instr) (q : Pos) : (s.leaseWait i q).rom = s.rom := rfl
@[simp] theorem State.leaseWait_leaseSaved (s : State) (i : Instr) (q : Pos) : (s.leaseWait i q).leaseSaved = s.leaseSaved := rfl
@[simp] theorem State.leaseWait_parser (s : State) (i : Instr) (q : Pos) : (s.leaseWait i q).parser = s.parser := rfl
@[simp] theorem State.leaseWait_cfg (s : State) (i : Instr) (q : Pos) : (s.leaseWait i q).cfg = s.cfg := rfl
@[simp] theorem State.leaseWait_cmd (s : State) (i : Instr) (q : Pos) : (s.leaseWait i q).cmd = some i := rfl
@[simp] theorem State.leaseWait_pos (s : State) (i : Instr) (q : Pos) : (s.leaseWait i q).pos = if s.phase = .idle then q else .leaseWait := rfl
@[simp] theorem State.leaseWait_resetRan (s : State) (i : Instr) (q : Pos) : (s.leaseWait i q).resetRan = s.resetRan := rfl
@[simp] theorem State.leaseWait_settings (s : State) (i : Instr) (q : Pos) : (s.leaseWait i q).settings = s.settings := rfl
@[simp] theorem State.leaseWait_rx (s : State) (i : Instr) (q : Pos) : (s.leaseWait i q).rx = s.rx := rfl
@[simp] theorem State.leaseWait_samples (s : State) (i : Instr) (q : Pos) : (s.leaseWait i q).samples = s.samples := rfl
@[simp] theorem State.leaseWait_turns (s : State) (i : Instr) (q : Pos) : (s.leaseWait i q).turns = s.turns := rfl
@[simp] theorem State.leaseWait_draws (s : State) (i : Instr) (q : Pos) : (s.leaseWait i q).draws = s.draws := rfl
@[simp] theorem State.leaseWait_pinTrace (s : State) (i : Instr) (q : Pos) : (s.leaseWait i q).pinTrace = s.pinTrace := rfl
@[simp] theorem State.leaseWait_waits (s : State) (i : Instr) (q : Pos) : (s.leaseWait i q).waits = s.waits := rfl
@[simp] theorem State.leaseWait_sent (s : State) (i : Instr) (q : Pos) : (s.leaseWait i q).sent = s.sent := rfl
@[simp] theorem State.leaseWait_calls (s : State) (i : Instr) (q : Pos) : (s.leaseWait i q).calls = s.calls := rfl

/-! ### `setTick` -/

@[simp] theorem State.setTick_phase (s : State) (n : Nat) : (s.setTick n).phase = s.phase := rfl
@[simp] theorem State.setTick_al (s : State) (n : Nat) : (s.setTick n).al = s.al := rfl
@[simp] theorem State.setTick_ah (s : State) (n : Nat) : (s.setTick n).ah = s.ah := rfl
@[simp] theorem State.setTick_dir (s : State) (n : Nat) : (s.setTick n).dir = s.dir := rfl
@[simp] theorem State.setTick_dout (s : State) (n : Nat) : (s.setTick n).dout = s.dout := rfl
@[simp] theorem State.setTick_bs (s : State) (n : Nat) : (s.setTick n).bs = s.bs := rfl
@[simp] theorem State.setTick_clockEnabled (s : State) (n : Nat) : (s.setTick n).clockEnabled = s.clockEnabled := rfl
@[simp] theorem State.setTick_singleStep (s : State) (n : Nat) : (s.setTick n).singleStep = s.singleStep := rfl
@[simp] theorem State.setTick_resetAsserted (s : State) (n : Nat) : (s.setTick n).resetAsserted = s.resetAsserted := rfl
@[simp] theorem State.setTick_clockPeriodHint (s : State) (n : Nat) : (s.setTick n).clockPeriodHint = n := rfl
@[simp] theorem State.setTick_alEn (s : State) (n : Nat) : (s.setTick n).alEn = s.alEn := rfl
@[simp] theorem State.setTick_ahEn (s : State) (n : Nat) : (s.setTick n).ahEn = s.ahEn := rfl
@[simp] theorem State.setTick_dEn (s : State) (n : Nat) : (s.setTick n).dEn = s.dEn := rfl
@[simp] theorem State.setTick_clk (s : State) (n : Nat) : (s.setTick n).clk = s.clk := rfl
@[simp] theorem State.setTick_dpDir (s : State) (n : Nat) : (s.setTick n).dpDir = s.dpDir := rfl
@[simp] theorem State.setTick_ram (s : State) (n : Nat) : (s.setTick n).ram = s.ram := rfl
@[simp] theorem State.setTick_rom (s : State) (n : Nat) : (s.setTick n).rom = s.rom := rfl
@[simp] theorem State.setTick_leaseSaved (s : State) (n : Nat) : (s.setTick n).leaseSaved = s.leaseSaved := rfl
@[simp] theorem State.setTick_parser (s : State) (n : Nat) : (s.setTick n).parser = s.parser := rfl
@[simp] theorem State.setTick_cfg (s : State) (n : Nat) : (s.setTick n).cfg = s.cfg := rfl
@[simp] theorem State.setTick_cmd (s : State) (n : Nat) : (s.setTick n).cmd = s.cmd := rfl
@[simp] theorem State.setTick_pos (s : State) (n : Nat) : (s.setTick n).pos = s.pos := rfl
@[simp] theorem State.setTick_resetRan (s : State) (n : Nat) : (s.setTick n).resetRan = s.resetRan := rfl
@[simp] theorem State.setTick_settings (s : State) (n : Nat) : (s.setTick n).settings = s.settings := rfl
@[simp] theorem State.setTick_rx (s : State) (n : Nat) : (s.setTick n).rx = s.rx := rfl
@[simp] theorem State.setTick_samples (s : State) (n : Nat) : (s.setTick n).samples = s.samples := rfl
@[simp] theorem State.setTick_turns (s : State) (n : Nat) : (s.setTick n).turns = s.turns := rfl
@[simp] theorem State.setTick_draws (s : State) (n : Nat) : (s.setTick n).draws = s.draws := rfl
@[simp] theorem State.setTick_pinTrace (s : State) (n : Nat) : (s.setTick n).pinTrace = s.pinTrace := rfl
@[simp] theorem State.setTick_waits (s : State) (n : Nat) : (s.setTick n).waits = s.waits := rfl
@[simp] theorem State.setTick_sent (s : State) (n : Nat) : (s.setTick n).sent = s.sent := rfl
@[simp] theorem State.setTick_calls (s : State) (n : Nat) : (s.setTick n).calls = s.calls ++ [.put .tick (numeral 10 n)] := rfl

/-- The pin events of `E_ACQ_LO`, in order, each where the level changes (rules R38, R112). -/
@[simp] theorem State.acqLoPins_pinTrace (s : State) : s.acqLoPins.pinTrace =
    s.pinTrace ++ (if s.dpDir then [[.dpOff]] else []) ++ (if s.dEn then [[.dEn false]] else [])
      ++ (if s.ahEn then [[.ahEn false]] else []) ++ (if s.alEn then [] else [[.alEn true]]) := by
  cases a : s.dpDir <;> cases b : s.dEn <;> cases c : s.ahEn <;> cases d : s.alEn <;>
    simp [State.acqLoPins, noteEvents, pinChange, a, b, c, d]

/-! ### `setCell` -/

@[simp] theorem State.setCell_phase (s : State) (b : Bank) (a : Nat) (v : Byte) : (s.setCell b a v).phase = s.phase := rfl
@[simp] theorem State.setCell_al (s : State) (b : Bank) (a : Nat) (v : Byte) : (s.setCell b a v).al = s.al := rfl
@[simp] theorem State.setCell_ah (s : State) (b : Bank) (a : Nat) (v : Byte) : (s.setCell b a v).ah = s.ah := rfl
@[simp] theorem State.setCell_dir (s : State) (b : Bank) (a : Nat) (v : Byte) : (s.setCell b a v).dir = s.dir := rfl
@[simp] theorem State.setCell_dout (s : State) (b : Bank) (a : Nat) (v : Byte) : (s.setCell b a v).dout = s.dout := rfl
@[simp] theorem State.setCell_bs (s : State) (b : Bank) (a : Nat) (v : Byte) : (s.setCell b a v).bs = s.bs := rfl
@[simp] theorem State.setCell_clockEnabled (s : State) (b : Bank) (a : Nat) (v : Byte) : (s.setCell b a v).clockEnabled = s.clockEnabled := rfl
@[simp] theorem State.setCell_singleStep (s : State) (b : Bank) (a : Nat) (v : Byte) : (s.setCell b a v).singleStep = s.singleStep := rfl
@[simp] theorem State.setCell_resetAsserted (s : State) (b : Bank) (a : Nat) (v : Byte) : (s.setCell b a v).resetAsserted = s.resetAsserted := rfl
@[simp] theorem State.setCell_clockPeriodHint (s : State) (b : Bank) (a : Nat) (v : Byte) : (s.setCell b a v).clockPeriodHint = s.clockPeriodHint := rfl
@[simp] theorem State.setCell_alEn (s : State) (b : Bank) (a : Nat) (v : Byte) : (s.setCell b a v).alEn = s.alEn := rfl
@[simp] theorem State.setCell_ahEn (s : State) (b : Bank) (a : Nat) (v : Byte) : (s.setCell b a v).ahEn = s.ahEn := rfl
@[simp] theorem State.setCell_dEn (s : State) (b : Bank) (a : Nat) (v : Byte) : (s.setCell b a v).dEn = s.dEn := rfl
@[simp] theorem State.setCell_clk (s : State) (b : Bank) (a : Nat) (v : Byte) : (s.setCell b a v).clk = s.clk := rfl
@[simp] theorem State.setCell_dpDir (s : State) (b : Bank) (a : Nat) (v : Byte) : (s.setCell b a v).dpDir = s.dpDir := rfl
@[simp] theorem State.setCell_leaseSaved (s : State) (b : Bank) (a : Nat) (v : Byte) : (s.setCell b a v).leaseSaved = s.leaseSaved := rfl
@[simp] theorem State.setCell_parser (s : State) (b : Bank) (a : Nat) (v : Byte) : (s.setCell b a v).parser = s.parser := rfl
@[simp] theorem State.setCell_cfg (s : State) (b : Bank) (a : Nat) (v : Byte) : (s.setCell b a v).cfg = s.cfg := rfl
@[simp] theorem State.setCell_cmd (s : State) (b : Bank) (a : Nat) (v : Byte) : (s.setCell b a v).cmd = s.cmd := rfl
@[simp] theorem State.setCell_pos (s : State) (b : Bank) (a : Nat) (v : Byte) : (s.setCell b a v).pos = s.pos := rfl
@[simp] theorem State.setCell_resetRan (s : State) (b : Bank) (a : Nat) (v : Byte) : (s.setCell b a v).resetRan = s.resetRan := rfl
@[simp] theorem State.setCell_settings (s : State) (b : Bank) (a : Nat) (v : Byte) : (s.setCell b a v).settings = s.settings := rfl
@[simp] theorem State.setCell_rx (s : State) (b : Bank) (a : Nat) (v : Byte) : (s.setCell b a v).rx = s.rx := rfl
@[simp] theorem State.setCell_samples (s : State) (b : Bank) (a : Nat) (v : Byte) : (s.setCell b a v).samples = s.samples := rfl
@[simp] theorem State.setCell_turns (s : State) (b : Bank) (a : Nat) (v : Byte) : (s.setCell b a v).turns = s.turns := rfl
@[simp] theorem State.setCell_draws (s : State) (b : Bank) (a : Nat) (v : Byte) : (s.setCell b a v).draws = s.draws := rfl
@[simp] theorem State.setCell_pinTrace (s : State) (b : Bank) (a : Nat) (v : Byte) : (s.setCell b a v).pinTrace = s.pinTrace := rfl
@[simp] theorem State.setCell_waits (s : State) (b : Bank) (a : Nat) (v : Byte) : (s.setCell b a v).waits = s.waits := rfl
@[simp] theorem State.setCell_sent (s : State) (b : Bank) (a : Nat) (v : Byte) : (s.setCell b a v).sent = s.sent := rfl
@[simp] theorem State.setCell_calls (s : State) (b : Bank) (a : Nat) (v : Byte) : (s.setCell b a v).calls = s.calls := rfl

/-! ### `shadow` and `leaseRelease`, which branch -/

@[simp] theorem State.shadow_phase (s : State) (a : Addr) (v : Byte) : (s.shadow a v).phase = s.phase := by
  unfold State.shadow State.bankWrite; split <;> rfl
@[simp] theorem State.shadow_al (s : State) (a : Addr) (v : Byte) : (s.shadow a v).al = s.al := by
  unfold State.shadow State.bankWrite; split <;> rfl
@[simp] theorem State.shadow_ah (s : State) (a : Addr) (v : Byte) : (s.shadow a v).ah = s.ah := by
  unfold State.shadow State.bankWrite; split <;> rfl
@[simp] theorem State.shadow_dir (s : State) (a : Addr) (v : Byte) : (s.shadow a v).dir = s.dir := by
  unfold State.shadow State.bankWrite; split <;> rfl
@[simp] theorem State.shadow_dout (s : State) (a : Addr) (v : Byte) : (s.shadow a v).dout = s.dout := by
  unfold State.shadow State.bankWrite; split <;> rfl
@[simp] theorem State.shadow_bs (s : State) (a : Addr) (v : Byte) : (s.shadow a v).bs = s.bs := by
  unfold State.shadow State.bankWrite; split <;> rfl
@[simp] theorem State.shadow_clockEnabled (s : State) (a : Addr) (v : Byte) : (s.shadow a v).clockEnabled = s.clockEnabled := by
  unfold State.shadow State.bankWrite; split <;> rfl
@[simp] theorem State.shadow_singleStep (s : State) (a : Addr) (v : Byte) : (s.shadow a v).singleStep = s.singleStep := by
  unfold State.shadow State.bankWrite; split <;> rfl
@[simp] theorem State.shadow_resetAsserted (s : State) (a : Addr) (v : Byte) : (s.shadow a v).resetAsserted = s.resetAsserted := by
  unfold State.shadow State.bankWrite; split <;> rfl
@[simp] theorem State.shadow_clockPeriodHint (s : State) (a : Addr) (v : Byte) : (s.shadow a v).clockPeriodHint = s.clockPeriodHint := by
  unfold State.shadow State.bankWrite; split <;> rfl
@[simp] theorem State.shadow_alEn (s : State) (a : Addr) (v : Byte) : (s.shadow a v).alEn = s.alEn := by
  unfold State.shadow State.bankWrite; split <;> rfl
@[simp] theorem State.shadow_ahEn (s : State) (a : Addr) (v : Byte) : (s.shadow a v).ahEn = s.ahEn := by
  unfold State.shadow State.bankWrite; split <;> rfl
@[simp] theorem State.shadow_dEn (s : State) (a : Addr) (v : Byte) : (s.shadow a v).dEn = s.dEn := by
  unfold State.shadow State.bankWrite; split <;> rfl
@[simp] theorem State.shadow_clk (s : State) (a : Addr) (v : Byte) : (s.shadow a v).clk = s.clk := by
  unfold State.shadow State.bankWrite; split <;> rfl
@[simp] theorem State.shadow_dpDir (s : State) (a : Addr) (v : Byte) : (s.shadow a v).dpDir = s.dpDir := by
  unfold State.shadow State.bankWrite; split <;> rfl
@[simp] theorem State.shadow_rom (s : State) (a : Addr) (v : Byte) : (s.shadow a v).rom = s.rom := by
  unfold State.shadow State.bankWrite; split <;> rfl
@[simp] theorem State.shadow_leaseSaved (s : State) (a : Addr) (v : Byte) : (s.shadow a v).leaseSaved = s.leaseSaved := by
  unfold State.shadow State.bankWrite; split <;> rfl
@[simp] theorem State.shadow_parser (s : State) (a : Addr) (v : Byte) : (s.shadow a v).parser = s.parser := by
  unfold State.shadow State.bankWrite; split <;> rfl
@[simp] theorem State.shadow_cfg (s : State) (a : Addr) (v : Byte) : (s.shadow a v).cfg = s.cfg := by
  unfold State.shadow State.bankWrite; split <;> rfl
@[simp] theorem State.shadow_cmd (s : State) (a : Addr) (v : Byte) : (s.shadow a v).cmd = s.cmd := by
  unfold State.shadow State.bankWrite; split <;> rfl
@[simp] theorem State.shadow_pos (s : State) (a : Addr) (v : Byte) : (s.shadow a v).pos = s.pos := by
  unfold State.shadow State.bankWrite; split <;> rfl
@[simp] theorem State.shadow_resetRan (s : State) (a : Addr) (v : Byte) : (s.shadow a v).resetRan = s.resetRan := by
  unfold State.shadow State.bankWrite; split <;> rfl
@[simp] theorem State.shadow_settings (s : State) (a : Addr) (v : Byte) : (s.shadow a v).settings = s.settings := by
  unfold State.shadow State.bankWrite; split <;> rfl
@[simp] theorem State.shadow_rx (s : State) (a : Addr) (v : Byte) : (s.shadow a v).rx = s.rx := by
  unfold State.shadow State.bankWrite; split <;> rfl
@[simp] theorem State.shadow_samples (s : State) (a : Addr) (v : Byte) : (s.shadow a v).samples = s.samples := by
  unfold State.shadow State.bankWrite; split <;> rfl
@[simp] theorem State.shadow_turns (s : State) (a : Addr) (v : Byte) : (s.shadow a v).turns = s.turns := by
  unfold State.shadow State.bankWrite; split <;> rfl
@[simp] theorem State.shadow_draws (s : State) (a : Addr) (v : Byte) : (s.shadow a v).draws = s.draws := by
  unfold State.shadow State.bankWrite; split <;> rfl
@[simp] theorem State.shadow_pinTrace (s : State) (a : Addr) (v : Byte) : (s.shadow a v).pinTrace = s.pinTrace := by
  unfold State.shadow State.bankWrite; split <;> rfl
@[simp] theorem State.shadow_waits (s : State) (a : Addr) (v : Byte) : (s.shadow a v).waits = s.waits := by
  unfold State.shadow State.bankWrite; split <;> rfl
@[simp] theorem State.shadow_sent (s : State) (a : Addr) (v : Byte) : (s.shadow a v).sent = s.sent := by
  unfold State.shadow State.bankWrite; split <;> rfl
@[simp] theorem State.shadow_calls (s : State) (a : Addr) (v : Byte) : (s.shadow a v).calls = s.calls := by
  unfold State.shadow State.bankWrite; split <;> rfl
@[simp] theorem State.leaseRelease_phase (s : State) (e : Option Cause) : (s.leaseRelease e).phase = s.phase := by
  cases e <;> rfl
@[simp] theorem State.leaseRelease_al (s : State) (e : Option Cause) : (s.leaseRelease e).al = s.al := by
  cases e <;> rfl
@[simp] theorem State.leaseRelease_ah (s : State) (e : Option Cause) : (s.leaseRelease e).ah = s.ah := by
  cases e <;> rfl
@[simp] theorem State.leaseRelease_dir (s : State) (e : Option Cause) : (s.leaseRelease e).dir = s.dir := by
  cases e <;> rfl
@[simp] theorem State.leaseRelease_dout (s : State) (e : Option Cause) : (s.leaseRelease e).dout = s.dout := by
  cases e <;> rfl
@[simp] theorem State.leaseRelease_bs (s : State) (e : Option Cause) : (s.leaseRelease e).bs = s.bs := by
  cases e <;> rfl
@[simp] theorem State.leaseRelease_clockEnabled (s : State) (e : Option Cause) : (s.leaseRelease e).clockEnabled = s.leaseSaved.getD s.clockEnabled := by
  cases e <;> rfl
@[simp] theorem State.leaseRelease_singleStep (s : State) (e : Option Cause) : (s.leaseRelease e).singleStep = s.singleStep := by
  cases e <;> rfl
@[simp] theorem State.leaseRelease_resetAsserted (s : State) (e : Option Cause) : (s.leaseRelease e).resetAsserted = s.resetAsserted := by
  cases e <;> rfl
@[simp] theorem State.leaseRelease_clockPeriodHint (s : State) (e : Option Cause) : (s.leaseRelease e).clockPeriodHint = s.clockPeriodHint := by
  cases e <;> rfl
@[simp] theorem State.leaseRelease_alEn (s : State) (e : Option Cause) : (s.leaseRelease e).alEn = s.alEn := by
  cases e <;> rfl
@[simp] theorem State.leaseRelease_ahEn (s : State) (e : Option Cause) : (s.leaseRelease e).ahEn = s.ahEn := by
  cases e <;> rfl
@[simp] theorem State.leaseRelease_dEn (s : State) (e : Option Cause) : (s.leaseRelease e).dEn = s.dEn := by
  cases e <;> rfl
@[simp] theorem State.leaseRelease_clk (s : State) (e : Option Cause) : (s.leaseRelease e).clk = s.clk := by
  cases e <;> rfl
@[simp] theorem State.leaseRelease_dpDir (s : State) (e : Option Cause) : (s.leaseRelease e).dpDir = s.dpDir := by
  cases e <;> rfl
@[simp] theorem State.leaseRelease_ram (s : State) (e : Option Cause) : (s.leaseRelease e).ram = s.ram := by
  cases e <;> rfl
@[simp] theorem State.leaseRelease_rom (s : State) (e : Option Cause) : (s.leaseRelease e).rom = s.rom := by
  cases e <;> rfl
@[simp] theorem State.leaseRelease_leaseSaved (s : State) (e : Option Cause) : (s.leaseRelease e).leaseSaved = none := by
  cases e <;> rfl
@[simp] theorem State.leaseRelease_parser (s : State) (e : Option Cause) : (s.leaseRelease e).parser = s.parser.clear := by
  cases e <;> rfl
@[simp] theorem State.leaseRelease_cfg (s : State) (e : Option Cause) : (s.leaseRelease e).cfg = s.cfg := by
  cases e <;> rfl
@[simp] theorem State.leaseRelease_cmd (s : State) (e : Option Cause) : (s.leaseRelease e).cmd = none := by
  cases e <;> rfl
@[simp] theorem State.leaseRelease_pos (s : State) (e : Option Cause) : (s.leaseRelease e).pos = .start := by
  cases e <;> rfl
@[simp] theorem State.leaseRelease_resetRan (s : State) (e : Option Cause) : (s.leaseRelease e).resetRan = s.resetRan := by
  cases e <;> rfl
@[simp] theorem State.leaseRelease_settings (s : State) (e : Option Cause) : (s.leaseRelease e).settings = s.settings := by
  cases e <;> rfl
@[simp] theorem State.leaseRelease_rx (s : State) (e : Option Cause) : (s.leaseRelease e).rx = s.rx := by
  cases e <;> rfl
@[simp] theorem State.leaseRelease_samples (s : State) (e : Option Cause) : (s.leaseRelease e).samples = s.samples := by
  cases e <;> rfl
@[simp] theorem State.leaseRelease_turns (s : State) (e : Option Cause) : (s.leaseRelease e).turns = s.turns := by
  cases e <;> rfl
@[simp] theorem State.leaseRelease_draws (s : State) (e : Option Cause) : (s.leaseRelease e).draws = s.draws := by
  cases e <;> rfl
@[simp] theorem State.leaseRelease_pinTrace (s : State) (e : Option Cause) : (s.leaseRelease e).pinTrace = s.pinTrace := by
  cases e <;> rfl
@[simp] theorem State.leaseRelease_waits (s : State) (e : Option Cause) : (s.leaseRelease e).waits = s.waits := by
  cases e <;> rfl
@[simp] theorem State.leaseRelease_calls (s : State) (e : Option Cause) : (s.leaseRelease e).calls = s.calls := by
  cases e <;> rfl
@[simp] theorem State.leaseRelease_none_sent (s : State) : (s.leaseRelease none).sent = s.sent := rfl
@[simp] theorem State.leaseRelease_some_sent (s : State) (c : Cause) :
    (s.leaseRelease (some c)).sent = s.sent ++ [errorText (s.cfg.code c)] := rfl
@[simp] theorem State.putSetting_phase (s : State) (k : SettKey) (v : List Byte) : (s.putSetting k v).phase = s.phase := rfl
@[simp] theorem State.putSetting_al (s : State) (k : SettKey) (v : List Byte) : (s.putSetting k v).al = s.al := rfl
@[simp] theorem State.putSetting_ah (s : State) (k : SettKey) (v : List Byte) : (s.putSetting k v).ah = s.ah := rfl
@[simp] theorem State.putSetting_dir (s : State) (k : SettKey) (v : List Byte) : (s.putSetting k v).dir = s.dir := rfl
@[simp] theorem State.putSetting_dout (s : State) (k : SettKey) (v : List Byte) : (s.putSetting k v).dout = s.dout := rfl
@[simp] theorem State.putSetting_bs (s : State) (k : SettKey) (v : List Byte) : (s.putSetting k v).bs = s.bs := rfl
@[simp] theorem State.putSetting_clockEnabled (s : State) (k : SettKey) (v : List Byte) : (s.putSetting k v).clockEnabled = s.clockEnabled := rfl
@[simp] theorem State.putSetting_singleStep (s : State) (k : SettKey) (v : List Byte) : (s.putSetting k v).singleStep = s.singleStep := rfl
@[simp] theorem State.putSetting_resetAsserted (s : State) (k : SettKey) (v : List Byte) : (s.putSetting k v).resetAsserted = s.resetAsserted := rfl
@[simp] theorem State.putSetting_clockPeriodHint (s : State) (k : SettKey) (v : List Byte) : (s.putSetting k v).clockPeriodHint = s.clockPeriodHint := rfl
@[simp] theorem State.putSetting_alEn (s : State) (k : SettKey) (v : List Byte) : (s.putSetting k v).alEn = s.alEn := rfl
@[simp] theorem State.putSetting_ahEn (s : State) (k : SettKey) (v : List Byte) : (s.putSetting k v).ahEn = s.ahEn := rfl
@[simp] theorem State.putSetting_dEn (s : State) (k : SettKey) (v : List Byte) : (s.putSetting k v).dEn = s.dEn := rfl
@[simp] theorem State.putSetting_clk (s : State) (k : SettKey) (v : List Byte) : (s.putSetting k v).clk = s.clk := rfl
@[simp] theorem State.putSetting_dpDir (s : State) (k : SettKey) (v : List Byte) : (s.putSetting k v).dpDir = s.dpDir := rfl
@[simp] theorem State.putSetting_ram (s : State) (k : SettKey) (v : List Byte) : (s.putSetting k v).ram = s.ram := rfl
@[simp] theorem State.putSetting_rom (s : State) (k : SettKey) (v : List Byte) : (s.putSetting k v).rom = s.rom := rfl
@[simp] theorem State.putSetting_leaseSaved (s : State) (k : SettKey) (v : List Byte) : (s.putSetting k v).leaseSaved = s.leaseSaved := rfl
@[simp] theorem State.putSetting_parser (s : State) (k : SettKey) (v : List Byte) : (s.putSetting k v).parser = s.parser := rfl
@[simp] theorem State.putSetting_cfg (s : State) (k : SettKey) (v : List Byte) : (s.putSetting k v).cfg = s.cfg := rfl
@[simp] theorem State.putSetting_cmd (s : State) (k : SettKey) (v : List Byte) : (s.putSetting k v).cmd = s.cmd := rfl
@[simp] theorem State.putSetting_pos (s : State) (k : SettKey) (v : List Byte) : (s.putSetting k v).pos = s.pos := rfl
@[simp] theorem State.putSetting_resetRan (s : State) (k : SettKey) (v : List Byte) : (s.putSetting k v).resetRan = s.resetRan := rfl
@[simp] theorem State.putSetting_rx (s : State) (k : SettKey) (v : List Byte) : (s.putSetting k v).rx = s.rx := rfl
@[simp] theorem State.putSetting_samples (s : State) (k : SettKey) (v : List Byte) : (s.putSetting k v).samples = s.samples := rfl
@[simp] theorem State.putSetting_turns (s : State) (k : SettKey) (v : List Byte) : (s.putSetting k v).turns = s.turns := rfl
@[simp] theorem State.putSetting_draws (s : State) (k : SettKey) (v : List Byte) : (s.putSetting k v).draws = s.draws := rfl
@[simp] theorem State.putSetting_pinTrace (s : State) (k : SettKey) (v : List Byte) : (s.putSetting k v).pinTrace = s.pinTrace := rfl
@[simp] theorem State.putSetting_waits (s : State) (k : SettKey) (v : List Byte) : (s.putSetting k v).waits = s.waits := rfl
@[simp] theorem State.putSetting_sent (s : State) (k : SettKey) (v : List Byte) : (s.putSetting k v).sent = s.sent := rfl

end Sys2Proof.Machine
end

