-- ==== Sys2Proof/Laws/Width.lean ====
section
/-! SUPPORT. The widths of rule R8: what a cut to `DATA_W` or `ADDR_W` leaves, and that it leaves everything at the listed widths. -/

namespace Sys2Proof

theorem Params.toNat_cut (p : Params) (v : Byte) : (p.cut v).toNat = v.toNat % 2 ^ p.dataW.val := by
  rw [Params.cut, BitVec.toNat_setWidth, BitVec.toNat_setWidth]
  exact Nat.mod_eq_of_lt ((Nat.mod_le _ _).trans_lt v.isLt)

theorem Params.toNat_cutAddr (p : Params) (a : Addr) : (p.cutAddr a).toNat = a.toNat % 2 ^ p.addrW.val := by
  rw [Params.cutAddr, BitVec.toNat_setWidth, BitVec.toNat_setWidth]
  exact Nat.mod_eq_of_lt ((Nat.mod_le _ _).trans_lt a.isLt)

/-- What has a cell's width keeps it. -/
@[simp] theorem Params.cut_cut (p : Params) (v : Byte) : p.cut (p.cut v) = p.cut v := by
  apply BitVec.eq_of_toNat_eq
  simp only [Params.toNat_cut, Nat.mod_mod]

@[simp] theorem Params.cutAddr_cutAddr (p : Params) (a : Addr) : p.cutAddr (p.cutAddr a) = p.cutAddr a := by
  apply BitVec.eq_of_toNat_eq
  simp only [Params.toNat_cutAddr, Nat.mod_mod]

@[simp] theorem Params.cut_zero (p : Params) : p.cut 0x00#8 = 0x00#8 := by
  apply BitVec.eq_of_toNat_eq
  simp only [Params.toNat_cut, BitVec.toNat_ofNat, Nat.zero_mod]

/-- At the listed `DATA_W` a cell holds the whole byte. -/
theorem Params.cut_full {p : Params} (h : p.dataW = 8) (v : Byte) : p.cut v = v := by
  apply BitVec.eq_of_toNat_eq
  rw [Params.toNat_cut, h]
  exact Nat.mod_eq_of_lt v.isLt

/-- At the listed `ADDR_W` a bus address is the whole address. -/
theorem Params.cutAddr_full {p : Params} (h : p.addrW = 16) (a : Addr) : p.cutAddr a = a := by
  apply BitVec.eq_of_toNat_eq
  rw [Params.toNat_cutAddr, h]
  exact Nat.mod_eq_of_lt a.isLt

@[simp] theorem cutAddr_busAddr (p : Params) (ah al : Byte) : p.cutAddr (busAddr p ah al) = busAddr p ah al :=
  p.cutAddr_cutAddr _

/-- A bus address is below `2 ^ ADDR_W` (rule R9). -/
theorem busAddr_lt (p : Params) (ah al : Byte) : (busAddr p ah al).toNat < 2 ^ p.addrW.val := by
  rw [busAddr, Params.toNat_cutAddr]
  exact Nat.mod_lt _ (Nat.two_pow_pos _)

/-- At the listed widths the bus address is `ah : al` (rule R24). -/
theorem busAddr_full {p : Params} (h : p.addrW = 16) (h' : p.dataW = 8) (ah al : Byte) : busAddr p ah al = ah ++ al := by
  rw [busAddr, Params.cutAddr_full h, h']
  ext i hi
  have happ : (ah ++ al)[i] = _ := BitVec.getElem_append (x := ah) (y := al) hi
  rw [happ]
  by_cases hl : i < 8
  · simp [hl]
  · simp [hl, BitVec.getLsbD_of_ge al i (by omega), BitVec.getLsbD_eq_getElem (x := ah) (i := i - 8) (by omega)]

end Sys2Proof
end

