-- ==== Sys2Proof/Laws/Memory.lean ====
section
/-! SUPPORT. Reading and writing banks: a read after a write, the canonical form, and the cell view of each memory operation. -/

namespace Sys2Proof.Machine

theorem Memory.get_set (m : Memory) (a b : Nat) (v : Byte) :
    (m.set a v).get b = if b = a then some v else m.get b := by
  induction m with
  | nil => simp only [Memory.set, Memory.get]
  | cons e m ih =>
    obtain ⟨k, w⟩ := e
    simp only [Memory.set]
    split
    · simp only [Memory.get]
    · split
      · subst_vars
        simp only [Memory.get]
        split <;> rfl
      · simp only [Memory.get, ih]
        split <;> split <;> simp_all

theorem Memory.wfFrom_set (p : Params) (len : Nat) (m : Memory) (lo a : Nat) (v : Byte) (h : m.wfFrom p len lo = true)
    (hlo : lo ≤ a) (ha : a < len) : (m.set a (p.cut v)).wfFrom p len lo = true := by
  induction m generalizing lo with
  | nil => simp [Memory.set, Memory.wfFrom, hlo, ha]
  | cons e m ih =>
    obtain ⟨k, w⟩ := e
    simp only [Memory.wfFrom, Bool.and_eq_true, decide_eq_true_eq, beq_iff_eq] at h
    simp only [Memory.set]
    split
    · simp [Memory.wfFrom, h]; omega
    · split
      · subst_vars; simp [Memory.wfFrom, h]
      · simp only [Memory.wfFrom, Bool.and_eq_true, decide_eq_true_eq, beq_iff_eq]
        exact ⟨h.1, ih (k + 1) h.2 (by omega)⟩

/-- A write below the length, of a byte cut to a cell's width, keeps the canonical form. -/
theorem Memory.wf_set {p : Params} {len : Nat} {m : Memory} {a : Nat} (v : Byte) (h : m.wf p len = true) (ha : a < len) :
    (m.set a (p.cut v)).wf p len = true :=
  Memory.wfFrom_set p len m 0 a v h (Nat.zero_le a) ha

@[simp] theorem Memory.wf_nil (p : Params) (len : Nat) : Memory.wf p len [] = true := rfl

/-- In canonical form a listed byte has a cell's width. -/
theorem Memory.cut_get {p : Params} {len : Nat} {m : Memory} {lo a : Nat} {v : Byte} (h : m.wfFrom p len lo = true)
    (hv : m.get a = some v) : p.cut v = v := by
  induction m generalizing lo with
  | nil => cases hv
  | cons e m ih =>
    simp only [Memory.wfFrom, Bool.and_eq_true, decide_eq_true_eq, beq_iff_eq] at h
    simp only [Memory.get] at hv
    split at hv
    · cases hv; exact h.1.2
    · exact ih h.2 hv

/-- Reading a cell after a cell write. -/
@[simp] theorem State.cell_setCell (s : State) (b c : Bank) (a i : Nat) (v : Byte) :
    (s.setCell b a v).cell c i = if c = b ∧ i = a then s.cfg.cut v else s.cell c i := by
  cases b <;> cases c <;> simp only [State.cell, State.bank, State.setCell, Memory.get_set] <;> split <;> simp_all

/-- The cells are what the two banks list, and the launch contents. -/
theorem State.cell_congr {s t : State} (h : t.ram = s.ram) (h' : t.rom = s.rom) (hc : t.cfg = s.cfg) (b : Bank) (a : Nat) :
    t.cell b a = s.cell b a := by
  cases b <;> simp [State.cell, State.bank, h, h', hc]

/-- What `BankRead` answers. -/
theorem State.bankRead_eq (s : State) (b : Bank) (a : Nat) :
    s.bankRead b a = if a < s.bankLen b then some (s.cell b a) else none := rfl

/-- What `BankWrite` answers. -/
theorem State.bankWrite_eq (s : State) (b : Bank) (a : Nat) (v : Byte) :
    s.bankWrite b a v = if a < s.bankLen b then some (s.setCell b a v) else none := rfl

/-- A `BankWrite` that succeeds has written exactly its cell. -/
theorem State.bankWrite_some {s t : State} {b : Bank} {a : Nat} {v : Byte} (h : s.bankWrite b a v = some t) :
    a < s.bankLen b ∧ t = s.setCell b a v := by
  simp only [State.bankWrite] at h
  split at h
  · exact ⟨‹_›, (Option.some.inj h).symm⟩
  · cases h

/-- The cells after a shadow write. -/
theorem State.cell_shadow (s : State) (a : Addr) (v : Byte) (c : Bank) (i : Nat) :
    (s.shadow a v).cell c i = if c = .ram ∧ i = a.toNat ∧ a.toNat < s.cfg.ramLen then s.cfg.cut v else s.cell c i := by
  unfold State.shadow
  rw [State.bankWrite_eq]
  simp only [State.bankLen]
  by_cases h : a.toNat < s.cfg.ramLen <;> simp [h]

/-- A cell write within the bank keeps both canonical forms. -/
theorem State.wf_setCell {s : State} {b : Bank} {a : Nat} (v : Byte) (h : s.ram.wf s.cfg s.cfg.ramLen = true)
    (h' : s.rom.wf s.cfg s.cfg.romLen = true) (ha : a < s.bankLen b) :
    (s.setCell b a v).ram.wf s.cfg s.cfg.ramLen = true ∧ (s.setCell b a v).rom.wf s.cfg s.cfg.romLen = true := by
  cases b
  · exact ⟨Memory.wf_set v h ha, h'⟩
  · exact ⟨h, Memory.wf_set v h' ha⟩

/-- A shadow write keeps the canonical form. -/
theorem State.wf_shadow {s : State} (a : Addr) (v : Byte) (h : s.ram.wf s.cfg s.cfg.ramLen = true) :
    (s.shadow a v).ram.wf s.cfg s.cfg.ramLen = true := by
  unfold State.shadow
  rw [State.bankWrite_eq]
  by_cases ha : a.toNat < s.bankLen .ram
  · rw [if_pos ha]
    exact Memory.wf_set v h ha
  · rw [if_neg ha]
    exact h

end Sys2Proof.Machine
end

