-- ==== Sys2Proof/Laws/Exec.lean ====
section
/-! SUPPORT. What each engine operation answers under its `pre:` line, the byte `ReadMux` serves, and that no command faults. -/

namespace Sys2Proof.Machine

/-- Two states with the same banks and parameters have the same cells. -/
theorem sameMemory_of_banks {s t : State} (h : t.ram = s.ram) (h' : t.rom = s.rom) (hc : t.cfg = s.cfg) : sameMemory s t :=
  State.cell_congr h h' hc

/-- The byte served for a bus address (rules R51, R117). -/
theorem State.readMux_eq (s : State) (a : Addr) :
    s.readMux a = if a.toNat < s.cfg.ramLen then s.cell .ram a.toNat
      else if a.toNat < s.cfg.romLen then s.cell .rom a.toNat else s.cfg.cut s.cfg.fallbackByte := by
  simp only [State.readMux, State.bankRead_eq, State.bankLen]
  by_cases h : a.toNat < s.cfg.ramLen <;> by_cases h' : a.toNat < s.cfg.romLen <;> simp [h, h']

theorem exec_eIdlePoll {s : State} (h : s.phase = .idle) :
    exec .eIdlePoll s = .next (if s.clockEnabled then { s with phase := .acqLo } else s) := if_pos h

theorem exec_eAcqLo {s : State} (h : s.phase = .acqLo ∧ s.clk = false) :
    exec .eAcqLo s = .next { (s.acqLoPins.wait s.cfg.tSettle).drawSample with
      al := s.sampled.b
      dir := dirOf s.cfg.rwReadLevel s.sampled.rw
      phase := .acqHi } := if_pos h

theorem exec_eAcqHi {s : State} (h : s.phase = .acqHi ∧ s.clk = false ∧ s.dpDir = false) :
    exec .eAcqHi s = .next { (((s.setAlEn false).setAhEn true).wait s.cfg.tSettle).drawSample with
      ah := s.sampled.b
      phase := .data } := if_pos h

theorem exec_eDataWr {s : State} (h : s.phase = .data ∧ s.clk = false ∧ s.dir = .cpuWrite ∧ s.dpDir = false) :
    exec .eDataWr s = .next (({ (((s.setAhEn false).raiseDEnClk).wait s.cfg.tSettle).drawSample with
      bs := { addr := busAddr s.cfg s.ah s.al, dir := .cpuWrite, data := s.sampled.b } } : State).shadow
        (busAddr s.cfg s.ah s.al) s.sampled.b) := if_pos h

theorem exec_eDataRd {s : State} (h : s.phase = .data ∧ s.clk = false ∧ s.dir = .cpuRead ∧ s.dpDir = false) :
    exec .eDataRd s = .next
      { (({ s.setAhEn false with dout := s.readMux (busAddr s.cfg s.ah s.al) } : State).dpDrive).raiseDEnClk with
        bs := { addr := busAddr s.cfg s.ah s.al, dir := .cpuRead, data := s.readMux (busAddr s.cfg s.ah s.al) } } := if_pos h

theorem exec_eClkFall {s : State} (h : s.phase = .data ∧ s.clk = true) :
    exec .eClkFall s = .next { (s.wait s.clockPeriodHint).setClk false with
      clockEnabled := clockAfterCycle s.singleStep s.clockEnabled
      phase := phaseAfterCycle s.singleStep s.clockEnabled } := if_pos h

/-- No error is fatal: everything but an engine operation outside its `pre:` line answers a next state (rule R190). -/
theorem exec_answers_of_not_engine {i : Instr} (h : isEngineOp i = false) (s : State) : ∃ t, exec i s = .next t := by
  cases i <;> first | exact ⟨_, rfl⟩ | cases h

/-- The two atomic steps of `CLOCK 1` (rule R142). -/
theorem exec_clock1_start {s : State} (h : s.pos = .start) :
    exec .clock1 s = .next (({ s with singleStep := false } : State).goTo .clock1 .second) := by
  simp only [exec, execClock1, h, reduceCtorEq, if_false]

theorem exec_clock1_second {s : State} (h : s.pos = .second) :
    exec .clock1 s = .next (({ s with clockEnabled := true } : State).respond (responseText kwClock [ch1])).finish := by
  simp only [exec, execClock1, h, if_true]

/-- The two atomic steps of `CLOCKPULSE` (rule R143). -/
theorem exec_clockPulse_start {s : State} (h : s.pos = .start) :
    exec .clockPulse s = .next (({ s with singleStep := true } : State).goTo .clockPulse .second) := by
  simp only [exec, execClockPulse, h, reduceCtorEq, if_false]

theorem exec_clockPulse_second {s : State} (h : s.pos = .second) :
    exec .clockPulse s = .next (({ s with clockEnabled := true } : State).respond (responseText kwClockPulse [])).finish := by
  simp only [exec, execClockPulse, h, if_true]

end Sys2Proof.Machine
end

