-- ==== Sys2Proof/Laws/Parser.lean ====
section
/-! SUPPORT. What the parser does with each part of a frame, and what the decoder reads from a whole one. -/

namespace Sys2Proof

/-- `plainByte` as a proposition. -/
theorem plainByte_iff {c : Byte} : plainByte c = true ↔ kindOf c = none ∧ c ≠ chComma ∧ c ≠ chClose := by
  simp [plainByte, and_assoc]

theorem isDigit_plainByte {c : Byte} (h : IsDigit c) : plainByte c = true := plainByte_iff.2 (isDigit_plain h)

/-- One decoded byte that completes nothing. -/
theorem decodeFrom_quiet {p : Params} {q q' : Parser} {c : Byte} (rest : List Byte)
    (h : parserByte p q c = (q', .quiet)) : decodeFrom p q (c :: rest) = decodeFrom p q' rest := by
  simp only [decodeFrom, h]

/-- A header byte that is none of the parser's characters is appended (rule R90). -/
theorem parserByte_header {p : Params} {q : Parser} {c : Byte} (hq : q.pstate = .readingHeader)
    (hc : plainByte c = true) (hcap : q.header.length < p.headerCap) :
    parserByte p q c = ({ q with header := q.header ++ [c] }, .quiet) := by
  obtain ⟨hk, hcomma, hclose⟩ := plainByte_iff.1 hc
  simp only [parserByte, hq, hk, headerByte, hclose, hcomma, if_false, Nat.not_le.2 hcap, false_and]

/-- A run of such bytes (rule R90). -/
theorem decodeFrom_header (p : Params) (rest : List Byte) :
    ∀ (text : List Byte) (q : Parser), q.pstate = .readingHeader → (∀ c ∈ text, plainByte c = true) →
      q.header.length + text.length ≤ p.headerCap →
      decodeFrom p q (text ++ rest) = decodeFrom p { q with header := q.header ++ text } rest := by
  intro text
  induction text with
  | nil => intro q _ _ _; simp
  | cons c text ih =>
    intro q hq hplain hcap
    simp only [List.length_cons] at hcap
    rw [List.cons_append, decodeFrom_quiet _ (parserByte_header hq (hplain c (by simp)) (by omega)), ih]
    · simp
    · exact hq
    · exact fun x hx => hplain x (by simp [hx])
    · simp; omega

/-- The bytes of a payload but the last (rule R92). -/
theorem decodeFrom_payload (p : Params) (c : Byte) (rest : List Byte) :
    ∀ (text : List Byte) (q : Parser), q.pstate = .readingPayload → q.got + text.length + 1 = q.declared →
      (p.preemptInPayload = true → ∀ x ∈ text ++ [c], kindOf x = none) →
      decodeFrom p q (text ++ c :: rest) = .ok (dispatch p q.kind q.action (q.payload ++ text ++ [c]), rest) := by
  have pay : ∀ (q : Parser) (x : Byte), q.pstate = .readingPayload →
      (p.preemptInPayload = true → kindOf x = none) → parserByte p q x = payloadByte q x := by
    intro q x hq hx
    simp only [parserByte, hq]
    split
    · rename_i k h1 h2
      rw [hx h2] at h1
      cases h1
    · rfl
  intro text
  induction text with
  | nil =>
    intro q hq hd hx
    have hd' : q.got + 1 = q.declared := by simpa using hd
    have h := pay q c hq fun hp => hx hp c (by simp)
    simp only [List.nil_append, decodeFrom, h, payloadByte, hd', if_true, List.append_nil]
  | cons x text ih =>
    intro q hq hd hx
    simp only [List.length_cons] at hd
    have h := pay q x hq fun hp => hx hp x (by simp)
    have hne : ¬ q.got + 1 = q.declared := by omega
    simp only [payloadByte, hne, if_false] at h
    rw [List.cons_append, decodeFrom_quiet _ h, ih]
    · simp [Parser.action]
    · exact hq
    · simp; omega
    · exact fun hp y hy => hx hp y (by simp at hy ⊢; right; exact hy)

/-- A frame that fits is decoded whole: the dispatcher's command, and the bytes after it (rules R85, R88 to R94). -/
theorem decodeFrame_frameText (p : Params) (k : Kind) (action payload rest : List Byte)
    (hplain : ∀ c ∈ action, plainByte c = true) (hfit : frameFits p action payload = true) :
    decodeFrame p (frameText k action payload ++ rest) = .ok (dispatch p k action payload, rest) := by
  simp only [frameFits, Bool.and_eq_true, decide_eq_true_eq, Bool.or_eq_true, Bool.not_eq_true', List.all_eq_true,
    Option.isNone_iff_eq_none] at hfit
  obtain ⟨⟨hcap, hpay⟩, hpre⟩ := hfit
  have hdig : ∀ c ∈ numeral 10 payload.length, plainByte c = true :=
    fun c hc => isDigit_plainByte (numeral_isDigit (by norm_num) (by norm_num) _ c hc)
  have hs : parserByte p Parser.init (sentinel k) = (Parser.start k, .quiet) := by cases k <;> rfl
  have ho : parserByte p (Parser.start k) chOpen = ({ Parser.start k with pstate := .readingHeader }, .quiet) := rfl
  unfold decodeFrame frameText
  simp only [List.cons_append, List.append_assoc]
  rw [decodeFrom_quiet _ hs, decodeFrom_quiet _ ho, decodeFrom_header p _ action _ rfl hplain (by simp [Parser.start]; omega)]
  have hcm : parserByte p { Parser.start k with pstate := .readingHeader, header := [] ++ action } chComma
      = ({ Parser.start k with pstate := .readingHeader, header := action ++ [chComma], commaAt := some action.length },
          .quiet) := by
    have h : ¬ p.headerCap ≤ action.length := by omega
    simp [parserByte, headerByte, Parser.start, h, show kindOf chComma = none by decide,
      show chComma ≠ chClose by decide]
  rw [show (Parser.start k).header = [] from rfl]
  erw [decodeFrom_quiet _ hcm]
  rw [decodeFrom_header p _ (numeral 10 payload.length) _ rfl hdig (by simp; omega)]
  have hclose : kindOf chClose = none := by decide
  have hdrop : (action ++ [chComma] ++ numeral 10 payload.length).drop (action.length + 1) = numeral 10 payload.length := by
    rw [show action.length + 1 = (action ++ [chComma]).length by simp, List.drop_left]
  have htake : (action ++ [chComma] ++ numeral 10 payload.length).take action.length = action := by
    rw [List.append_assoc, List.take_left]
  simp only [decodeFrom, parserByte, hclose, headerByte, if_true, closeHeader, hdrop,
    parseNumeral_numeral (show 2 ≤ 10 by norm_num) (show 10 ≤ 16 by norm_num), Nat.not_lt.2 hpay, if_false]
  by_cases hnil : payload = []
  · subst hnil
    simp only [List.length_nil] at htake
    simp only [List.length_nil, if_true, Parser.action, Option.getD_some, htake, Parser.start, List.nil_append]
  · have hne : payload.length ≠ 0 := by simpa using hnil
    obtain ⟨text, c, rfl⟩ : ∃ text c, payload = text ++ [c] :=
      ⟨payload.dropLast, payload.getLast hnil, (List.dropLast_append_getLast hnil).symm⟩
    rw [if_neg hne]
    show decodeFrom p _ (text ++ [c] ++ rest) = _
    rw [show text ++ [c] ++ rest = text ++ c :: rest by simp, decodeFrom_payload p c rest text _ rfl (by simp) ?_]
    · simp [Parser.action, Parser.start]
    · intro hp x hx
      rcases hpre with h | h
      · rw [hp] at h; cases h
      · exact h x hx

/-! ### Payloads: reading what the encoder writes -/

theorem argRom_romPayload (a : Addr) (v : Byte) : argRom (romPayload (.ok (a, v))) = .ok (a, v) := by
  simp [romPayload, wordToHex4, byteToHex2, argRom, hex4_of_word, hex2_of_byte]

theorem argRomLoad_romlwPayload (d : RomLoad) : argRomLoad (romlwPayload (.ok d)) = .ok d := by
  have h : hexPairs (if d.clean = true then [] else [chBad]) = ([], d.clean) := by cases d.clean <;> rfl
  simp [romlwPayload, wordToHex4, argRomLoad, hex4_of_word, hexPairs_append, h]

theorem argRead_readPayload {p : Params} (h : radixOk p = true) (a : Addr) (n : Nat) :
    argRead p (readPayload p (.ok (a, n))) = .ok (a, n) := by
  simp only [radixOk, Bool.and_eq_true, decide_eq_true_eq] at h
  simp [readPayload, wordToHex4, argRead, hex4_of_word, parseNumeral_numeral h.1 h.2]

/-- A rejected read-back payload is rejected so again. -/
theorem argRead_bad {p : Params} (h : radixOk p = true) {c : Cause} (hc : hexCause c = true) :
    argRead p (readPayload p (.bad c)) = .bad c := by
  simp only [radixOk, Bool.and_eq_true, decide_eq_true_eq] at h
  have h0 : digitVal ch0 = some 0 := by decide
  have h1 : hex4 chBad ch0 ch0 ch0 = none := by decide
  have h2 : 0 < p.countRadix := by omega
  cases c <;> simp [hexCause] at hc
  · simp [argRead, readPayload, parseNumeral, numeralValue, h0, h1, h2]
  · rfl

/-- An action outside its kind's table (rule R101). -/
theorem dispatch_unknown {p : Params} {k : Kind} {action : List Byte} (payload : List Byte)
    (h : knownAction k action = false) : dispatch p k action payload = .unknownAction k action := by
  cases k <;> simp_all [knownAction, dispatch, dispatchMessage, dispatchRequest]

end Sys2Proof
end

