-- ==== Sys2Proof/Laws/PerInstr.lean ====
section
/-! SUPPORT. For every instruction: the selector it encodes to, if it has one, decodes to it (rules R80, R83). -/

/-- An instruction with a selector is the one the decoder reads from that selector. -/
def Sys2Proof.Laws.SelectorRoundTrip.Statement : Sys2Proof.Instr → Prop :=
  fun i => ∀ w, Sys2Proof.encodeSelector i = some w → Sys2Proof.decodeSelector w = .ok i

namespace Sys2Proof.Laws.SelectorRoundTrip

theorem eIdlePoll : Statement .eIdlePoll := by intro w h; cases h; rfl
theorem eAcqLo : Statement .eAcqLo := by intro w h; cases h; rfl
theorem eAcqHi : Statement .eAcqHi := by intro w h; cases h; rfl
theorem eDataWr : Statement .eDataWr := by intro w h; cases h; rfl
theorem eDataRd : Statement .eDataRd := by intro w h; cases h; rfl
theorem eClkFall : Statement .eClkFall := by intro w h; cases h; rfl
theorem clock0 : Statement .clock0 := by intro w h; cases h
theorem clock1 : Statement .clock1 := by intro w h; cases h
theorem clockOther (payload : List Byte) : Statement (.clockOther payload) := by intro w h; cases h
theorem clockPulse : Statement .clockPulse := by intro w h; cases h
theorem reset : Statement .reset := by intro w h; cases h
theorem resetRelease : Statement .resetRelease := by intro w h; cases h
theorem settTick (x : Arg Nat) : Statement (.settTick x) := by intro w h; cases h
theorem rom (x : Arg (Addr × Byte)) : Statement (.rom x) := by intro w h; cases h
theorem romlw (x : Arg RomLoad) : Statement (.romlw x) := by intro w h; cases h
theorem ramclr : Statement .ramclr := by intro w h; cases h
theorem ramlr (x : Arg (Addr × Nat)) : Statement (.ramlr x) := by intro w h; cases h
theorem romlr (x : Arg (Addr × Nat)) : Statement (.romlr x) := by intro w h; cases h
theorem awake : Statement .awake := by intro w h; cases h
theorem sett (x : Arg (SettKey × List Byte)) : Statement (.sett x) := by intro w h; cases h
theorem setting (x : Arg SettKey) : Statement (.setting x) := by intro w h; cases h
theorem save : Statement .save := by intro w h; cases h
theorem error (code : Int) : Statement (.error code) := by intro w h; cases h
theorem unknownAction (kind : Kind) (action : List Byte) : Statement (.unknownAction kind action) := by intro w h; cases h

end Sys2Proof.Laws.SelectorRoundTrip
end

