-- ==== Sys2Proof/Laws/Step.lean ====
section
/-! SUPPORT. What a step can do, said once: what no host operation touches, what every operation keeps of the banks, and how an
atomic step of a command leaves HOST. -/

namespace Sys2Proof.Machine

/-- No operation of HOST touches the engine's latches and pins, the parameters or the inputs (rule R204). -/
theorem exec_host_frame {i : Instr} {s t : State} (h : isEngineOp i = false) (e : exec i s = .next t) :
    sameLatches s t ∧ (t.alEn = s.alEn ∧ t.ahEn = s.ahEn ∧ t.dEn = s.dEn ∧ t.clk = s.clk ∧ t.dpDir = s.dpDir)
      ∧ sameInputs s t := by
  cases i <;> simp only [isEngineOp, Bool.true_eq_false] at h <;>
    simp only [exec, execClock0, execClock1, execClockOther, execClockPulse, execReset, execResetRelease, execSettTick,
      execRom, execRomlw, execRamclr, execRamlr, execRomlr, execAwake, execSett, execSetting, execSave, execError,
      execUnknownAction, State.readBackStep, State.readBack, State.romlwWrite, State.ramclrWrite] at e <;>
    (repeat' split at e) <;> cases e <;> (try obtain ⟨-, rfl⟩ := State.bankWrite_some ‹_›) <;>
    simp [sameLatches, sameInputs, State.leaseSave, State.leaseForce, State.leaseWait, State.bankWrite_eq]
  split <;> simp

/-- An operation with a `pre:` line answers a next state only when that line holds (rule R118). -/
theorem next_of_pre {P : Prop} [Decidable P] {x t : State}
    (h : (if P then .next x else .fault .preconditionFailed : Result) = .next t) : P ∧ t = x := by
  split at h
  · cases h; exact ⟨‹_›, rfl⟩
  · cases h

/-- No engine operation touches what is HOST's, the fields of Control State the engine only reads, the parameters or the
turns to come (rule R204). -/
theorem exec_engine_frame {i : Instr} {s t : State} (h : isEngineOp i = true) (e : exec i s = .next t) : engineFrame s t := by
  cases i <;> simp only [isEngineOp, Bool.false_eq_true] at h <;> obtain ⟨-, rfl⟩ := next_of_pre e
  case eIdlePoll => cases s.clockEnabled <;> simp [engineFrame, sameHost, sameSettings]
  all_goals simp [engineFrame, sameHost, sameSettings, State.acqLoPins]

theorem memoryOk_congr {s t : State} (h1 : t.ram = s.ram) (h2 : t.rom = s.rom) (h3 : t.cfg = s.cfg) (h : memoryOk s = true) :
    memoryOk t = true := by
  simp only [memoryOk, h1, h2, h3] at *; exact h

/-- A cell write in range keeps the canonical form of both banks. -/
theorem memoryOk_setCell {s : State} {b : Bank} {a : Nat} (v : Byte) (ha : a < s.bankLen b) (h : memoryOk s = true) :
    memoryOk (s.setCell b a v) = true := by
  simp only [memoryOk, Bool.and_eq_true] at *
  cases b
  · exact ⟨Memory.wf_set v h.1 ha, h.2⟩
  · exact ⟨h.1, Memory.wf_set v h.2 ha⟩

/-- A shadow write keeps the canonical form of both banks. -/
theorem memoryOk_shadow {s : State} (a : Addr) (v : Byte) (h : memoryOk s = true) : memoryOk (s.shadow a v) = true := by
  unfold State.shadow
  rw [State.bankWrite_eq]
  split
  · exact memoryOk_setCell v ‹_› h
  · exact h

/-- No operation changes the parameters. -/
theorem exec_cfg {i : Instr} {s t : State} (e : exec i s = .next t) : t.cfg = s.cfg := by
  by_cases h : isEngineOp i = true
  · exact (exec_engine_frame h e).2.2.2.2.1
  · exact (exec_host_frame (Bool.eq_false_iff.2 h) e).2.2.1

/-- A read-back writes no cell. -/
theorem readBack_banks {x : Arg (Addr × Nat)} {s t : State} {b : Bank} {i : Arg (Addr × Nat) → Instr} {action : List Byte}
    (e : (.next (match x with
      | .bad c => s.raise c
      | .ok (a, n) => s.readBackStep b (i (.ok (a, n))) action a.toNat n) : Result) = .next t) :
    t.ram = s.ram ∧ t.rom = s.rom := by
  simp only [State.readBackStep, State.readBack] at e
  (repeat' split at e) <;> cases e <;> exact ⟨rfl, rfl⟩

/-- The operations that write no cell: all but `E_DATA_WR`, `ROM`, `ROMLW` and `RAMCLR` (rule R206). -/
theorem exec_banks {i : Instr} {s t : State} (h1 : i ≠ .eDataWr) (h2 : ∀ x, i ≠ .rom x) (h3 : ∀ x, i ≠ .romlw x)
    (h4 : i ≠ .ramclr) (e : exec i s = .next t) : t.ram = s.ram ∧ t.rom = s.rom := by
  by_cases h : isEngineOp i = true
  · cases i <;> simp only [isEngineOp, Bool.false_eq_true] at h <;> obtain ⟨-, rfl⟩ := next_of_pre e
    case eIdlePoll => cases s.clockEnabled <;> exact ⟨rfl, rfl⟩
    case eDataWr => exact absurd rfl h1
    all_goals simp [State.acqLoPins]
  · cases i <;> simp only [isEngineOp, not_true_eq_false] at h
    case rom x => exact absurd rfl (h2 x)
    case romlw x => exact absurd rfl (h3 x)
    case ramclr => exact absurd rfl h4
    case ramlr x => exact readBack_banks e
    case romlr x => exact readBack_banks e
    all_goals
      simp only [exec, execClock0, execClock1, execClockOther, execClockPulse, execReset, execResetRelease, execSettTick,
        execAwake, execSett, execSetting, execSave, execError, execUnknownAction] at e
      (repeat' split at e) <;> cases e <;> exact ⟨rfl, rfl⟩

/-- What a step of `ROM` or `ROMLW` can do to the banks: one ROM cell in range, or nothing (rules R163, R164). -/
theorem exec_rom_banks {i : Instr} {s t : State} (h : (∃ x, i = .rom x) ∨ ∃ x, i = .romlw x) (e : exec i s = .next t) :
    (t.ram = s.ram ∧ t.rom = s.rom)
      ∨ ∃ a v, a < s.cfg.romLen ∧ t.ram = s.ram ∧ t.rom = (s.setCell .rom a v).rom := by
  obtain ⟨x, rfl⟩ | ⟨x, rfl⟩ := h <;> simp only [exec, execRom, execRomlw, State.romlwWrite] at e <;>
    (repeat' split at e) <;> cases e <;>
    first
      | (obtain ⟨hb, rfl⟩ := State.bankWrite_some ‹_›; exact .inr ⟨_, _, hb, rfl, rfl⟩)
      | exact .inl ⟨rfl, rfl⟩
      | (left; simp)

/-- What a step of `RAMCLR` can do to the banks: zero in one RAM cell in range, or nothing (rules R58, R165). -/
theorem exec_ramclr_banks {s t : State} (e : exec .ramclr s = .next t) :
    (t.ram = s.ram ∧ t.rom = s.rom)
      ∨ ∃ k, s.pos = .body k ∧ k < s.cfg.ramLen ∧ t.ram = (s.setCell .ram k 0x00#8).ram ∧ t.rom = s.rom := by
  simp only [exec, execRamclr, State.ramclrWrite] at e
  split at e <;> cases e
  · exact .inl ⟨rfl, rfl⟩
  · exact .inl ⟨rfl, rfl⟩
  · rw [State.bankWrite_eq]
    split
    · exact .inr ⟨_, ‹_›, ‹_›, rfl, rfl⟩
    · exact .inl ⟨rfl, rfl⟩
  · left; simp
  · exact .inl ⟨rfl, rfl⟩

/-- Every operation keeps the canonical form of both banks. -/
theorem exec_memoryOk {i : Instr} {s t : State} (h : memoryOk s = true) (e : exec i s = .next t) : memoryOk t = true := by
  have hc := exec_cfg e
  by_cases h1 : i = .eDataWr
  · subst h1
    obtain ⟨-, rfl⟩ := next_of_pre e
    exact memoryOk_shadow _ _ (memoryOk_congr (s := s) rfl rfl rfl h)
  by_cases h2 : (∃ x, i = .rom x) ∨ ∃ x, i = .romlw x
  · obtain ⟨hr, hr'⟩ | ⟨a, v, ha, hr, hr'⟩ := exec_rom_banks h2 e
    · exact memoryOk_congr hr hr' hc h
    · exact memoryOk_congr (s := s.setCell .rom a v) hr hr' hc (memoryOk_setCell v ha h)
  by_cases h3 : i = .ramclr
  · subst h3
    obtain ⟨hr, hr'⟩ | ⟨k, -, hk, hr, hr'⟩ := exec_ramclr_banks e
    · exact memoryOk_congr hr hr' hc h
    · exact memoryOk_congr (s := s.setCell .ram k 0x00#8) hr hr' hc (memoryOk_setCell _ hk h)
  · obtain ⟨hr, hr'⟩ := exec_banks h1 (fun x hx => h2 (.inl ⟨x, hx⟩)) (fun x hx => h2 (.inr ⟨x, hx⟩)) h3 e
    exact memoryOk_congr hr hr' hc h

/-- In canonical form every cell has its width (rule R59). -/
theorem cut_cell {s : State} (h : memoryOk s = true) (b : Bank) (a : Nat) : s.cfg.cut (s.cell b a) = s.cell b a := by
  simp only [memoryOk, Bool.and_eq_true] at h
  cases b <;> simp only [State.cell, State.bank]
  · cases hg : s.ram.get a
    · exact s.cfg.cut_cut _
    · exact Memory.cut_get h.1 hg
  · cases hg : s.rom.get a
    · exact s.cfg.cut_cut _
    · exact Memory.cut_get h.2 hg

/-- The byte served has the data path's width (rule R117). -/
theorem cut_readMux {s : State} (h : memoryOk s = true) (a : Addr) : s.cfg.cut (s.readMux a) = s.readMux a := by
  rw [State.readMux_eq]
  split
  · exact cut_cell h _ _
  · split
    · exact cut_cell h _ _
    · exact s.cfg.cut_cut _

theorem widthOk_congr {s t : State} (h : sameLatches s t) (hc : t.cfg = s.cfg) (hw : widthOk s = true) : widthOk t = true := by
  obtain ⟨-, h1, h2, -, h3, h4⟩ := h
  simp only [widthOk, h1, h2, h3, h4, hc] at *; exact hw

/-- Every operation keeps the widths of the latches and the Bus Sample. -/
theorem exec_widthOk {i : Instr} {s t : State} (h : widthOk s = true) (hm : memoryOk s = true) (e : exec i s = .next t) :
    widthOk t = true := by
  by_cases hi : isEngineOp i = true
  · have hr := cut_readMux hm (busAddr s.cfg s.ah s.al)
    cases i <;> simp only [isEngineOp, Bool.false_eq_true] at hi <;> obtain ⟨-, rfl⟩ := next_of_pre e
    case eIdlePoll => cases s.clockEnabled <;> exact h
    all_goals simp_all [widthOk, State.sampled, State.acqLoPins]
  · obtain ⟨hl, -, hn⟩ := exec_host_frame (Bool.eq_false_iff.2 hi) e
    exact widthOk_congr hl hn.1 h

/-- How an atomic step of the command HOST runs leaves HOST: at the end, the lease given back and the parser clear, or at
another position of the same command with the lease as that position asks (rules R86, R94, R161, R162). -/
theorem exec_command {i : Instr} {s t : State} (hc : isCommand i = true) (hp : posOk s.cfg i s.pos = true)
    (hl : leaseOk s = true) (e : exec i s = .next t) :
    (t.cmd = none ∧ t.pos = .start ∧ t.parser = s.parser.clear ∧ t.leaseSaved = none)
      ∨ (t.cmd = some i ∧ posOk s.cfg i t.pos = true ∧ t.parser = s.parser ∧ leaseOk t = true) := by
  cases i <;> simp only [isCommand, isEngineOp, Bool.not_true, Bool.false_and, Bool.false_eq_true] at hc <;>
    simp only [exec, execClock0, execClock1, execClockOther, execClockPulse, execReset, execResetRelease, execSettTick,
      execRom, execRomlw, execRamclr, execRamlr, execRomlr, execAwake, execSett, execSetting, execSave, execError,
      execUnknownAction, State.readBackStep, State.readBack, State.romlwWrite, State.ramclrWrite] at e <;>
    (repeat' split at e) <;> cases e <;> (try obtain ⟨-, rfl⟩ := State.bankWrite_some ‹_›) <;>
    cases hpos : s.pos <;>
    simp_all [posOk, leaseOk, State.leaseSave, State.leaseForce, State.leaseWait, State.bankWrite_eq, romlwPos, ramclrPos]
  · rename RomLoad => d
    by_cases h0 : s.phase = .idle <;> by_cases h1 : 0 < d.data.length <;> simp [h0, h1]
  · rename RomLoad => d
    rename_i k _ _ _ _ _ _ _ _
    by_cases h1 : k + 1 < d.data.length <;> simp [h1]
  · by_cases h0 : s.phase = .idle <;> by_cases h1 : 0 < s.cfg.ramLen <;> simp [h0, h1]
  · rename_i k _ _
    by_cases h0 : k < s.bankLen .ram <;> by_cases h1 : k + 1 < s.cfg.ramLen <;> simp [h0, h1, hl]
  all_goals assumption

/-- A raised error inside a command is the rejection the rules give (rules R103, R202). -/
theorem rejectedFor_raise (s : State) (c : Cause) : rejectedFor c s (s.raise c) := by
  refine ⟨⟨rfl, rfl, rfl, rfl⟩, ?_, ?_, sameMemory_of_banks rfl rfl rfl, ⟨rfl, rfl⟩, rfl⟩
  · simp [hostFrame, sameLatches, samePins, sameInputs, State.raise, State.sendError]
  · simp [sameControl]

end Sys2Proof.Machine
end

