-- ==== Sys2Proof/Laws/Schedule.lean ====
section
/-! SUPPORT. Runs under a schedule: a step with the choice of the agent made, runs cut in two, and the one induction over a fair
schedule. -/

namespace Sys2Proof.Machine

@[simp] theorem State.popTurn_cons (a : Turn) (s : State) : ({ s with turns := a :: s.turns } : State).popTurn = s := rfl

/-- What a step does once the agent is chosen, on the state itself (rules R14, R61). -/
theorem stepAs_eq (a : Turn) (s : State) :
    stepAs a s =
      match (match a with
        | .engine => s.fetchEngine
        | .host => s.fetchHost
        | .release => s.fetchRelease) with
      | .run i => exec i s
      | .poll => .next s.pollLink
      | .pass => .next s
      | .stuck => .fault .noEngineOperation := by
  cases a <;> rfl

/-- `step` is the step of the agent whose turn it finds, on the state after the choice (log entry 10). -/
theorem step_eq_stepAs (s : State) : step s = stepAs s.turn s.popTurn := by
  rw [stepAs_eq]; rfl

/-- `m + n` steps are `n` steps after `m`. -/
theorem runUnder_add (m n : Nat) {σ : Nat → Turn} {s t : State} (h : runUnder σ m s = .next t) :
    runUnder σ (m + n) s = runUnder (fun k => σ (m + k)) n t := by
  induction m generalizing s σ with
  | zero => cases h; simp only [Nat.zero_add]
  | succ m ih =>
    rw [Nat.succ_add]
    simp only [runUnder] at h ⊢
    split at h
    · rw [ih h]; simp only [Nat.succ_add]
    · cases h
    · cases h

/-- What is left of a fair schedule is fair. -/
theorem FairSchedule.drop {σ : Nat → Turn} (h : FairSchedule σ) (m : Nat) : FairSchedule fun k => σ (m + k) := by
  intro n
  obtain ⟨⟨a, ha, ha'⟩, b, hb, hb'⟩ := h (m + n)
  exact ⟨⟨a - m, by omega, by simpa [show m + (a - m) = a by omega] using ha'⟩,
    b - m, by omega, by simpa [show m + (b - m) = b by omega] using hb'⟩

/-- An agent of a fair schedule has a step to come. -/
theorem FairSchedule.next {σ : Nat → Turn} (h : FairSchedule σ) {a : Turn} (ha : a ≠ .release) : ∃ m, σ m = a := by
  obtain ⟨⟨m, -, hm⟩, n, -, hn⟩ := h 0
  cases a
  · exact ⟨m, hm⟩
  · exact ⟨n, hn⟩
  · exact absurd rfl ha

/-- The one induction over a fair schedule (rule R242): while the goal is not reached, the agent `who` names brings the measure
`mu` down with its next step, and a step of another agent brings it down too or leaves both as they are. -/
theorem FairSchedule.reaches {P G : State → Prop} (mu : State → Nat) (who : State → Turn)
    (hwho : ∀ s, who s ≠ .release)
    (hstep : ∀ a s, P s → ¬G s → ∃ t, stepAs a s = .next t ∧ P t ∧ (mu t < mu s ∨ (mu t = mu s ∧ who t = who s ∧ a ≠ who s)))
    {σ : Nat → Turn} (h : FairSchedule σ) {s : State} (hs : P s) : ∃ n t, runUnder σ n s = .next t ∧ P t ∧ G t := by
  obtain ⟨m, hm⟩ : ∃ m, σ m = who s := h.next (hwho s)
  generalize hk : mu s = k
  induction k using Nat.strong_induction_on generalizing s σ m with
  | _ k ihk =>
    induction m generalizing s σ with
    | zero =>
      by_cases hg : G s
      · exact ⟨0, s, rfl, hs, hg⟩
      · obtain ⟨t, ht, hp, hmu | ⟨-, -, ha⟩⟩ := hstep (σ 0) s hs hg
        · have hf := h.drop 1
          obtain ⟨m', hm'⟩ := hf.next (hwho t)
          obtain ⟨n, u, hu, hu'⟩ := ihk (mu t) (hk ▸ hmu) hf hp m' hm' rfl
          refine ⟨1 + n, u, ?_, hu'⟩
          rw [runUnder_add 1 n (t := t) (by simp only [runUnder, ht])]; exact hu
        · exact absurd hm ha
    | succ m ih =>
      by_cases hg : G s
      · exact ⟨0, s, rfl, hs, hg⟩
      · obtain ⟨t, ht, hp, hmu⟩ := hstep (σ 0) s hs hg
        have hf := h.drop 1
        have one : runUnder σ 1 s = .next t := by simp only [runUnder, ht]
        suffices ∃ n u, runUnder (fun k => σ (1 + k)) n t = .next u ∧ P u ∧ G u by
          obtain ⟨n, u, hu, hu'⟩ := this
          exact ⟨1 + n, u, by rw [runUnder_add 1 n one]; exact hu, hu'⟩
        obtain hmu | ⟨hmu, hw, -⟩ := hmu
        · obtain ⟨m', hm'⟩ := hf.next (hwho t)
          exact ihk (mu t) (hk ▸ hmu) hf hp m' hm' rfl
        · exact ih hf hp (by rw [hw, ← hm, Nat.add_comm]) (hmu.trans hk)

end Sys2Proof.Machine
end

