-- ==== Sys2Proof/Laws/Trace.lean ====
section
/-! SUPPORT. Pin traces and runs: the clock events a pin write adds, runs cut in two, the engine at rest in `Idle`. -/

namespace Sys2Proof.Machine

@[simp] theorem clockEvents_append (t u : List (List PinEvent)) : clockEvents (t ++ u) = clockEvents t ++ clockEvents u := by
  simp [clockEvents]

theorem clockEvents_noteEvents (t : List (List PinEvent)) (es : List PinEvent) :
    clockEvents (noteEvents t es) = clockEvents t ++ clockEvents [es] := by
  unfold noteEvents
  split
  · subst_vars; exact (List.append_nil _).symm
  · exact clockEvents_append t [es]

/-- A write of another pin is no clock event. -/
theorem clockEvents_pinChange (old v : Bool) {e : PinEvent} (h : ∀ w, e ≠ .clk w) : clockEvents [pinChange old v e] = [] := by
  unfold pinChange
  split
  · rfl
  · cases e <;> first | rfl | exact absurd rfl (h _)

/-- The rise of the clock, with or without the data enable's (rules R114, R115). -/
theorem clockEvents_rise (dEn clk : Bool) (h : clk = false) :
    clockEvents [pinChange dEn true (.dEn true) ++ pinChange clk true (.clk true)] = [true] := by
  subst h; cases dEn <;> rfl

/-- The fall of the clock (rule R116). -/
theorem clockEvents_fall (clk : Bool) (h : clk = true) : clockEvents [pinChange clk false (.clk false)] = [false] := by
  subst h; rfl

/-- `m + n` steps are `n` steps after `m`. -/
theorem execTimes_add (i : Instr) (m n : Nat) {s t : State} (h : execTimes i m s = .next t) :
    execTimes i (m + n) s = execTimes i n t := by
  induction m generalizing s with
  | zero => cases h; rw [Nat.zero_add]
  | succ m ih =>
    rw [Nat.succ_add]
    simp only [execTimes] at h ⊢
    split at h
    · exact ih h
    · cases h
    · cases h

@[simp] theorem execTimes_one (i : Instr) (s : State) : execTimes i 1 s = exec i s := by
  simp only [execTimes]; split <;> simp_all

/-- A single engine operation, when the selector names it. -/
theorem engineRun_succ {s : State} {i : Instr} (h : decodeSelector (selector s.phase s.clk s.dir) = .ok i) (n : Nat) {t : State}
    (ht : exec i s = .next t) : engineRun (n + 1) s = engineRun n t := by
  simp only [engineRun, engineStep, State.fetchEngine, h, ht]

/-- The engine at rest: in `Idle` with the clock disabled it does nothing (rules R111, R124). -/
theorem engineRun_idle {s : State} (h : s.phase = .idle) (h' : s.clockEnabled = false) (hk : s.clk = false) (m : Nat) :
    engineRun m s = .next s := by
  induction m with
  | zero => rfl
  | succ m ih =>
    have hs : decodeSelector (selector s.phase s.clk s.dir) = .ok .eIdlePoll := by
      rw [h, hk]; cases s.dir <;> rfl
    rw [engineRun_succ hs m (t := s), ih]
    rw [exec_eIdlePoll h, h']
    rfl

end Sys2Proof.Machine
end

