-- ==== Sys2Proof/Tests/Slice0.lean ====
section
/-! SUPPORT. Tests: the check on instructions refuses ill-formed terms, words written out from the spec's encodings decode, one
step per instruction from the vectors of `95_test_vectors.md`, and a witness for the hypotheses of each statement. -/

namespace Sys2Proof.Tests

open Sys2Proof.Machine

/-! ### Helpers -/

/-- The listed defaults, with a number of the test's own for each open parameter. -/
def cfg : Params :=
  { Params.default with
    headerCap := 32, errMalformedHeader := -3, errOutOfRange := -4, errInvalidDigit := -5, errBadArgument := -6
    countRadix := 10, tSettle := 3, initResetAsserted := false, releasePolicy := .anyTime }

/-- The start-up state with zeros for the unspecified values. -/
def base : State :=
  { State.startUp cfg with
    al := 0, ah := 0, dir := .cpuRead, dout := 0, bs := ⟨0, .cpuRead, 0⟩, singleStep := false, clockPeriodHint := 0
    settings := ⟨[], [], []⟩ }

/-- The bytes of a list of numbers. -/
def bytes (l : List Nat) : List Byte := l.map (BitVec.ofNat 8)

/-- `exec` answers a next state that passes a check. -/
def after (i : Instr) (s : State) (p : State → Bool) : Bool :=
  match exec i s with
  | .next t => p t
  | _ => false

/-- `step` answers a next state that passes a check. -/
def afterStep (s : State) (p : State → Bool) : Bool :=
  match step s with
  | .next t => p t
  | _ => false

/-- The pins `AL AH D CLK DIR`, as section 3 of the vectors writes them. -/
def pins (s : State) : List Bool := [s.alEn, s.ahEn, s.dEn, s.clk, s.dpDir]

/-! ### WellFormed: an ill-formed term for each check -/

theorem test_illFormed_clockOther_zero : WellFormed cfg (.clockOther [0x30#8]) = false := by decide
theorem test_illFormed_clockOther_one : WellFormed cfg (.clockOther [0x31#8]) = false := by decide
theorem test_illFormed_tick_cause : WellFormed cfg (.settTick (.bad .outOfRange)) = false := by decide
theorem test_illFormed_rom_cause : WellFormed cfg (.rom (.bad .outOfRange)) = false := by decide
theorem test_illFormed_romlw_cause : WellFormed cfg (.romlw (.bad .frameTooLarge)) = false := by decide
theorem test_illFormed_ramlr_cause : WellFormed cfg (.ramlr (.bad .unknownAction)) = false := by decide
theorem test_illFormed_romlr_cause : WellFormed cfg (.romlr (.bad .malformedHeader)) = false := by decide
theorem test_illFormed_radix_low : WellFormed { cfg with countRadix := 1 } (.ramlr (.ok (0#16, 0))) = false := by decide
theorem test_illFormed_radix_high : WellFormed { cfg with countRadix := 17 } (.romlr (.ok (0#16, 0))) = false := by decide
theorem test_illFormed_sett_tick : WellFormed cfg (.sett (.ok (.tick, []))) = false := by decide
theorem test_illFormed_sett_cause : WellFormed cfg (.sett (.bad .invalidDigit)) = false := by decide
theorem test_illFormed_setting_cause : WellFormed cfg (.setting (.bad .invalidDigit)) = false := by decide
theorem test_illFormed_unknown_known : WellFormed cfg (.unknownAction .request kwReset) = false := by decide
theorem test_illFormed_unknown_comma : WellFormed cfg (.unknownAction .message [0x2C#8]) = false := by decide
theorem test_illFormed_payload_cap : WellFormed { cfg with payloadCap := 6 } (.rom (.ok (0#16, 0#8))) = false := by decide
theorem test_illFormed_header_cap : WellFormed { cfg with headerCap := 11 } .clockPulse = false := by decide
theorem test_illFormed_preempt : WellFormed { cfg with preemptInPayload := true } (.sett (.ok (.name, [0x3F#8]))) = false := by decide

/-- The same three limits just kept. -/
theorem test_wellFormed_at_limits :
    WellFormed { cfg with payloadCap := 7 } (.rom (.ok (0#16, 0#8))) = true
    ∧ WellFormed { cfg with headerCap := 12 } .clockPulse = true
    ∧ WellFormed cfg (.sett (.ok (.name, [0x3F#8]))) = true := by decide

/-! ### Decoding: one word per constructor, from rules R80, R84, R85 and R100 -/

theorem test_decode_eIdlePoll : decodeSelector 0b0001#4 = .ok .eIdlePoll := by decide
theorem test_decode_eAcqLo : decodeSelector 0b0100#4 = .ok .eAcqLo := by decide
theorem test_decode_eAcqHi : decodeSelector 0b1001#4 = .ok .eAcqHi := by decide
theorem test_decode_eDataWr : decodeSelector 0b1100#4 = .ok .eDataWr := by decide
theorem test_decode_eDataRd : decodeSelector 0b1101#4 = .ok .eDataRd := by decide
theorem test_decode_eClkFall : decodeSelector 0b1110#4 = .ok .eClkFall := by decide
/-- Rule R81. -/
theorem test_decode_unreachable :
    decodeSelector 0b0010#4 = .error .unreachableSelector ∧ decodeSelector 0b0111#4 = .error .unreachableSelector
    ∧ decodeSelector 0b1010#4 = .error .unreachableSelector := by decide

/-- `?{CLOCK,1}0`: TC1. -/
theorem test_decode_clock0 :
    decodeFrame cfg (bytes [0x3F, 0x7B, 0x43, 0x4C, 0x4F, 0x43, 0x4B, 0x2C, 0x31, 0x7D, 0x30])
      = .ok (.clock0, []) := by decide
/-- `?{CLOCK,1}1`: TC2. -/
theorem test_decode_clock1 :
    decodeFrame cfg (bytes [0x3F, 0x7B, 0x43, 0x4C, 0x4F, 0x43, 0x4B, 0x2C, 0x31, 0x7D, 0x31])
      = .ok (.clock1, []) := by decide
/-- `?{CLOCK,0}`: TC8. -/
theorem test_decode_clockOther :
    decodeFrame cfg (bytes [0x3F, 0x7B, 0x43, 0x4C, 0x4F, 0x43, 0x4B, 0x2C, 0x30, 0x7D])
      = .ok ((.clockOther []), []) := by decide
/-- `?{CLOCKPULSE,0}`: TC3. -/
theorem test_decode_clockPulse :
    decodeFrame cfg (bytes [0x3F, 0x7B, 0x43, 0x4C, 0x4F, 0x43, 0x4B, 0x50, 0x55, 0x4C, 0x53, 0x45, 0x2C, 0x30, 0x7D])
      = .ok (.clockPulse, []) := by decide
/-- `?{RESET,0}`: TC4. -/
theorem test_decode_reset :
    decodeFrame cfg (bytes [0x3F, 0x7B, 0x52, 0x45, 0x53, 0x45, 0x54, 0x2C, 0x30, 0x7D])
      = .ok (.reset, []) := by decide
/-- `?{SETT,8}TICK,100`: TC6. -/
theorem test_decode_settTick :
    decodeFrame cfg (bytes [0x3F, 0x7B, 0x53, 0x45, 0x54, 0x54, 0x2C, 0x38, 0x7D, 0x54, 0x49, 0x43, 0x4B, 0x2C, 0x31, 0x30, 0x30])
      = .ok ((.settTick (.ok 100)), []) := by decide
/-- `?{ROM,7}0200,ea`: TM2. -/
theorem test_decode_rom :
    decodeFrame cfg (bytes [0x3F, 0x7B, 0x52, 0x4F, 0x4D, 0x2C, 0x37, 0x7D, 0x30, 0x32, 0x30, 0x30, 0x2C, 0x65, 0x61])
      = .ok ((.rom (.ok (0x0200#16, 0xEA#8))), []) := by decide
/-- `?{ROM,7}02G0,EA`: TM4. -/
theorem test_decode_rom_badDigit :
    decodeFrame cfg (bytes [0x3F, 0x7B, 0x52, 0x4F, 0x4D, 0x2C, 0x37, 0x7D, 0x30, 0x32, 0x47, 0x30, 0x2C, 0x45, 0x41])
      = .ok ((.rom (.bad .invalidDigit)), []) := by decide
/-- `?{ROM,6}0200,E`: TM5. -/
theorem test_decode_rom_badShape :
    decodeFrame cfg (bytes [0x3F, 0x7B, 0x52, 0x4F, 0x4D, 0x2C, 0x36, 0x7D, 0x30, 0x32, 0x30, 0x30, 0x2C, 0x45])
      = .ok ((.rom (.bad .badArgument)), []) := by decide
/-- `!{ROMLW,9}0200,A9EA`: TM6. -/
theorem test_decode_romlw :
    decodeFrame cfg (bytes [0x21, 0x7B, 0x52, 0x4F, 0x4D, 0x4C, 0x57, 0x2C, 0x39, 0x7D, 0x30, 0x32, 0x30, 0x30, 0x2C, 0x41, 0x39, 0x45, 0x41])
      = .ok ((.romlw (.ok ⟨0x0200#16, [0xA9#8, 0xEA#8], true⟩)), []) := by decide
/-- `!{ROMLW,5}0200,`: TM7. -/
theorem test_decode_romlw_empty :
    decodeFrame cfg (bytes [0x21, 0x7B, 0x52, 0x4F, 0x4D, 0x4C, 0x57, 0x2C, 0x35, 0x7D, 0x30, 0x32, 0x30, 0x30, 0x2C])
      = .ok ((.romlw (.ok ⟨0x0200#16, [], true⟩)), []) := by decide
/-- `!{ROMLW,10}0200,A9EAB`: TM9. -/
theorem test_decode_romlw_loneDigit :
    decodeFrame cfg (bytes [0x21, 0x7B, 0x52, 0x4F, 0x4D, 0x4C, 0x57, 0x2C, 0x31, 0x30, 0x7D, 0x30, 0x32, 0x30, 0x30, 0x2C, 0x41, 0x39, 0x45, 0x41, 0x42])
      = .ok ((.romlw (.ok ⟨0x0200#16, [0xA9#8, 0xEA#8], false⟩)), []) := by decide
/-- `!{ROMLW,9}0200,A9ZZ`: TM10. -/
theorem test_decode_romlw_badPair :
    decodeFrame cfg (bytes [0x21, 0x7B, 0x52, 0x4F, 0x4D, 0x4C, 0x57, 0x2C, 0x39, 0x7D, 0x30, 0x32, 0x30, 0x30, 0x2C, 0x41, 0x39, 0x5A, 0x5A])
      = .ok ((.romlw (.ok ⟨0x0200#16, [0xA9#8], false⟩)), []) := by decide
/-- `!{ROMLW,4}0200`: TM11. -/
theorem test_decode_romlw_noComma :
    decodeFrame cfg (bytes [0x21, 0x7B, 0x52, 0x4F, 0x4D, 0x4C, 0x57, 0x2C, 0x34, 0x7D, 0x30, 0x32, 0x30, 0x30])
      = .ok ((.romlw (.bad .badArgument)), []) := by decide
/-- `!{RAMCLR,0}`: V3. -/
theorem test_decode_ramclr :
    decodeFrame cfg (bytes [0x21, 0x7B, 0x52, 0x41, 0x4D, 0x43, 0x4C, 0x52, 0x2C, 0x30, 0x7D])
      = .ok (.ramclr, []) := by decide
/-- `?{RAMLR,6}07FF,1`: TM13. -/
theorem test_decode_ramlr :
    decodeFrame cfg (bytes [0x3F, 0x7B, 0x52, 0x41, 0x4D, 0x4C, 0x52, 0x2C, 0x36, 0x7D, 0x30, 0x37, 0x46, 0x46, 0x2C, 0x31])
      = .ok ((.ramlr (.ok (0x07FF#16, 1))), []) := by decide
/-- `?{ROMLR,6}FFFF,2`: TM18. -/
theorem test_decode_romlr :
    decodeFrame cfg (bytes [0x3F, 0x7B, 0x52, 0x4F, 0x4D, 0x4C, 0x52, 0x2C, 0x36, 0x7D, 0x46, 0x46, 0x46, 0x46, 0x2C, 0x32])
      = .ok ((.romlr (.ok (0xFFFF#16, 2))), []) := by decide
/-- `?{AWAKE,0}`: TC11. -/
theorem test_decode_awake :
    decodeFrame cfg (bytes [0x3F, 0x7B, 0x41, 0x57, 0x41, 0x4B, 0x45, 0x2C, 0x30, 0x7D])
      = .ok (.awake, []) := by decide
/-- `?{SETT,9}BAUD,9600`: V6. -/
theorem test_decode_sett :
    decodeFrame cfg (bytes [0x3F, 0x7B, 0x53, 0x45, 0x54, 0x54, 0x2C, 0x39, 0x7D, 0x42, 0x41, 0x55, 0x44, 0x2C, 0x39, 0x36, 0x30, 0x30])
      = .ok ((.sett (.ok (.baud, bytes [0x39, 0x36, 0x30, 0x30]))), []) := by decide
/-- `?{SETTING,4}TICK`: TC12. -/
theorem test_decode_setting :
    decodeFrame cfg (bytes [0x3F, 0x7B, 0x53, 0x45, 0x54, 0x54, 0x49, 0x4E, 0x47, 0x2C, 0x34, 0x7D, 0x54, 0x49, 0x43, 0x4B])
      = .ok ((.setting (.ok .tick)), []) := by decide
/-- `?{SAVE,0}`: rule R184. -/
theorem test_decode_save :
    decodeFrame cfg (bytes [0x3F, 0x7B, 0x53, 0x41, 0x56, 0x45, 0x2C, 0x30, 0x7D])
      = .ok (.save, []) := by decide
/-- `?{BOGUS,0}`: V8. -/
theorem test_decode_unknownAction :
    decodeFrame cfg (bytes [0x3F, 0x7B, 0x42, 0x4F, 0x47, 0x55, 0x53, 0x2C, 0x30, 0x7D])
      = .ok ((.unknownAction .request (bytes [0x42, 0x4F, 0x47, 0x55, 0x53])), []) := by decide
/-- `!{CLOCK,1}1`: TC9. -/
theorem test_decode_wrongSentinel :
    decodeFrame cfg (bytes [0x21, 0x7B, 0x43, 0x4C, 0x4F, 0x43, 0x4B, 0x2C, 0x31, 0x7D, 0x31])
      = .ok ((.unknownAction .message kwClock), []) := by decide
/-- `!{ERROR,2}-1`: rule R102. -/
theorem test_decode_errorReceived :
    decodeFrame cfg (bytes [0x21, 0x7B, 0x45, 0x52, 0x52, 0x4F, 0x52, 0x2C, 0x32, 0x7D, 0x2D, 0x31])
      = .ok ((.unknownAction .message kwError), []) := by decide
/-- `xyz?{AWAKE,0}`: TF1. -/
theorem test_decode_strayBytes :
    decodeFrame cfg (bytes [0x78, 0x79, 0x7A, 0x3F, 0x7B, 0x41, 0x57, 0x41, 0x4B, 0x45, 0x2C, 0x30, 0x7D])
      = .ok (.awake, []) := by decide
/-- `!{ROM?{AWAKE,0}`: TF3. -/
theorem test_decode_preemptedHeader :
    decodeFrame cfg (bytes [0x21, 0x7B, 0x52, 0x4F, 0x4D, 0x3F, 0x7B, 0x41, 0x57, 0x41, 0x4B, 0x45, 0x2C, 0x30, 0x7D])
      = .ok (.awake, []) := by decide
/-- `?{SETT,6}NAME,?`: TF10. -/
theorem test_decode_sentinelInPayload :
    decodeFrame cfg (bytes [0x3F, 0x7B, 0x53, 0x45, 0x54, 0x54, 0x2C, 0x36, 0x7D, 0x4E, 0x41, 0x4D, 0x45, 0x2C, 0x3F])
      = .ok ((.sett (.ok (.name, [0x3F#8]))), []) := by decide
/-- `?{AWAKE}`: TF4. -/
theorem test_reject_noComma :
    decodeFrame cfg (bytes [0x3F, 0x7B, 0x41, 0x57, 0x41, 0x4B, 0x45, 0x7D]) = .error (.badHeader .malformedHeader) := by decide
/-- `?{AWAKE,}`: TF5. -/
theorem test_reject_emptyLength :
    decodeFrame cfg (bytes [0x3F, 0x7B, 0x41, 0x57, 0x41, 0x4B, 0x45, 0x2C, 0x7D]) = .error (.badHeader .malformedHeader) := by decide
/-- `?{AWAKE,x}`: TF6. -/
theorem test_reject_badLength :
    decodeFrame cfg (bytes [0x3F, 0x7B, 0x41, 0x57, 0x41, 0x4B, 0x45, 0x2C, 0x78, 0x7D]) = .error (.badHeader .malformedHeader) := by decide
/-- `!{ROMLW,513}`: TF8. -/
theorem test_reject_tooLarge :
    decodeFrame cfg (bytes [0x21, 0x7B, 0x52, 0x4F, 0x4D, 0x4C, 0x57, 0x2C, 0x35, 0x31, 0x33, 0x7D]) = .error (.badHeader .frameTooLarge) := by decide
/-- `!{ROMLW,512}`: TF7, before its payload. -/
theorem test_reject_atCap :
    decodeFrame cfg (bytes [0x21, 0x7B, 0x52, 0x4F, 0x4D, 0x4C, 0x57, 0x2C, 0x35, 0x31, 0x32, 0x7D]) = .error .incomplete := by decide
/-- `?x{AWAKE,0}`: TF2. -/
theorem test_reject_abandoned :
    decodeFrame cfg (bytes [0x3F, 0x78, 0x7B, 0x41, 0x57, 0x41, 0x4B, 0x45, 0x2C, 0x30, 0x7D]) = .error .incomplete := by decide

/-- The bytes of V7, as `decodeTableWord` numbers them. -/
theorem test_tableWord_rom : decodeTableWord 120 0x46462C303130307D372C4D4F527B3F = some (.rom (.ok (0x0010#16, 0xFF#8))) := by
  decide

/-- TH2, TH4, TH7, TH8, TH10. -/
theorem test_hexCodec :
    hex2 0x66#8 0x46#8 = some 0xFF#8 ∧ hex2 0x47#8 0x30#8 = none ∧ hex2 0x30#8 0x20#8 = none ∧ hex2 0x2D#8 0x31#8 = none
    ∧ hex4 0x30#8 0x37#8 0x66#8 0x46#8 = some 0x07FF#16 ∧ byteToHex2 0x0A#8 = bytes [0x30, 0x41]
    ∧ wordToHex4 0xABCD#16 = bytes [0x41, 0x42, 0x43, 0x44] := by decide

/-- The listed widths keep both latches whole (rules R24, R53); narrower ones, by hand from rule R8: four bits of a byte, and six
bits of the address that two latches of four bits make. -/
theorem test_widths :
    busAddr cfg 0x07#8 0xFF#8 = 0x07FF#16 ∧ cfg.cut 0xAB#8 = 0xAB#8
    ∧ ({ cfg with dataW := 4 } : Params).cut 0xAB#8 = 0x0B#8
    ∧ busAddr { cfg with dataW := 4, addrW := 6 } 0x07#8 0x0C#8 = 0x3C#16 := by decide

/-- TH11, TH12. -/
theorem test_lengthField :
    parseNumeral 10 (bytes [0x30, 0x30, 0x37]) = some 7 ∧ parseNumeral 10 [] = none
    ∧ parseNumeral 10 (bytes [0x31, 0x61]) = none ∧ parseNumeral 10 (bytes [0x20, 0x39]) = none
    ∧ parseNumeral 10 (bytes [0x2D, 0x31]) = none ∧ parseNumeral 10 (bytes [0x35, 0x2C, 0x36]) = none := by decide

/-! ### One step per instruction -/

/-- TE2. -/
theorem test_eIdlePoll :
    after .eIdlePoll { base with clockEnabled := true } (fun t => t.phase == .acqLo && t.pinTrace == []) = true := by decide
/-- TE1. -/
theorem test_eIdlePoll_disabled : exec .eIdlePoll base = .next base := rfl
/-- TE3. -/
theorem test_eAcqLo :
    after .eAcqLo { base with phase := .acqLo, samples := [⟨true, 0xFC#8⟩] } (fun t =>
      t.al == 0xFC#8 && t.dir == .cpuRead && t.phase == .acqHi && pins t == [true, false, false, false, false]
        && t.pinTrace == [[.alEn true]] && t.waits == [⟨1, 3⟩] && t.samples == []) = true := by decide
/-- TE4. -/
theorem test_eAcqLo_afterRead :
    after .eAcqLo { base with phase := .acqLo, dEn := true, dpDir := true, samples := [⟨false, 0x00#8⟩] } (fun t =>
      t.al == 0x00#8 && t.dir == .cpuWrite && pins t == [true, false, false, false, false]
        && t.pinTrace == [[.dpOff], [.dEn false], [.alEn true]]) = true := by decide
/-- TE6. -/
theorem test_eAcqHi :
    after .eAcqHi { base with phase := .acqHi, al := 0xFC#8, alEn := true, samples := [⟨false, 0xFF#8⟩] } (fun t =>
      busAddr t.cfg t.ah t.al == 0xFFFC#16 && t.dir == .cpuRead && t.phase == .data
        && pins t == [false, true, false, false, false] && t.pinTrace == [[.alEn false], [.ahEn true]]) = true := by decide
/-- A write cycle at an address, before its data operation. -/
def writeAt (ah al b : Byte) : State :=
  { base with phase := .data, dir := .cpuWrite, ah := ah, al := al, ahEn := true, samples := [⟨false, b⟩] }
/-- TE7, with the trace of TE21. -/
theorem test_eDataWr :
    after .eDataWr (writeAt 0x00#8 0x00#8 0x01#8) (fun t =>
      t.cell .ram 0 == 0x01#8 && t.bs == ⟨0x0000#16, .cpuWrite, 0x01#8⟩ && pins t == [false, false, true, true, false]
        && t.pinTrace == [[.ahEn false], [.dEn true, .clk true]]) = true := by decide
/-- TE8 and TE9: the last cell is stored, the next address is not. -/
theorem test_eDataWr_boundary :
    after .eDataWr (writeAt 0x07#8 0xFF#8 0xAA#8) (fun t => t.ram == [(0x7FF, 0xAA#8)]) = true
    ∧ after .eDataWr { writeAt 0x08#8 0x00#8 0x55#8 with rom := [(0x800, 0x11#8)] } (fun t =>
        t.ram == [] && t.rom == [(0x800, 0x11#8)] && t.bs == ⟨0x0800#16, .cpuWrite, 0x55#8⟩ && t.sent == []) = true := by decide
/-- A read cycle at an address, before its data operation. -/
def readAt (ah al : Byte) : State :=
  { base with
    phase := .data, ah := ah, al := al, ahEn := true
    ram := [(0x7FF, 0xAA#8)], rom := [(0x7FF, 0x33#8), (0x800, 0x11#8)] }
/-- TE11, TE12. -/
theorem test_eDataRd :
    after .eDataRd (readAt 0x07#8 0xFF#8) (fun t =>
      t.dout == 0xAA#8 && t.bs == ⟨0x07FF#16, .cpuRead, 0xAA#8⟩ && pins t == [false, false, true, true, true]
        && t.pinTrace == [[.ahEn false], [.dpOn 0xAA#8], [.dEn true, .clk true]]) = true
    ∧ after .eDataRd (readAt 0x08#8 0x00#8) (fun t => t.dout == 0x11#8) = true := by decide
/-- TE14. -/
theorem test_eDataRd_fallback :
    after .eDataRd { readAt 0x80#8 0x00#8 with cfg := { cfg with romLen := 0x8000 } } (fun t =>
      t.dout == 0x00#8 && t.sent == []) = true := by decide
/-- TE16. -/
theorem test_eClkFall_singleStep :
    after .eClkFall { base with phase := .data, clk := true, singleStep := true, clockEnabled := true, clockPeriodHint := 7 } (fun t =>
      t.waits == [⟨0, 7⟩] && t.clk == false && t.clockEnabled == false && t.phase == .idle && t.singleStep) = true := by decide
/-- TE18, TE19. -/
theorem test_eClkFall :
    after .eClkFall { base with phase := .data, clk := true, clockEnabled := true } (fun t =>
      t.clockEnabled && t.phase == .acqLo) = true
    ∧ after .eClkFall { base with phase := .data, clk := true } (fun t => t.phase == .idle) = true := by decide

/-- TC1. -/
theorem test_clock0 :
    after .clock0 { base with clockEnabled := true } (fun t =>
      !t.clockEnabled && !t.singleStep && t.sent == [bytes [0x21, 0x7B, 0x43, 0x4C, 0x4F, 0x43, 0x4B, 0x2C, 0x31, 0x7D, 0x30]]) = true := by decide
/-- TC2, its first write. -/
theorem test_clock1_first :
    after .clock1 { base with singleStep := true } (fun t =>
      !t.clockEnabled && !t.singleStep && t.sent == []) = true := by decide
/-- TC2, its second write. -/
theorem test_clock1_second :
    after .clock1 { base with cmd := some .clock1, pos := .second } (fun t =>
      t.clockEnabled && t.cmd == none && t.sent == [bytes [0x21, 0x7B, 0x43, 0x4C, 0x4F, 0x43, 0x4B, 0x2C, 0x31, 0x7D, 0x31]]) = true := by decide
/-- TC7, with the test's code -6. -/
theorem test_clockOther :
    after (.clockOther [0x32#8]) base (fun t =>
      !t.clockEnabled && t.sent == [bytes [0x21, 0x7B, 0x45, 0x52, 0x52, 0x4F, 0x52, 0x2C, 0x32, 0x7D, 0x2D, 0x36]]) = true := by decide
/-- TC3, its first write. -/
theorem test_clockPulse_first :
    after .clockPulse base (fun t =>
      t.singleStep && !t.clockEnabled && t.sent == []) = true := by decide
/-- TC3, its second write. -/
theorem test_clockPulse_second :
    after .clockPulse { base with cmd := some .clockPulse, pos := .second, singleStep := true } (fun t =>
      t.singleStep && t.clockEnabled && t.sent == [bytes [0x21, 0x7B, 0x43, 0x4C, 0x4F, 0x43, 0x4B, 0x50, 0x55, 0x4C, 0x53, 0x45, 0x2C, 0x30, 0x7D]]) = true := by decide
/-- TC4. -/
theorem test_reset :
    after .reset base (fun t =>
      t.resetAsserted && t.resetRan && t.pinTrace == [[.resetOut true]] && t.sent == [bytes [0x21, 0x7B, 0x52, 0x45, 0x53, 0x45, 0x54, 0x2C, 0x30, 0x7D]]) = true := by decide
/-- TC5. -/
theorem test_reset_again :
    after .reset { base with resetAsserted := true } (fun t =>
      t.resetAsserted && t.pinTrace == [] && t.sent == [bytes [0x21, 0x7B, 0x52, 0x45, 0x53, 0x45, 0x54, 0x2C, 0x30, 0x7D]]) = true := by decide
/-- rule R145. -/
theorem test_resetRelease :
    after .resetRelease { base with resetAsserted := true } (fun t =>
      !t.resetAsserted && t.pinTrace == [[.resetOut false]] && t.sent == []) = true := by decide
/-- TC6. -/
theorem test_settTick :
    after (.settTick (.ok 100)) base (fun t =>
      t.clockPeriodHint == 100 && t.sent == [bytes [0x21, 0x7B, 0x53, 0x45, 0x54, 0x54, 0x49, 0x4E, 0x47, 0x2C, 0x38, 0x7D, 0x54, 0x49, 0x43, 0x4B, 0x2C, 0x31, 0x30, 0x30]]) = true := by decide
/-- TM2. -/
theorem test_rom :
    after (.rom (.ok (0x0200#16, 0xEA#8))) base (fun t =>
      t.rom == [(0x200, 0xEA#8)] && t.ram == [] && t.sent == [bytes [0x21, 0x7B, 0x52, 0x4F, 0x4D, 0x2C, 0x37, 0x7D, 0x30, 0x32, 0x30, 0x30, 0x2C, 0x45, 0x41]]) = true := by decide
/-- TM4, with the test's code -5. -/
theorem test_rom_badDigit :
    after (.rom (.bad .invalidDigit)) base (fun t =>
      t.rom == [] && t.sent == [bytes [0x21, 0x7B, 0x45, 0x52, 0x52, 0x4F, 0x52, 0x2C, 0x32, 0x7D, 0x2D, 0x35]]) = true := by decide
/-- TM6, its second byte. -/
theorem test_romlw_byte :
    after (.romlw (.ok ⟨0x0200#16, [0xA9#8, 0xEA#8], true⟩)) { base with pos := .body 1, leaseSaved := some false, rom := [(0x200, 0xA9#8)] } (fun t =>
      t.rom == [(0x200, 0xA9#8), (0x201, 0xEA#8)] && t.pos == .leaseRelease none) = true := by decide
/-- TM8, its third byte. -/
theorem test_romlw_noWrap :
    after (.romlw (.ok ⟨0xFFFE#16, [0x11#8, 0x22#8, 0x33#8], true⟩)) { base with pos := .body 2, leaseSaved := some false } (fun t =>
      t.rom == [] && t.pos == .leaseRelease (some .outOfRange)) = true := by decide
/-- TM12, the clear of one cell. -/
theorem test_ramclr_cell :
    after .ramclr { base with pos := .body 0x200, leaseSaved := some true, ram := [(0x200, 0x42#8)] } (fun t =>
      t.ram == [(0x200, 0x00#8)] && t.pos == .body 0x201 && !t.clockEnabled) = true := by decide
/-- TM12, the release. -/
theorem test_ramclr_release :
    after .ramclr { base with pos := .leaseRelease none, leaseSaved := some true } (fun t =>
      t.clockEnabled && t.leaseSaved == none && t.sent == []) = true := by decide
/-- TM13. -/
theorem test_ramlr :
    after (.ramlr (.ok (0x07FF#16, 1))) { base with ram := [(0x7FF, 0xAA#8)] } (fun t =>
      t.ram == [(0x7FF, 0xAA#8)] && t.sent == [bytes [0x21, 0x7B, 0x52, 0x41, 0x4D, 0x4C, 0x52, 0x2C, 0x32, 0x7D, 0x41, 0x41]]) = true := by decide
/-- TM14, with the test's code -4. -/
theorem test_ramlr_range :
    after (.ramlr (.ok (0x07FF#16, 2))) base (fun t =>
      t.sent == [bytes [0x21, 0x7B, 0x45, 0x52, 0x52, 0x4F, 0x52, 0x2C, 0x32, 0x7D, 0x2D, 0x34]]) = true := by decide
/-- TM17. -/
theorem test_romlr :
    after (.romlr (.ok (0xFFFF#16, 1))) { base with rom := [(0xFFFF, 0x80#8)] } (fun t =>
      t.sent == [bytes [0x21, 0x7B, 0x52, 0x4F, 0x4D, 0x4C, 0x52, 0x2C, 0x32, 0x7D, 0x38, 0x30]]) = true := by decide
/-- TM19. -/
theorem test_romlr_belowRamLen :
    after (.romlr (.ok (0x0010#16, 1))) { base with rom := [(0x10, 0xFF#8)], ram := [(0x10, 0x12#8)] } (fun t =>
      t.sent == [bytes [0x21, 0x7B, 0x52, 0x4F, 0x4D, 0x4C, 0x52, 0x2C, 0x32, 0x7D, 0x46, 0x46]]) = true := by decide
/-- TM15. -/
theorem test_ramlr_empty :
    after (.ramlr (.ok (0x0800#16, 0))) base (fun t =>
      t.sent == [bytes [0x21, 0x7B, 0x52, 0x41, 0x4D, 0x4C, 0x52, 0x2C, 0x30, 0x7D]]) = true := by decide
/-- TC11. -/
theorem test_awake :
    after .awake base (fun t =>
      t.sent == [bytes [0x21, 0x7B, 0x41, 0x57, 0x41, 0x4B, 0x45, 0x2C, 0x30, 0x7D]]) = true := by decide
/-- V6 with the length of rule R105. -/
theorem test_sett :
    after (.sett (.ok (.baud, bytes [0x39, 0x36, 0x30, 0x30]))) base (fun t =>
      t.calls == [.put .baud (bytes [0x39, 0x36, 0x30, 0x30]), .reopen (bytes [0x39, 0x36, 0x30, 0x30])] && t.sent == [bytes [0x21, 0x7B, 0x53, 0x45, 0x54, 0x54, 0x49, 0x4E, 0x47, 0x2C, 0x39, 0x7D, 0x42, 0x41, 0x55, 0x44, 0x2C, 0x39, 0x36, 0x30, 0x30]]) = true := by decide
/-- TC12. -/
theorem test_setting :
    after (.setting (.ok .tick)) { base with clockPeriodHint := 100 } (fun t =>
      t.sent == [bytes [0x21, 0x7B, 0x53, 0x45, 0x54, 0x54, 0x49, 0x4E, 0x47, 0x2C, 0x38, 0x7D, 0x54, 0x49, 0x43, 0x4B, 0x2C, 0x31, 0x30, 0x30]]) = true := by decide
/-- rule R184: the commit, the response being open. -/
theorem test_save :
    after .save base (fun t =>
      t.calls == [.commit [] (bytes [0x30]) [] []] && t.sent.length == 1) = true := by decide
/-- V4. -/
theorem test_error :
    after (.error (-2)) base (fun t =>
      t.sent == [bytes [0x21, 0x7B, 0x45, 0x52, 0x52, 0x4F, 0x52, 0x2C, 0x32, 0x7D, 0x2D, 0x32]]) = true := by decide
/-- V8. -/
theorem test_unknownAction :
    after (.unknownAction .request (bytes [0x42])) base (fun t =>
      t.sent == [bytes [0x21, 0x7B, 0x45, 0x52, 0x52, 0x4F, 0x52, 0x2C, 0x32, 0x7D, 0x2D, 0x31]]) = true := by decide
/-- TC9. -/
theorem test_unknownAction_message :
    after (.unknownAction .message kwClock) base (fun t =>
      t.sent == [] && t.cmd == none) = true := by decide

/-- A step reads the link: the `RESET` frame's last byte completes it (rules R91, R94). -/
theorem test_step_pollsLink :
    afterStep { base with
        rx := [0x7D#8], turns := [.host]
        parser := ⟨.readingHeader, .request, kwReset ++ [0x2C#8, 0x30#8], some 5, 0, [], 0⟩ }
      (fun t => t.cmd == some .reset && t.rx == [] && t.sent == []) = true := by decide
/-- TE1 through `step`: an engine turn at start-up is an idle poll (rule R223). -/
theorem test_step_idle :
    afterStep { base with turns := [.engine] } (fun t => t.phase == .idle && t.pinTrace == []) = true := by decide
/-- Rule R145: after a `RESET` the release is a move of HOST, in the middle of another command too; before any, it is not. -/
theorem test_step_release :
    afterStep { base with turns := [.release], resetAsserted := true, resetRan := true, cmd := some .clock1, pos := .second }
      (fun t => !t.resetAsserted && t.cmd == some .clock1 && t.pos == .second) = true
    ∧ afterStep { base with turns := [.release], resetAsserted := true } (fun t => t.resetAsserted) = true := by decide
/-- A placed selector and a placed frame run at the very next step. -/
theorem test_withFetchWord :
    step (base.withFetchWord 8 0b1101) = exec .eDataRd (base.withFetchWord 8 0b1101).popTurn
    ∧ (base.withFetchWord 88 0x307D312C4B434F4C437B3F).fetch = .run .clock0 := ⟨rfl, by decide⟩

/-! ### Witnesses: states and operands that meet the hypotheses of each statement, clause by clause -/

theorem witness_SelectorTableDecodes :
    0b0001#4 &&& 0b1110#4 = 0b0000#4 ∧ 0b0101#4 &&& 0b1110#4 = 0b0100#4 ∧ 0b1001#4 &&& 0b1110#4 = 0b1000#4
    ∧ 0b1111#4 &&& 0b1110#4 = 0b1110#4 := by decide

/-- The clock high in each address phase, and for each operation a state outside its `pre:` line. -/
theorem witness_EngineStopsOutsideItsOperations :
    (∀ ph ∈ [Phase.idle, Phase.acqLo, Phase.acqHi],
      ({ base with phase := ph, clk := true, turns := [.engine] } : State).phase ≠ .data
      ∧ ({ base with phase := ph, clk := true, turns := [.engine] } : State).clk = true
      ∧ ({ base with phase := ph, clk := true, turns := [.engine] } : State).turn = .engine)
    ∧ ({ base with phase := .acqLo } : State).phase ≠ .idle
    ∧ ¬(base.phase = .acqLo ∧ base.clk = false)
    ∧ ¬(({ base with phase := .acqHi, dpDir := true } : State).phase = .acqHi
        ∧ ({ base with phase := .acqHi, dpDir := true } : State).clk = false
        ∧ ({ base with phase := .acqHi, dpDir := true } : State).dpDir = false)
    ∧ ¬(base.phase = .data ∧ base.clk = false ∧ base.dir = .cpuWrite ∧ base.dpDir = false)
    ∧ ¬(base.phase = .data ∧ base.clk = false ∧ base.dir = .cpuRead ∧ base.dpDir = false)
    ∧ ¬(base.phase = .data ∧ base.clk = true) := by decide

/-- The caps of the tests' parameters have room for the frames. -/
theorem witness_SpecWordsDecode : 7 ≤ cfg.headerCap ∧ 7 ≤ cfg.payloadCap := by decide

theorem witness_EncodedControlCommandsDecode :
    ∀ i ∈ [Instr.clock0, .clock1, .clockOther [], .clockPulse, .reset, .settTick (.ok 0), .settTick (.bad .badArgument)],
      isControlFrame i = true ∧ WellFormed cfg i = true ∧ (encodeFrame cfg i).isSome = true := by decide

theorem witness_EncodedMemoryCommandsDecode :
    ∀ i ∈ [Instr.rom (.ok (0xFFFF#16, 0xFF#8)), .rom (.bad .invalidDigit), .romlw (.ok ⟨0#16, [], true⟩),
        .romlw (.ok ⟨0xFFFF#16, [0xFF#8], false⟩), .romlw (.bad .badArgument), .ramclr, .ramlr (.ok (0#16, 0)),
        .ramlr (.bad .invalidDigit), .romlr (.ok (0xFFFF#16, 1)), .romlr (.bad .badArgument)],
      isMemoryFrame i = true ∧ WellFormed cfg i = true ∧ (encodeFrame cfg i).isSome = true := by decide

theorem witness_EncodedLinkCommandsDecode :
    ∀ i ∈ [Instr.awake, .sett (.ok (.name, [0x3F#8])), .sett (.bad .badArgument), .setting (.ok .rams),
        .setting (.bad .badArgument), .save, .unknownAction .message [], .unknownAction .request kwRamclr],
      isLinkFrame i = true ∧ WellFormed cfg i = true ∧ (encodeFrame cfg i).isSome = true := by decide

/-- A parser in a state, with an empty frame of a kind. -/
def parserIn (st : PState) (k : Kind) : Parser := { Parser.init with pstate := st, kind := k }

/-- For `FrameOpeningBytes`, `HeaderBytesAccumulate` and `PayloadBytesArePayload`: each state before the header, each sentinel,
the open brace, and a byte that is none of them. -/
theorem witness_FrameOpeningBytes :
    (parserIn .awaitingSentinel .message).pstate = .awaitingSentinel
    ∧ (parserIn .awaitingOpenBrace .request).pstate = .awaitingOpenBrace
    ∧ ((0x21#8 = 0x21#8 ∧ Kind.message = .message) ∨ (0x21#8 = 0x3F#8 ∧ Kind.message = .request))
    ∧ ((0x3F#8 = 0x21#8 ∧ Kind.request = .message) ∨ (0x3F#8 = 0x3F#8 ∧ Kind.request = .request))
    ∧ 0x7C#8 ≠ 0x7B#8 ∧ 0x7C#8 ≠ 0x21#8 ∧ 0x7C#8 ≠ 0x3F#8 := by decide

/-- A parser that has read `A,<length>`. -/
def headerWith (len : List Nat) : Parser :=
  { parserIn .readingHeader .request with header := bytes (0x41 :: 0x2C :: len), commaAt := some 1 }

/-- No comma; a length that is none; 513, over the cap; 0; 512, the cap. -/
theorem witness_HeaderCloseOutcome :
    (parserIn .readingHeader .request).pstate = .readingHeader ∧ (parserIn .readingHeader .request).commaAt = none
    ∧ (headerWith []).pstate = .readingHeader ∧ (headerWith []).commaAt = some 1
    ∧ parseNumeral 10 ((headerWith []).header.drop (1 + 1)) = none
    ∧ parseNumeral 10 ((headerWith [0x35, 0x31, 0x33]).header.drop (1 + 1)) = some 513 ∧ cfg.payloadCap < 513
    ∧ parseNumeral 10 ((headerWith [0x30]).header.drop (1 + 1)) = some 0 ∧ 0 ≤ cfg.payloadCap
    ∧ parseNumeral 10 ((headerWith [0x35, 0x31, 0x32]).header.drop (1 + 1)) = some 512 ∧ 512 ≤ cfg.payloadCap
    ∧ (512 : Nat) ≠ 0 := by decide

theorem witness_PayloadBytesArePayload :
    ({ parserIn .readingPayload .message with declared := 1 } : Parser).got + 1 = 1
    ∧ ({ parserIn .readingPayload .message with declared := 2 } : Parser).got + 1 ≠ 2
    ∧ cfg.preemptInPayload = false ∧ ({ cfg with preemptInPayload := true } : Params).preemptInPayload = true := by decide

/-- A comma as the first and as a later one, another byte with room and at the cap. -/
theorem witness_HeaderBytesAccumulate :
    (parserIn .readingHeader .message).commaAt = none ∧ (parserIn .readingHeader .message).header.length < cfg.headerCap
    ∧ (headerWith []).commaAt = some 1 ∧ (headerWith []).header.length < cfg.headerCap
    ∧ ({ headerWith [] with header := List.replicate 32 0x41#8 } : Parser).pstate = .readingHeader
    ∧ cfg.headerCap ≤ ({ headerWith [] with header := List.replicate 32 0x41#8 } : Parser).header.length
    ∧ 0x41#8 ≠ 0x21#8 ∧ 0x41#8 ≠ 0x3F#8 ∧ 0x41#8 ≠ 0x7D#8 ∧ 0x41#8 ≠ 0x2C#8 := by decide

/-- HOST about to read a byte with the parser at a point. -/
def reading (q : Parser) (c : Byte) : State := { base with parser := q, rx := [c], turns := [.host] }

theorem witness_OversizedFrameReported :
    (reading (headerWith [0x35, 0x31, 0x33]) 0x7D#8).cmd = none
    ∧ (reading (headerWith [0x35, 0x31, 0x33]) 0x7D#8).turn = .host
    ∧ (reading (headerWith [0x35, 0x31, 0x33]) 0x7D#8).rx = 0x7D#8 :: []
    ∧ (headerWith [0x35, 0x31, 0x33]).pstate = .readingHeader ∧ (headerWith [0x35, 0x31, 0x33]).commaAt = some 1
    ∧ parseNumeral 10 ((headerWith [0x35, 0x31, 0x33]).header.drop (1 + 1)) = some 513
    ∧ cfg.payloadCap < 513 ∧ cfg.errFrameTooLarge = -2 := by decide

/-- No comma; a length that is none; a letter and a comma with the header at the cap. -/
theorem witness_MalformedHeaderReported :
    (∀ q ∈ [parserIn .readingHeader .message, headerWith [], { headerWith [] with header := List.replicate 32 0x41#8 }],
      ∀ c ∈ [0x7D#8, 0x41#8, 0x2C#8],
        q.pstate = .readingHeader ∧ (reading q c).cmd = none ∧ (reading q c).turn = .host ∧ (reading q c).rx = c :: [])
    ∧ (parserIn .readingHeader .message).commaAt = none
    ∧ (headerWith []).commaAt = some 1 ∧ parseNumeral 10 ((headerWith []).header.drop (1 + 1)) = none
    ∧ (∀ c ∈ [0x41#8, 0x2C#8], c ≠ 0x7D#8 ∧ c ≠ 0x21#8 ∧ c ≠ 0x3F#8)
    ∧ cfg.headerCap ≤ ({ headerWith [] with header := List.replicate 32 0x41#8 } : Parser).header.length := by decide

/-- The frame of TC4 with a byte after it. -/
theorem witness_FrameBytesReachDispatcher :
    decodeFrom cfg Parser.init (frameText .request kwReset [] ++ [0x21#8]) = .ok (.reset, [0x21#8])
    ∧ ({ base with
          rx := frameText .request kwReset [] ++ [0x21#8]
          turns := List.replicate (frameText .request kwReset []).length .host ++ [.engine] } : State).cmd = none := by
  decide

theorem witness_StepRunsDecodedInstruction :
    ({ base with turns := [.engine] } : State).turn = .engine
    ∧ decodeSelector (selector base.phase base.clk base.dir) = .ok .eIdlePoll
    ∧ ({ base with turns := [.host], cmd := some .save } : State).turn = .host
    ∧ ({ base with turns := [.host], cmd := some .save } : State).cmd = some .save := by decide

theorem witness_StepPollsLink :
    ({ base with turns := [.host] } : State).turn = .host ∧ base.cmd = none ∧ base.rx = []
    ∧ (reading Parser.init 0x21#8).turn = .host ∧ (reading Parser.init 0x21#8).cmd = none
    ∧ (reading Parser.init 0x21#8).rx = 0x21#8 :: [] := by decide

/-- After a `RESET`, with a command running and with none; before any; under another policy. -/
theorem witness_StepOffersResetRelease :
    (∀ c ∈ [none, some Instr.save],
      ({ base with turns := [.release], resetRan := true, cmd := c } : State).turn = .release
      ∧ ({ base with turns := [.release], resetRan := true, cmd := c } : State).resetRan = true)
    ∧ base.cfg.releasePolicy = .anyTime ∧ base.resetRan = false
    ∧ ({ cfg with releasePolicy := .never } : Params).releasePolicy ≠ .anyTime := by decide

theorem witness_IdlePollFollowsClockEnable : base.phase = .idle := by decide

/-- The engine at each operation's `pre:` line. -/
theorem witness_AcquireLowLatchesByteAndDirection :
    ({ base with phase := .acqLo } : State).phase = .acqLo ∧ ({ base with phase := .acqLo } : State).clk = false := by decide

theorem witness_AcquireHighLatchesByte :
    ({ base with phase := .acqHi } : State).phase = .acqHi ∧ ({ base with phase := .acqHi } : State).clk = false
    ∧ ({ base with phase := .acqHi } : State).dpDir = false := by decide

/-- The last RAM address and the first above it. -/
theorem witness_WriteCycleShadowsRam :
    (∀ s ∈ [writeAt 0x07#8 0xFF#8 0xAA#8, writeAt 0x08#8 0x00#8 0x55#8],
      s.phase = .data ∧ s.clk = false ∧ s.dir = .cpuWrite ∧ s.dpDir = false)
    ∧ (busAddr cfg 0x07#8 0xFF#8).toNat < cfg.ramLen ∧ ¬(busAddr cfg 0x08#8 0x00#8).toNat < cfg.ramLen := by decide

theorem witness_ReadCycleDrivesServedByte :
    (∀ s ∈ [readAt 0x07#8 0xFF#8, readAt 0x08#8 0x00#8],
      s.phase = .data ∧ s.clk = false ∧ s.dir = .cpuRead ∧ s.dpDir = false)
    ∧ 2 ^ base.cfg.addrW.val ≤ base.cfg.romLen := by decide

/-- The clock high, in either mode. -/
def clockHigh (single enabled : Bool) : State :=
  { base with phase := .data, clk := true, dEn := true, dpDir := true, singleStep := single, clockEnabled := enabled }

theorem witness_ClockFallEndsCycle :
    ∀ b, (clockHigh b true).phase = .data ∧ (clockHigh b true).clk = true ∧ (clockHigh b true).singleStep = b := by decide

/-- A command at its second position. -/
def second (i : Instr) : State := { base with cmd := some i, pos := .second }

/-- For `ClockOneStartsFreeRun`, `ClockPulseArmsSingleStep` and `ResetAssertsTargetReset`. -/
theorem witness_TwoStepCommands :
    base.pos = .start ∧ (second .clock1).pos = .second ∧ (second .clockPulse).pos = .second ∧ (second .reset).pos = .second
    ∧ base.cfg.releasePolicy ≠ .withResponse
    ∧ ({ base with cfg := { cfg with releasePolicy := .withResponse } } : State).cfg.releasePolicy = .withResponse := by
  decide

theorem witness_TickSetsClockPeriod :
    parseNumeral 10 (bytes [0x30]) = some 0 ∧ parseNumeral 10 (bytes [0x31, 0x30, 0x30]) = some 100
    ∧ parseNumeral 10 [] = none ∧ parseNumeral 10 (bytes [0x31, 0x41]) = none := by decide

theorem witness_OtherClockPayloadRejected :
    ([] : List Byte) ≠ [0x30#8] ∧ ([] : List Byte) ≠ [0x31#8] ∧ [0x32#8] ≠ [0x30#8] ∧ [0x32#8] ≠ [0x31#8] := by decide

/-- A payload too short, one with no comma, bad digits, good digits; the last cell, and the first index beyond a short bank. -/
theorem witness_RomWritesOneCell :
    (bytes [0x30]).length ≠ 7 ∧ (bytes [0x30, 0x30, 0x30, 0x30, 0x30, 0x30, 0x30])[4]? ≠ some 0x2C#8
    ∧ hex4 0x47#8 0x30#8 0x30#8 0x30#8 = none ∧ hex2 0x30#8 0x47#8 = none
    ∧ hex4 0x46#8 0x46#8 0x46#8 0x46#8 = some 0xFFFF#16 ∧ hex2 0x38#8 0x30#8 = some 0x80#8
    ∧ (0xFFFF#16).toNat < base.cfg.romLen ∧ ({ cfg with romLen := 0x8000 } : Params).romLen ≤ (0x8000#16).toNat := by decide

/-- A load of two bytes, and one that overruns the bank. -/
def load2 : RomLoad := ⟨0x0200#16, [0xA9#8, 0xEA#8], true⟩
def loadOver : RomLoad := ⟨0xFFFE#16, [0x11#8, 0x22#8, 0x33#8], true⟩

/-- A bulk mutation under way at a position, its lease held. -/
def under (q : Pos) : State := { base with pos := q, leaseSaved := some true }

/-- Each position of the lease, the wait with the engine in `Idle` and not; a mutation with cells and one with none. -/
theorem witness_LeaseIsTaken :
    isBulk (.romlw (.ok load2)) = true ∧ isBulk .ramclr = true ∧ base.pos = .start
    ∧ (under .leaseForce).pos = .leaseForce ∧ (under .leaseWait).pos = .leaseWait ∧ (under .leaseWait).phase = .idle
    ∧ ({ under .leaseWait with phase := .data } : State).phase ≠ .idle
    ∧ 0 < load2.data.length ∧ ¬0 < (⟨0#16, [], false⟩ : RomLoad).data.length
    ∧ 0 < base.cfg.ramLen ∧ ¬0 < ({ cfg with ramLen := 0 } : Params).ramLen := by decide

theorem witness_LeaseIsReleased :
    ∀ e ∈ [none, some Cause.outOfRange],
      isBulk .ramclr = true ∧ (under (.leaseRelease e)).pos = .leaseRelease e
      ∧ (under (.leaseRelease e)).leaseSaved = some true := by decide

/-- The last byte of a load and one past the end of ROM; a cell inside RAM and the last one. -/
theorem witness_BulkMutationWritesOneCellPerStep :
    (under (.body 1)).pos = .body 1 ∧ load2.data[1]? = some 0xEA#8 ∧ load2.addr.toNat + 1 < base.cfg.romLen
    ∧ (under (.body 2)).pos = .body 2 ∧ loadOver.data[2]? = some 0x33#8
    ∧ base.cfg.romLen ≤ loadOver.addr.toNat + 2
    ∧ (under (.body 0x7FE)).pos = .body 0x7FE ∧ 0x7FE < base.cfg.ramLen ∧ 0x7FE + 1 < base.cfg.ramLen
    ∧ (under (.body 0x7FF)).pos = .body 0x7FF ∧ 0x7FF < base.cfg.ramLen ∧ ¬0x7FF + 1 < base.cfg.ramLen := by decide

/-- No byte, even past the end of a short bank; the last two cells; one byte too many. -/
theorem witness_RomLoadRunsToItsEnd :
    base.pos = .start ∧ base.phase = .idle
    ∧ (⟨0xFFFF#16, [], true⟩ : RomLoad).data = []
    ∧ (⟨0xFFFE#16, [0x11#8, 0x22#8], true⟩ : RomLoad).addr.toNat
        + (⟨0xFFFE#16, [0x11#8, 0x22#8], true⟩ : RomLoad).data.length ≤ base.cfg.romLen
    ∧ loadOver.data ≠ [] ∧ base.cfg.romLen < loadOver.addr.toNat + loadOver.data.length := by decide

theorem witness_RamClearZeroesEveryCell : base.pos = .start ∧ base.phase = .idle := by decide

/-- The last cell of each bank, the step that responds and one that goes on. -/
theorem witness_ReadBackReadsOneCellPerStep :
    (under (.reading 0 [])).pos = .reading 0 [] ∧ 0 < 1 ∧ 0 + 1 < 2 ∧ 0 + 1 = 1
    ∧ (0x07FF#16).toNat + 1 ≤ base.cfg.ramLen ∧ (0x07FE#16).toNat + 2 ≤ base.cfg.ramLen
    ∧ (0xFFFF#16).toNat + 1 ≤ base.cfg.romLen ∧ (0xFFFE#16).toNat + 2 ≤ base.cfg.romLen := by decide

/-- TM14, TM15: out of range by one, and nothing read at the end of the bank. -/
theorem witness_RamReadBackReturnsCells :
    base.pos = .start ∧ base.cfg.ramLen < (0x07FF#16).toNat + 2 ∧ (0x0800#16).toNat + 0 ≤ base.cfg.ramLen
    ∧ (0x07FF#16).toNat + 1 ≤ base.cfg.ramLen := by decide

/-- TM18, TM17. -/
theorem witness_RomReadBackReturnsCells :
    base.pos = .start ∧ base.cfg.romLen < (0xFFFF#16).toNat + 2 ∧ (0xFFFF#16).toNat + 1 ≤ base.cfg.romLen := by decide

theorem witness_MalformedOperandsRejected :
    rejectedOperand (.settTick (.bad .badArgument)) = some .badArgument
    ∧ rejectedOperand (.rom (.bad .invalidDigit)) = some .invalidDigit
    ∧ rejectedOperand (.romlw (.bad .badArgument)) = some .badArgument
    ∧ rejectedOperand (.ramlr (.bad .invalidDigit)) = some .invalidDigit
    ∧ rejectedOperand (.romlr (.bad .badArgument)) = some .badArgument
    ∧ rejectedOperand (.sett (.bad .badArgument)) = some .badArgument
    ∧ rejectedOperand (.setting (.bad .badArgument)) = some .badArgument := by decide

/-- Its dispatch clauses: payloads too short and with no comma in its place; bad and good digits; a count that is none and one;
a payload and a key with no comma; a key that is none, in its length and in its case, and one that is. -/
theorem witness_MalformedOperandsRejected_dispatch :
    ([] : List Byte)[4]? ≠ some 0x2C#8 ∧ (bytes [0x30, 0x30, 0x30, 0x30, 0x30])[4]? ≠ some 0x2C#8
    ∧ hex4 0x30#8 0x47#8 0x30#8 0x30#8 = none ∧ hex4 0x66#8 0x46#8 0x30#8 0x39#8 = some 0xFF09#16
    ∧ parseNumeral cfg.countRadix [] = none ∧ parseNumeral cfg.countRadix [0x39#8] = some 9
    ∧ 0x2C#8 ∉ bytes [0x42, 0x41, 0x55, 0x44] ∧ (∀ k, bytes [0x62, 0x61, 0x75, 0x64] ≠ keyText k)
    ∧ (∀ k, ([] : List Byte) ≠ keyText k) ∧ SettKey.baud ≠ .tick ∧ bytes [0x42, 0x41, 0x55, 0x44] = keyText .baud := by
  refine ⟨by decide, by decide, by decide, by decide, by decide, by decide, by decide, ?_, ?_, by decide, by decide⟩ <;>
    intro k <;> cases k <;> decide

/-- Digits at the ends of the three ranges, and bytes just outside each of them. -/
theorem witness_HexCodecReadsDigits :
    hexDigit 0x30#8 0 ∧ hexDigit 0x39#8 9 ∧ hexDigit 0x41#8 10 ∧ hexDigit 0x46#8 15 ∧ hexDigit 0x61#8 10 ∧ hexDigit 0x66#8 15
    ∧ (∀ c ∈ [0x2F#8, 0x3A#8, 0x40#8, 0x47#8, 0x60#8, 0x67#8, 0x20#8], ∀ d, ¬hexDigit c d)
    ∧ hex2 0x30#8 0x47#8 = none ∧ hex2 0x66#8 0x46#8 = some 0xFF#8 := by
  refine ⟨by unfold hexDigit; decide, by unfold hexDigit; decide, by unfold hexDigit; decide, by unfold hexDigit; decide,
    by unfold hexDigit; decide, by unfold hexDigit; decide, ?_, by decide, by decide⟩
  simp only [List.forall_mem_cons, hexDigit]
  refine ⟨?_, ?_, ?_, ?_, ?_, ?_, ?_, by simp⟩ <;> intro d <;> simp <;> omega

theorem witness_SettStoresSetting : SettKey.baud ≠ .tick ∧ SettKey.name ≠ .tick ∧ SettKey.rams ≠ .tick := by decide

theorem witness_UnknownActionReportedToRequestsOnly :
    knownAction .request kwRamclr = false ∧ knownAction .message kwClock = false ∧ base.cfg.errUnknownAction = -1 := by decide

/-- The default widths, and a narrower `DATA_W` with a latch at the end of its range. -/
theorem witness_WidthsLimitBusAddressAndCell :
    base.cfg.addrW = 16 ∧ base.cfg.dataW = 8 ∧ base.al.toNat < 2 ^ base.cfg.dataW.val
    ∧ ({ base with cfg := { cfg with dataW := 4 }, al := 0x0F#8 } : State).al.toNat
        < 2 ^ ({ cfg with dataW := 4 } : Params).dataW.val
    ∧ (base.bankWrite .ram 0x7FF 0xAA#8).isSome = true ∧ (base.bankWrite .rom 0xFFFF 0xAA#8).isSome = true := by decide

/-- States of the invariant at each kind of point: at rest, in a cycle, in a bulk mutation, in a payload. -/
theorem witness_inv_rest : base.Inv := by unfold State.Inv; decide
theorem witness_inv_cycle :
    ({ clockHigh true true with turns := [.engine], ram := [(0x7FF, 0xAA#8)] } : State).Inv := by unfold State.Inv; decide
theorem witness_inv_bulk :
    ({ under (.body 1) with cmd := some (.romlw (.ok load2)), turns := [.engine], rom := [(0x200, 0xA9#8)] } : State).Inv := by
  unfold State.Inv; decide
theorem witness_inv_payload :
    (reading { headerWith [0x32] with pstate := .readingPayload, declared := 2, payload := [0x30#8], got := 1 } 0x31#8).Inv := by
  unfold State.Inv; decide

theorem witness_EveryStepKeepsInvariant :
    base.Inv ∧ afterStep { base with turns := [.engine] } (fun _ => true) = true := ⟨witness_inv_rest, by decide⟩

theorem witness_EveryReachableStepAnswers : base.Inv := witness_inv_rest

/-- A ROM write, a RAM shadow write and a clear change a cell, a command sets `clock_enabled`; the same as steps. -/
theorem witness_PortRightsHold :
    after (.rom (.ok (0x10#16, 0xFF#8))) { base with rom := [(0x10, 0#8)] }
      (fun t => t.cell .rom 0x10 != ({ base with rom := [(0x10, 0#8)] } : State).cell .rom 0x10) = true
    ∧ after .eDataWr { writeAt 0x07#8 0xFF#8 0xAA#8 with ram := [(0x7FF, 0#8)] }
      (fun t => t.cell .ram 0x7FF != ({ base with ram := [(0x7FF, 0#8)] } : State).cell .ram 0x7FF) = true
    ∧ base.clockEnabled = false ∧ after .clock1 (second .clock1) (fun t => t.clockEnabled) = true
    ∧ afterStep { base with rom := [(0x10, 0#8)], turns := [.host], cmd := some (.rom (.ok (0x10#16, 0xFF#8))) }
      (fun t => t.cell .rom 0x10 == 0xFF#8) = true
    ∧ afterStep { writeAt 0x07#8 0xFF#8 0xAA#8 with ram := [(0x7FF, 0#8)], turns := [.engine] }
      (fun t => t.cell .ram 0x7FF == 0xAA#8) = true
    ∧ afterStep { second .clock1 with turns := [.host] } (fun t => t.clockEnabled) = true := by decide

/-- Edges of an operation; a step of the engine that moves the phase, a poll and a move that is not offered. -/
theorem witness_PhaseMovesOnlyAlongItsEdges :
    after .eClkFall (clockHigh true true) (fun t => t.phase == .idle) = true
    ∧ after .eClkFall (clockHigh false true) (fun t => t.phase == .acqLo) = true
    ∧ after .save base (fun t => t.phase == .idle) = true
    ∧ afterStep { clockHigh true true with turns := [.engine] } (fun t => t.phase == .idle) = true
    ∧ ({ base with turns := [.host] } : State).fetch = .poll ∧ ({ base with turns := [.release] } : State).fetch = .pass := by
  decide

theorem witness_SingleStepRunsExactlyOneCycle :
    engineOk base = true ∧ base.phase = .idle ∧ base.clockEnabled = false ∧ base.pos = .start := by decide

/-- At rest, at the start of a cycle, and with the clock high. -/
theorem witness_ClockOffStopsWithinOneCycle :
    engineOk base = true ∧ base.clockEnabled = false
    ∧ engineOk { base with phase := .acqLo } = true ∧ engineOk (clockHigh false false) = true
    ∧ (clockHigh false false).clockEnabled = false := by decide

theorem witness_BulkMutationSeesNoBusCycle :
    ({ under (.body 1) with cmd := some (.romlw (.ok load2)), turns := [.engine], rom := [(0x200, 0xA9#8)] } : State).Inv
    ∧ (∃ k, (under (.body 1)).pos = .body k) ∧ (∃ e, (under (.leaseRelease none)).pos = .leaseRelease e)
    ∧ ({ under (.leaseRelease none) with cmd := some .ramclr, turns := [.engine] } : State).Inv :=
  ⟨witness_inv_bulk, ⟨1, rfl⟩, ⟨none, rfl⟩, by unfold State.Inv; decide⟩

theorem witness_WritesReadBack :
    (writeAt 0x07#8 0xFF#8 0xAA#8).phase = .data ∧ (writeAt 0x07#8 0xFF#8 0xAA#8).clk = false
    ∧ (writeAt 0x07#8 0xFF#8 0xAA#8).dir = .cpuWrite ∧ (writeAt 0x07#8 0xFF#8 0xAA#8).dpDir = false
    ∧ (busAddr cfg 0x07#8 0xFF#8).toNat < cfg.ramLen
    ∧ after .eDataWr (writeAt 0x07#8 0xFF#8 0xAA#8) (fun t => t.pos == .start) = true
    ∧ base.pos = .start ∧ base.phase = .idle ∧ load2.clean = true ∧ load2.data ≠ []
    ∧ load2.addr.toNat + load2.data.length ≤ base.cfg.romLen := by decide

theorem witness_RequestsGetOneResponse :
    isCommand .awake = true ∧ isRequest .awake = true ∧ after .awake base (fun t => t.cmd == none) = true
    ∧ isCommand .ramclr = true ∧ isRequest .ramclr = false ∧ after .ramclr base (fun t => t.cmd == some .ramclr) = true := by
  decide

/-- The schedule that gives the two agents turns one after the other. -/
def inTurn (n : Nat) : Turn := if n % 2 = 0 then .engine else .host

theorem inTurn_fair : FairSchedule inTurn := fun n =>
  ⟨⟨2 * n, by omega, by simp [inTurn]⟩, 2 * n + 1, by omega, by simp [inTurn]⟩

/-- The lease being taken while the engine is in a cycle, and a mutation under way. -/
theorem witness_LeaseEndsUnderFairness :
    ({ clockHigh false false with cmd := some .ramclr, pos := .leaseWait, leaseSaved := some true } : State).Inv
    ∧ ({ under (.body 1) with cmd := some (.romlw (.ok load2)), turns := [.engine], rom := [(0x200, 0xA9#8)] } : State).Inv
    ∧ (under (.body 1)).leaseSaved ≠ none ∧ FairSchedule inTurn :=
  ⟨by unfold State.Inv; decide, witness_inv_bulk, by decide, inTurn_fair⟩

/-- A `CLOCKPULSE` at its first step, the clock disabled and enabled. -/
theorem witness_PulseGetsItsCycleUnderFairness :
    (∀ b, ({ base with cmd := some .clockPulse, clockEnabled := b } : State).Inv)
    ∧ base.pos = .start ∧ base.phase = .idle ∧ base.rx = [] ∧ FairSchedule inTurn :=
  ⟨by unfold State.Inv; decide, by decide, by decide, by decide, inTurn_fair⟩

end Sys2Proof.Tests
end

section
/-! PROOFS. In a state that meets the invariant every step answers, and it answers a state that meets the invariant; what a step of
each agent does; start-up; the widths of rule R8. -/

namespace Sys2Proof.Machine

/-! ### The engine -/

/-- Where pins and clock have the pattern of their phase, the selector names an operation and its `pre:` line holds
(rules R81, R118, R122). -/
theorem fetchEngine_answers {s : State} (h : engineOk s = true) :
    ∃ i, s.fetchEngine = .run i ∧ isEngineOp i = true ∧ ∃ t, exec i s = .next t := by
  cases hp : s.phase <;> cases hk : s.clk <;> simp [engineOk, hp, hk] at h
  case idle.false =>
    exact ⟨.eIdlePoll, by simp only [State.fetchEngine, hp, hk]; cases s.dir <;> rfl, rfl, _, exec_eIdlePoll hp⟩
  case acqLo.false =>
    exact ⟨.eAcqLo, by simp only [State.fetchEngine, hp, hk]; cases s.dir <;> rfl, rfl, _, exec_eAcqLo ⟨hp, hk⟩⟩
  case acqHi.false =>
    exact ⟨.eAcqHi, by simp only [State.fetchEngine, hp, hk]; cases s.dir <;> rfl, rfl, _, exec_eAcqHi ⟨hp, hk, h.2⟩⟩
  case data.false =>
    cases hd : s.dir
    · exact ⟨.eDataRd, by simp only [State.fetchEngine, hp, hk, hd]; rfl, rfl, _, exec_eDataRd ⟨hp, hk, hd, h.2⟩⟩
    · exact ⟨.eDataWr, by simp only [State.fetchEngine, hp, hk, hd]; rfl, rfl, _, exec_eDataWr ⟨hp, hk, hd, h.2⟩⟩
  case data.true =>
    exact ⟨.eClkFall, by simp only [State.fetchEngine, hp, hk]; cases s.dir <;> rfl, rfl, _, exec_eClkFall ⟨hp, hk⟩⟩

theorem engineOk_congr {s t : State} (h : sameLatches s t)
    (hp : t.alEn = s.alEn ∧ t.ahEn = s.ahEn ∧ t.dEn = s.dEn ∧ t.clk = s.clk ∧ t.dpDir = s.dpDir) (hs : engineOk s = true) :
    engineOk t = true := by
  obtain ⟨hph, -, -, hd, -, -⟩ := h
  obtain ⟨h1, h2, h3, h4, h5⟩ := hp
  simpa only [engineOk, hph, hd, h1, h2, h3, h4, h5] using hs

/-- Every operation leaves pins and clock at the pattern of the phase it ends in (rules R23, R82, R119). -/
theorem exec_engineOk {i : Instr} {s t : State} (h : engineOk s = true) (e : exec i s = .next t) : engineOk t = true := by
  by_cases hi : isEngineOp i = true
  · cases i <;> simp only [isEngineOp, Bool.false_eq_true] at hi <;> obtain ⟨hpre, rfl⟩ := next_of_pre e
    case eIdlePoll =>
      cases hc : s.clockEnabled
      · exact h
      · cases hk : s.clk <;> simp_all [engineOk]
    case eAcqLo => simp [engineOk, State.acqLoPins, hpre]
    case eAcqHi | eDataWr | eDataRd => simp_all [engineOk]
    case eClkFall =>
      cases hs : s.singleStep <;> cases hc : s.clockEnabled <;> simp_all [engineOk, phaseAfterCycle]
  · obtain ⟨hl, hp, -⟩ := exec_host_frame (Bool.eq_false_iff.2 hi) e
    exact engineOk_congr hl hp h

/-- The engine enables no clock (rule R206). -/
theorem exec_engine_clockOff {i : Instr} {s t : State} (hi : isEngineOp i = true) (hc : s.clockEnabled = false)
    (e : exec i s = .next t) : t.clockEnabled = false := by
  cases i <;> simp only [isEngineOp, Bool.false_eq_true] at hi <;> obtain ⟨-, rfl⟩ := next_of_pre e <;>
    simp [hc, State.acqLoPins, clockAfterCycle]

/-- In `Idle` with the clock disabled an engine operation changes nothing (rule R111). -/
theorem exec_engine_rest {i : Instr} {s t : State} (hi : isEngineOp i = true) (hp : s.phase = .idle)
    (hc : s.clockEnabled = false) (e : exec i s = .next t) : t = s := by
  cases i <;> simp only [isEngineOp, Bool.false_eq_true] at hi <;> obtain ⟨hpre, rfl⟩ := next_of_pre e
  case eIdlePoll => simp [hc]
  all_goals simp [hp] at hpre

theorem cmdOk_congr {s t : State} (h1 : t.cmd = s.cmd) (h2 : t.pos = s.pos) (h3 : t.cfg = s.cfg) (h : cmdOk s = true) :
    cmdOk t = true := by
  simpa only [cmdOk, h1, h2, h3] using h

theorem parserOk_congr {s t : State} (h1 : t.parser = s.parser) (h2 : t.cfg = s.cfg) (h3 : t.cmd = none ↔ s.cmd = none)
    (h : parserOk s = true) : parserOk t = true := by
  simpa only [parserOk, h1, h2, h3] using h

/-- No engine operation takes the lease, or moves the engine while the lease holds it (rules R65, R161). -/
theorem exec_engine_leaseOk {i : Instr} {s t : State} (hi : isEngineOp i = true) (h : leaseOk s = true)
    (e : exec i s = .next t) : leaseOk t = true := by
  obtain ⟨⟨hl, -, -, hpos, -⟩, -⟩ := exec_engine_frame hi e
  have hoff := fun hc => exec_engine_clockOff hi hc e
  have hrest := fun hp hc => exec_engine_rest hi hp hc e
  cases hq : s.pos <;> simp_all [leaseOk]

theorem exec_engine_inv {i : Instr} {s t : State} (hi : isEngineOp i = true) (h : s.Inv) (e : exec i s = .next t) : t.Inv := by
  obtain ⟨hengine, hcmd, hlease, hparser, hmemory, hwidth⟩ := h
  obtain ⟨⟨-, hp, hc, hq, -⟩, -⟩ := exec_engine_frame hi e
  exact ⟨exec_engineOk hengine e, cmdOk_congr hc hq (exec_cfg e) hcmd, exec_engine_leaseOk hi hlease e,
    parserOk_congr hp (exec_cfg e) (by rw [hc]) hparser, exec_memoryOk hmemory e, exec_widthOk hwidth hmemory e⟩

/-! ### Commands -/

/-- No command is an engine operation (rule R84). -/
theorem isEngineOp_of_isCommand {i : Instr} (h : isCommand i = true) : isEngineOp i = false := by
  simp only [isCommand, Bool.and_eq_true, Bool.not_eq_true'] at h
  exact h.1

/-- A cleared parser is legal (rules R94, R202). -/
theorem parserOk_of_clear {s : State} {q : Parser} (h : s.parser = q.clear) : parserOk s = true := by
  simp only [parserOk, h]; rfl

/-- An atomic step of the command HOST runs ends it or takes it to another of its positions, and keeps the invariant (rules R86,
R94, R161, R162). -/
theorem exec_command_inv {i : Instr} {s t : State} (hs : s.cmd = some i) (h : s.Inv) (e : exec i s = .next t) : t.Inv := by
  obtain ⟨hengine, hcmd, hlease, hparser, hmemory, hwidth⟩ := h
  simp only [cmdOk, hs, Bool.and_eq_true] at hcmd
  refine ⟨exec_engineOk hengine e, ?_, ?_, ?_, exec_memoryOk hmemory e, exec_widthOk hwidth hmemory e⟩ <;>
    obtain ⟨hc, hq, hp, hl⟩ | ⟨hc, hq, hp, hl⟩ := exec_command hcmd.1 hcmd.2 hlease e
  · simp [cmdOk, hc, hq]
  · simp [cmdOk, hc, hcmd.1, exec_cfg e, hq]
  · simp [leaseOk, hq, hl]
  · exact hl
  · exact parserOk_of_clear hp
  · exact parserOk_congr hp (exec_cfg e) (by simp [hc, hs]) hparser

theorem exec_resetRelease_inv {s t : State} (h : s.Inv) (e : exec .resetRelease s = .next t) : t.Inv := by
  cases e; exact h

end Sys2Proof.Machine

namespace Sys2Proof

/-! ### The parser -/

/-- The parser's buffers at each of its states; `waiting` says that no command has been handed over (rules R43, R88 to R92). -/
def Parser.Legal (p : Params) (waiting : Prop) (q : Parser) : Prop :=
  match q.pstate with
  | .awaitingSentinel | .awaitingOpenBrace =>
    q.header = [] ∧ q.commaAt = none ∧ q.declared = 0 ∧ q.payload = [] ∧ q.got = 0
  | .readingHeader => q.header.length ≤ p.headerCap ∧ q.payload = [] ∧ q.got = 0 ∧ q.declared = 0
  | .readingPayload =>
    q.payload.length = q.got ∧ q.declared ≤ p.payloadCap ∧ q.got ≤ q.declared ∧ (waiting → q.got < q.declared)

theorem Parser.legal_clear (p : Params) (waiting : Prop) (q : Parser) : q.clear.Legal p waiting := ⟨rfl, rfl, rfl, rfl, rfl⟩

theorem Parser.legal_start (p : Params) (waiting : Prop) (k : Kind) : (Parser.start k).Legal p waiting :=
  ⟨rfl, rfl, rfl, rfl, rfl⟩

/-- Closing a header leaves room for the payload, if there is one (rule R91). -/
theorem closeHeader_legal {p : Params} {q : Parser} (hq : q.pstate = .readingHeader) (hh : q.header.length ≤ p.headerCap)
    (hp : q.payload = []) (hg : q.got = 0) : (closeHeader p q).1.Legal p ((closeHeader p q).2 = .quiet) := by
  unfold closeHeader
  split
  · exact q.legal_clear p _
  · split
    · exact q.legal_clear p _
    · split
      · exact q.legal_clear p _
      · split
        · simp [Parser.Legal, hq, hh, hp, hg]
        · simp only [Parser.Legal, hp]
          exact ⟨rfl, by omega, by omega, fun _ => by omega⟩

/-- A header byte is appended below the cap only (rule R90). -/
theorem headerByte_legal {p : Params} {q : Parser} (c : Byte) (hq : q.pstate = .readingHeader)
    (h : q.header.length ≤ p.headerCap ∧ q.payload = [] ∧ q.got = 0 ∧ q.declared = 0) :
    (headerByte p q c).1.Legal p ((headerByte p q c).2 = .quiet) := by
  obtain ⟨hh, hp, hg, hd⟩ := h
  unfold headerByte
  split
  · exact closeHeader_legal hq hh hp hg
  · split
    · exact q.legal_clear p _
    · split <;> simp [Parser.Legal, hq, hp, hg, hd] <;> omega

/-- A payload byte completes the frame or leaves room for another (rule R92). -/
theorem payloadByte_legal {p : Params} {q : Parser} (c : Byte) (hq : q.pstate = .readingPayload)
    (hl : q.payload.length = q.got) (hd : q.declared ≤ p.payloadCap) (hg : q.got < q.declared) :
    (payloadByte q c).1.Legal p ((payloadByte q c).2 = .quiet) := by
  unfold payloadByte
  split <;> simp [Parser.Legal, hq, hl, hd] <;> omega

/-- One byte keeps the buffers legal (rules R88 to R92). -/
theorem parserByte_legal {p : Params} {q : Parser} (c : Byte) (h : q.Legal p True) :
    (parserByte p q c).1.Legal p ((parserByte p q c).2 = .quiet) := by
  unfold parserByte
  cases hq : q.pstate <;> simp only [Parser.Legal, hq] at h <;> simp only
  case awaitingSentinel =>
    split
    · exact Parser.legal_start p _ _
    · simpa only [Parser.Legal, hq] using h
  case awaitingOpenBrace =>
    split
    · exact Parser.legal_start p _ _
    · obtain ⟨-, -, hd, hp, hg⟩ := h
      split
      · exact ⟨Nat.zero_le _, hp, hg, hd⟩
      · exact q.legal_clear p _
  case readingHeader =>
    split
    · exact Parser.legal_start p _ _
    · exact headerByte_legal c hq h
  case readingPayload =>
    obtain ⟨hl, hd, -, hg⟩ := h
    split
    · exact Parser.legal_start p _ _
    · exact payloadByte_legal c hq hl hd (hg trivial)

/-! ### The dispatcher -/

/-- The dispatcher hands over commands only (rules R84, R100, R101). -/
theorem isCommand_dispatch (p : Params) (k : Kind) (action payload : List Byte) :
    Machine.isCommand (dispatch p k action payload) = true := by
  cases k
  · simp only [dispatch, dispatchMessage]
    (repeat' split) <;> rfl
  · simp only [dispatch, dispatchRequest, dispatchClock, dispatchSett]
    (repeat' split) <;> rfl

end Sys2Proof

namespace Sys2Proof.Machine

/-! ### The link's input -/

/-- Every command has a first step (rule R86). -/
theorem posOk_start (p : Params) (i : Instr) : posOk p i .start = true := by
  cases i
  case romlw x => cases x <;> rfl
  case ramlr x => cases x <;> rfl
  case romlr x => cases x <;> rfl
  all_goals rfl

theorem parserOk_iff (s : State) : parserOk s = true ↔ s.parser.Legal s.cfg (s.cmd = none) := by
  unfold parserOk Parser.Legal
  cases s.parser.pstate
  case readingPayload => by_cases hc : s.cmd = none <;> simp [hc] <;> omega
  all_goals simp [and_assoc]

/-- What taking one byte does: the parser takes it, and where that completes a frame or meets an error, HOST has a command at its
first step (rules R88 to R94, R194, R195). -/
theorem takeByte_cases (s : State) (c : Byte) :
    ((parserByte s.cfg s.parser c).2 = .quiet ∧ s.takeByte c = { s with parser := (parserByte s.cfg s.parser c).1 })
      ∨ ∃ i, (parserByte s.cfg s.parser c).2 ≠ .quiet ∧ isCommand i = true
        ∧ s.takeByte c = { s with parser := (parserByte s.cfg s.parser c).1, cmd := some i, pos := .start } := by
  unfold State.takeByte
  split
  · rename_i h
    rw [h]
    exact .inl ⟨rfl, rfl⟩
  · rename_i h
    rw [h]
    exact .inr ⟨_, nofun, isCommand_dispatch _ _ _ _, rfl⟩
  · rename_i h
    rw [h]
    exact .inr ⟨_, nofun, rfl, rfl⟩

/-- The parser's turn keeps the invariant: HOST has no command before it, and after it none or one at its first step. -/
theorem takeByte_inv {s : State} (c : Byte) (hs : s.cmd = none) (h : s.Inv) : (s.takeByte c).Inv := by
  obtain ⟨hengine, hcmd, hlease, hparser, hmemory, hwidth⟩ := h
  have hpos : s.pos = .start := by simpa [cmdOk, hs] using hcmd
  have hbyte := parserByte_legal c (by simpa [hs] using (parserOk_iff s).1 hparser)
  obtain ⟨hq, ht⟩ | ⟨i, hq, hi, ht⟩ := takeByte_cases s c <;> rw [ht] <;> simp only [hq] at hbyte
  · exact ⟨hengine, hcmd, hlease, (parserOk_iff _).2 (by simpa [hs] using hbyte), hmemory, hwidth⟩
  · refine ⟨hengine, by simp [cmdOk, hi, posOk_start], ?_, (parserOk_iff _).2 (by simpa using hbyte), hmemory, hwidth⟩
    simpa only [leaseOk, hpos] using hlease

theorem pollLink_inv {s : State} (hs : s.cmd = none) (h : s.Inv) : s.pollLink.Inv := by
  unfold State.pollLink
  split
  · exact h
  · exact takeByte_inv _ hs h

theorem takeByte_cfg (s : State) (c : Byte) : (s.takeByte c).cfg = s.cfg := by
  obtain ⟨-, ht⟩ | ⟨i, -, -, ht⟩ := takeByte_cases s c <;> rw [ht]

theorem pollLink_cfg (s : State) : s.pollLink.cfg = s.cfg := by
  unfold State.pollLink
  split
  · rfl
  · exact takeByte_cfg _ _

/-! ### A step -/

/-- The step of each agent completes: ENGINE's runs the operation it is at, HOST's the next atomic step of its command or a poll of
the link, and the release move runs or is not offered. It keeps the invariant and the parameters (rules R14, R61, R122, R145). -/
theorem stepAs_inv (a : Turn) {s : State} (h : s.Inv) : ∃ t, stepAs a s = .next t ∧ t.Inv ∧ t.cfg = s.cfg := by
  rw [stepAs_eq]
  cases a
  case engine =>
    have ⟨hengine, _⟩ := h
    obtain ⟨i, hf, hi, t, e⟩ := fetchEngine_answers hengine
    simp only [hf]
    exact ⟨t, e, exec_engine_inv hi h e, exec_cfg e⟩
  case host =>
    cases hc : s.cmd with
    | none =>
      simp only [State.fetchHost, hc]
      exact ⟨s.pollLink, rfl, pollLink_inv hc h, pollLink_cfg s⟩
    | some i =>
      have ⟨_, hcmd, _⟩ := h
      simp only [cmdOk, hc, Bool.and_eq_true] at hcmd
      obtain ⟨t, e⟩ := exec_answers_of_not_engine (isEngineOp_of_isCommand hcmd.1) s
      simp only [State.fetchHost, hc]
      exact ⟨t, e, exec_command_inv hc h e, exec_cfg e⟩
  case release =>
    unfold State.fetchRelease
    by_cases hr : s.cfg.releasePolicy = .anyTime ∧ s.resetRan = true
    · rw [if_pos hr]
      exact ⟨_, rfl, exec_resetRelease_inv h rfl, rfl⟩
    · rw [if_neg hr]
      exact ⟨s, rfl, h, rfl⟩

/-- The choice of the turn is outside the invariant, so a step is the step of the agent it names (rule R61; log entry 10). -/
theorem step_inv {s : State} (h : s.Inv) : ∃ t, step s = .next t ∧ t.Inv ∧ t.cfg = s.cfg := by
  rw [step_eq_stepAs]
  exact stepAs_inv s.turn (s := s.popTurn) h

/-- Settles O51: the one next state of a step from a legal state is legal (`step_inv`). -/
theorem everyStepKeepsInvariant : Obligations.EveryStepKeepsInvariant := by
  intro s t h e
  obtain ⟨u, hu, hinv, -⟩ := step_inv h
  cases hu.symm.trans e
  exact hinv

/-- Settles O52: a step from a legal state answers, with the parameters unchanged (`step_inv`). -/
theorem everyReachableStepAnswers : Obligations.EveryReachableStepAnswers := by
  intro s h
  obtain ⟨t, ht, -, hcfg⟩ := step_inv h
  exact ⟨t, ht, hcfg⟩

/-- Settles O15: the turn and the selector, or the command, determine what the step fetches. -/
theorem stepRunsDecodedInstruction : Obligations.StepRunsDecodedInstruction := by
  intro s i
  refine ⟨fun ht hd => ?_, fun ht hc => ?_⟩ <;> rw [step_eq_stepAs, ht, stepAs_eq]
  · have hf : s.popTurn.fetchEngine = .run i := by
      simp only [State.fetchEngine, State.popTurn_phase, State.popTurn_clk, State.popTurn_dir, hd]
    simp only [hf]
  · simp only [State.fetchHost, State.popTurn_cmd, hc]

/-- Settles O17: HOST without a command polls, and the poll looks at the first waiting byte. -/
theorem stepPollsLink : Obligations.StepPollsLink := by
  intro s ht hc
  have hpoll : step s = .next s.popTurn.pollLink := by
    rw [step_eq_stepAs, ht, stepAs_eq]
    simp only [State.fetchHost, State.popTurn_cmd, hc]
  refine ⟨fun hrx => ?_, fun c later hrx => ?_⟩ <;> rw [hpoll]
  · simp only [State.pollLink, State.popTurn_rx, hrx]
  · simp only [State.pollLink, State.popTurn_rx, hrx]

/-- Settles O49: every field is written out in `State.startUp`. -/
theorem resetLeavesStartUpValues : Obligations.ResetLeavesStartUpValues := by
  refine ⟨rfl, ?_⟩
  rintro p s rfl
  exact ⟨rfl, rfl, rfl, rfl, rfl, rfl, rfl, rfl, rfl, rfl, rfl, rfl, rfl, rfl, rfl⟩

end Sys2Proof.Machine

namespace Sys2Proof

/-! ### Widths -/

/-- The bus address of a low byte of its width is `ah * 2 ^ DATA_W + al`, in `ADDR_W` bits (rules R8, R24; log entry 2). -/
theorem toNat_busAddr {p : Params} {ah al : Byte} (h : al.toNat < 2 ^ p.dataW.val) :
    (busAddr p ah al).toNat = (ah.toNat * 2 ^ p.dataW.val + al.toNat) % 2 ^ p.addrW.val := by
  have hor : (ah.setWidth 16 <<< p.dataW.val ||| al.setWidth 16).toNat
      = (ah.toNat * 2 ^ p.dataW.val + al.toNat) % 2 ^ 16 := by
    have hah : ah.toNat % 2 ^ 16 = ah.toNat := Nat.mod_eq_of_lt (ah.isLt.trans (by norm_num))
    rw [BitVec.toNat_or, BitVec.toNat_shiftLeft, BitVec.toNat_setWidth, BitVec.toNat_setWidth, hah,
      ← Nat.shiftLeft_eq, Nat.shiftLeft_add_eq_or_of_lt h, Nat.or_mod_two_pow]
  rw [busAddr, Params.toNat_cutAddr, hor, Nat.mod_mod_of_dvd]
  exact Nat.pow_dvd_pow 2 (Nat.lt_succ_iff.1 p.addrW.isLt)

end Sys2Proof

namespace Sys2Proof.Machine

/-- At the listed `DATA_W` a sample is what TARGET presents (rules R8, R12). -/
theorem sampled_full {s : State} (h : s.cfg.dataW = 8) : s.sampled = s.presented := by
  simp only [State.sampled, Params.cut_full h]

/-- A bank write leaves its cell with the bits of a cell's width (rules R8, R57). -/
theorem cell_of_bankWrite {s t : State} {b : Bank} {a : Nat} {v : Byte} (h : s.bankWrite b a v = some t) :
    t.cell b a = s.cfg.cut v := by
  obtain ⟨-, rfl⟩ := State.bankWrite_some h
  simp only [State.cell_setCell, and_self, if_true]

/-- Settles O59: a cell and a sample are cut to `DATA_W`, and the bus address is `toNat_busAddr`. -/
theorem widthsLimitBusAddressAndCell : Obligations.WidthsLimitBusAddressAndCell := by
  refine ⟨rfl, rfl, fun s => ⟨fun b a v t h => ?_, rfl, s.cfg.toNat_cut _, sampled_full, toNat_busAddr,
    fun h h' => busAddr_full h h' _ _⟩⟩
  rw [cell_of_bankWrite h]
  exact ⟨s.cfg.toNat_cut v, fun h' => Params.cut_full h' v⟩

end Sys2Proof.Machine
end

section
/-! PROOFS. The atomic steps of the memory commands: a bulk mutation's cell writes under the lease, a read-back's cell reads, and what
an engine turn does between the first write and the release. -/

namespace Sys2Proof.Machine

/-! ### What a memory command's atomic step leaves alone -/

/-- What no cell write, read or response of a memory command touches: the lease, Control State, the settings, and what no host command
touches (rules R42, R204). -/
def memoryFrame (s t : State) : Prop :=
  t.leaseSaved = s.leaseSaved ∧ sameControl s t ∧ sameSettings s t ∧ hostFrame s t

theorem memoryFrame_refl (s : State) : memoryFrame s s := by
  simp [memoryFrame, sameControl, sameSettings, hostFrame, sameLatches, samePins, sameInputs]

theorem memoryFrame_setCell (s : State) (b : Bank) (a : Nat) (v : Byte) : memoryFrame s (s.setCell b a v) := memoryFrame_refl s

theorem memoryFrame_goTo {s t : State} (h : memoryFrame s t) (i : Instr) (q : Pos) : memoryFrame s (t.goTo i q) := h

theorem memoryFrame_finish {s t : State} (h : memoryFrame s t) : memoryFrame s t.finish := h

theorem memoryFrame_respond {s t : State} (h : memoryFrame s t) (frame : List Byte) : memoryFrame s (t.respond frame) := h

@[simp] theorem State.cell_goTo (s : State) (i : Instr) (q : Pos) (b : Bank) (a : Nat) : (s.goTo i q).cell b a = s.cell b a :=
  State.cell_congr rfl rfl rfl b a

/-! ### Bulk mutations -/

theorem exec_romlw_body {s : State} {k : Nat} (h : s.pos = .body k) (d : RomLoad) :
    exec (.romlw (.ok d)) s = .next (s.romlwWrite d k) := by
  simp only [exec, execRomlw, h]

theorem exec_ramclr_body {s : State} {k : Nat} (h : s.pos = .body k) : exec .ramclr s = .next (s.ramclrWrite k) := by
  simp only [exec, execRamclr, h]

/-- A byte of a load whose cell is in ROM (rule R164). -/
theorem State.romlwWrite_of_lt {s : State} {d : RomLoad} {k : Nat} {v : Byte} (hv : d.data[k]? = some v)
    (h : d.addr.toNat + k < s.cfg.romLen) :
    s.romlwWrite d k = (s.setCell .rom (d.addr.toNat + k) v).goTo (.romlw (.ok d)) (romlwPos d (k + 1)) := by
  simp only [State.romlwWrite, hv, State.bankWrite_eq, State.bankLen, h, if_true]

/-- A byte of a load past the end of ROM, which does not wrap (rule R164). -/
theorem State.romlwWrite_of_le {s : State} {d : RomLoad} {k : Nat} {v : Byte} (hv : d.data[k]? = some v)
    (h : s.cfg.romLen ≤ d.addr.toNat + k) :
    s.romlwWrite d k = s.goTo (.romlw (.ok d)) (.leaseRelease (some .outOfRange)) := by
  simp only [State.romlwWrite, hv, State.bankWrite_eq, State.bankLen, h.not_gt, if_false]

/-- A cell of a clear (rules R58, R165). -/
theorem State.ramclrWrite_of_lt {s : State} {k : Nat} (h : k < s.cfg.ramLen) :
    s.ramclrWrite k = (s.setCell .ram k 0x00#8).goTo .ramclr (ramclrPos s.cfg.ramLen (k + 1)) := by
  simp only [State.ramclrWrite, State.bankWrite_eq, State.bankLen, h, if_true, Option.getD_some]

/-- Settles O36: a cell write is a `setCell`, then a `goTo`. -/
theorem bulkMutationWritesOneCellPerStep : Obligations.BulkMutationWritesOneCellPerStep := by
  refine ⟨fun s d k v hpos hv => ⟨_, exec_romlw_body hpos d, ?_⟩, fun s k hpos hk => ⟨_, exec_ramclr_body hpos, ?_⟩⟩
  · rcases Nat.lt_or_ge (d.addr.toNat + k) s.cfg.romLen with hlt | hge
    · rw [State.romlwWrite_of_lt hv hlt]
      exact ⟨fun _ => ⟨fun b i => by rw [State.cell_goTo, State.cell_setCell], rfl⟩, fun hge => absurd hlt hge.not_gt,
        rfl, rfl, rfl, memoryFrame_goTo (memoryFrame_setCell s _ _ _) _ _⟩
    · rw [State.romlwWrite_of_le hv hge]
      exact ⟨fun hlt => absurd hlt hge.not_gt, fun _ => ⟨State.cell_goTo s _ _, rfl⟩,
        rfl, rfl, rfl, memoryFrame_goTo (memoryFrame_refl s) _ _⟩
  · rw [State.ramclrWrite_of_lt hk]
    exact ⟨fun b i => by rw [State.cell_goTo, State.cell_setCell, Params.cut_zero], ⟨rfl, rfl, rfl, rfl⟩,
      memoryFrame_goTo (memoryFrame_setCell s _ _ _) _ _⟩

/-! ### Read-backs -/

theorem exec_ramlr_reading {s : State} {k : Nat} {out : List Byte} (h : s.pos = .reading k out) (a : Addr) (n : Nat) :
    exec (.ramlr (.ok (a, n))) s = .next (s.readBack .ram (.ramlr (.ok (a, n))) kwRamlr a.toNat n k out) := by
  simp only [exec, execRamlr, State.readBackStep, h]

theorem exec_romlr_reading {s : State} {k : Nat} {out : List Byte} (h : s.pos = .reading k out) (a : Addr) (n : Nat) :
    exec (.romlr (.ok (a, n))) s = .next (s.readBack .rom (.romlr (.ok (a, n))) kwRomlr a.toNat n k out) := by
  simp only [exec, execRomlr, State.readBackStep, h]

/-- A cell read of a read-back in range: the digits of the one cell are appended, and the last read responds (rules R64, R166, R167). -/
theorem State.readBack_of_lt {s : State} {b : Bank} {a n k : Nat} (hk : k < n) (h : a + n ≤ s.bankLen b) (i : Instr)
    (action out : List Byte) :
    s.readBack b i action a n k out =
      if k + 1 < n then s.goTo i (.reading (k + 1) (out ++ byteToHex2 (s.cell b (a + k))))
      else (s.respond (responseText action (out ++ byteToHex2 (s.cell b (a + k))))).finish := by
  have hcell : a + k < s.bankLen b := by omega
  simp only [State.readBack, hk, State.bankRead_eq, hcell, if_true]

/-- The two outcomes of a cell read in range, for either bank. -/
theorem readBack_reads_one_cell {s : State} {b : Bank} {a n k : Nat} (hk : k < n) (h : a + n ≤ s.bankLen b) (i : Instr)
    (action out : List Byte) {t : State} (ht : t = s.readBack b i action a n k out) :
    (k + 1 < n → goesOnAt i (.reading (k + 1) (out ++ byteToHex2 (s.cell b (a + k)))) s t)
      ∧ (k + 1 = n → endedWith [responseText action (out ++ byteToHex2 (s.cell b (a + k)))] s t)
      ∧ sameControl s t ∧ t.leaseSaved = s.leaseSaved ∧ sameSettings s t ∧ sameMemory s t ∧ hostFrame s t := by
  rw [State.readBack_of_lt hk h] at ht
  by_cases hlast : k + 1 < n
  · rw [if_pos hlast] at ht
    subst ht
    obtain ⟨hlease, hcontrol, hsettings, hhost⟩ := memoryFrame_goTo (memoryFrame_refl s) i _
    exact ⟨fun _ => ⟨rfl, rfl, rfl, rfl⟩, fun hn => absurd hn hlast.ne, hcontrol, hlease, hsettings,
      sameMemory_of_banks rfl rfl rfl, hhost⟩
  · rw [if_neg hlast] at ht
    subst ht
    obtain ⟨hlease, hcontrol, hsettings, hhost⟩ := memoryFrame_finish (memoryFrame_respond (memoryFrame_refl s) _)
    exact ⟨fun hn => absurd hn hlast, fun _ => ⟨rfl, rfl, rfl, rfl⟩, hcontrol, hlease, hsettings,
      sameMemory_of_banks rfl rfl rfl, hhost⟩

/-- Settles O39: both commands are `readBack`, on their bank. -/
theorem readBackReadsOneCellPerStep : Obligations.ReadBackReadsOneCellPerStep := by
  intro s a n k out hpos hk
  exact ⟨fun h => ⟨_, exec_ramlr_reading hpos a n, readBack_reads_one_cell hk h _ _ _ rfl⟩,
    fun h => ⟨_, exec_romlr_reading hpos a n, readBack_reads_one_cell hk h _ _ _ rfl⟩⟩

/-! ### The lease keeps the engine at rest -/

/-- From the end of the wait to the release the engine is in `Idle` with the clock disabled (rule R161). -/
theorem idle_of_leaseOk {s : State} (h : leaseOk s = true) (hpos : (∃ k, s.pos = .body k) ∨ ∃ e, s.pos = .leaseRelease e) :
    s.phase = .idle ∧ s.clockEnabled = false := by
  obtain ⟨k, hk⟩ | ⟨e, he⟩ := hpos
  · simp only [leaseOk, hk, Bool.and_eq_true, Bool.not_eq_true', beq_iff_eq] at h
    exact ⟨h.2, h.1.2⟩
  · simp only [leaseOk, he, Bool.and_eq_true, Bool.not_eq_true', beq_iff_eq] at h
    exact ⟨h.2, h.1.2⟩

/-- Where pins and clock are legal, ENGINE's step in `Idle` with the clock disabled changes nothing (rule R111). -/
theorem stepAs_engine_rest {s : State} (h : engineOk s = true) (hp : s.phase = .idle) (hc : s.clockEnabled = false) :
    stepAs .engine s = .next s := by
  obtain ⟨i, hf, hi, t, e⟩ := fetchEngine_answers h
  rw [stepAs_eq]
  simp only [hf]
  rw [e, exec_engine_rest hi hp hc e]

/-- Settles O57: the lease holds the engine at rest (`idle_of_leaseOk`), where its step changes nothing (`stepAs_engine_rest`). -/
theorem bulkMutationSeesNoBusCycle : Obligations.BulkMutationSeesNoBusCycle := by
  intro s hinv hpos ht
  obtain ⟨hengine, -, hlease, -⟩ := hinv
  obtain ⟨hidle, hclock⟩ := idle_of_leaseOk hlease hpos
  rw [step_eq_stepAs, ht]
  exact stepAs_engine_rest (s := s.popTurn) hengine hidle hclock

end Sys2Proof.Machine
end

section
/-! PROOFS. The decoder on what the encoder writes: each payload is read back as its operands, each action is dispatched to its
command, and so each well-formed frame is decoded to its command. -/

namespace Sys2Proof

/-! ### The dispatcher's table (rules R100, R101) -/

theorem dispatch_romlw (p : Params) (payload : List Byte) :
    dispatch p .message kwRomlw payload = .romlw (argRomLoad payload) := rfl

theorem dispatch_rom (p : Params) (payload : List Byte) : dispatch p .request kwRom payload = .rom (argRom payload) := rfl

theorem dispatch_ramlr (p : Params) (payload : List Byte) :
    dispatch p .request kwRamlr payload = .ramlr (argRead p payload) := rfl

theorem dispatch_romlr (p : Params) (payload : List Byte) :
    dispatch p .request kwRomlr payload = .romlr (argRead p payload) := rfl

theorem dispatch_clock (p : Params) (payload : List Byte) :
    dispatch p .request kwClock payload = dispatchClock payload := rfl

theorem dispatch_sett (p : Params) (payload : List Byte) : dispatch p .request kwSett payload = dispatchSett payload := rfl

theorem dispatch_setting (p : Params) (payload : List Byte) :
    dispatch p .request kwSetting payload = .setting (argKey payload) := rfl

theorem dispatchSett_tick (value : List Byte) :
    dispatchSett (keyText .tick ++ chComma :: value) = .settTick (argTick value) := by
  simp only [dispatchSett, splitComma_append _ _ (comma_notMem_keyText .tick), keyOf_keyText]

theorem dispatchSett_key {k : SettKey} (hk : k ≠ .tick) (value : List Byte) :
    dispatchSett (keyText k ++ chComma :: value) = .sett (.ok (k, value)) := by
  simp only [dispatchSett, splitComma_append _ _ (comma_notMem_keyText k), keyOf_keyText]

/-- `CLOCK` with a payload other than its two (rule R147). -/
theorem dispatchClock_other {payload : List Byte} (h0 : payload ≠ [ch0]) (h1 : payload ≠ [ch1]) :
    dispatchClock payload = .clockOther payload := by
  rw [dispatchClock, if_neg h0, if_neg h1]

/-! ### Operands: the payload of every form the decoder can give is read back as that form -/

theorem hexCause_iff {c : Cause} : hexCause c = true ↔ c = .badArgument ∨ c = .invalidDigit := by simp [hexCause]

theorem argRom_romPayload_of_ok {p : Params} {x : Arg (Addr × Byte)} (h : operandsOk p (.rom x) = true) :
    argRom (romPayload x) = x := by
  cases x with
  | ok x => exact argRom_romPayload x.1 x.2
  | bad c => obtain rfl | rfl := hexCause_iff.1 h <;> rfl

theorem argRomLoad_romlwPayload_of_ok {p : Params} {x : Arg RomLoad} (h : operandsOk p (.romlw x) = true) :
    argRomLoad (romlwPayload x) = x := by
  cases x with
  | ok d => exact argRomLoad_romlwPayload d
  | bad c => obtain rfl | rfl := hexCause_iff.1 h <;> rfl

/-- The same operand forms stand in `RAMLR` and `ROMLR` (rules R166, R167). -/
theorem argRead_readPayload_of_ok {p : Params} {x : Arg (Addr × Nat)} (h : operandsOk p (.ramlr x) = true) :
    argRead p (readPayload p x) = x := by
  cases x with
  | ok x => exact argRead_readPayload h x.1 x.2
  | bad c =>
    obtain ⟨hradix, hcause⟩ := Bool.and_eq_true_iff.1 h
    exact argRead_bad hradix hcause

theorem dispatchSett_tickPayload {p : Params} {x : Arg Nat} (h : operandsOk p (.settTick x) = true) :
    dispatchSett (tickPayload x) = .settTick x := by
  cases x with
  | ok n =>
    rw [tickPayload, dispatchSett_tick, argTick, parseNumeral_numeral (by norm_num) (by norm_num)]
  | bad c =>
    obtain rfl : c = .badArgument := by simpa [operandsOk] using h
    exact dispatchSett_tick []

theorem dispatchSett_settPayload {p : Params} {x : Arg (SettKey × List Byte)} (h : operandsOk p (.sett x) = true) :
    dispatchSett (settPayload x) = .sett x := by
  cases x with
  | ok x =>
    obtain ⟨k, v⟩ := x
    exact dispatchSett_key (by simpa [operandsOk] using h) v
  | bad c =>
    obtain rfl : c = .badArgument := by simpa [operandsOk] using h
    rfl

theorem argKey_keyText (k : SettKey) : argKey (keyText k) = .ok k := by
  rw [argKey, keyOf_keyText]

theorem argKey_settingPayload {p : Params} {x : Arg SettKey} (h : operandsOk p (.setting x) = true) :
    argKey (settingPayload x) = x := by
  cases x with
  | ok k => exact argKey_keyText k
  | bad c =>
    obtain rfl : c = .badArgument := by simpa [operandsOk] using h
    rfl

/-! ### Frames -/

/-- The dispatcher reads a command back from the kind, action and payload of its frame (rules R84, R100, R101). -/
theorem dispatch_of_frameOf {p : Params} {i : Instr} {f : Kind × List Byte × List Byte} (hi : Machine.isHostFrame i = true)
    (ho : operandsOk p i = true) (hf : frameOf p i = some f) : dispatch p f.1 f.2.1 f.2.2 = i := by
  cases i <;> cases hf
  case clock0 | clock1 | clockPulse | reset | ramclr | awake | save => rfl
  case clockOther payload =>
    obtain ⟨h0, h1⟩ : payload ≠ [ch0] ∧ payload ≠ [ch1] := by simpa [operandsOk] using ho
    rw [dispatch_clock, dispatchClock_other h0 h1]
  case settTick x => rw [dispatch_sett, dispatchSett_tickPayload ho]
  case rom x => rw [dispatch_rom, argRom_romPayload_of_ok ho]
  case romlw x => rw [dispatch_romlw, argRomLoad_romlwPayload_of_ok ho]
  case ramlr x => rw [dispatch_ramlr, argRead_readPayload_of_ok ho]
  case romlr x =>
    rw [dispatch_romlr, argRead_readPayload_of_ok (by cases x <;> exact ho)]
  case sett x => rw [dispatch_sett, dispatchSett_settPayload ho]
  case setting x => rw [dispatch_setting, argKey_settingPayload ho]
  case error c => cases hi
  case unknownAction k action =>
    obtain ⟨-, hunknown⟩ : _ ∧ knownAction k action = false := by simpa [operandsOk] using ho
    exact dispatch_unknown [] hunknown

/-- No action of a frame holds one of the parser's own characters (rules R85, R90). -/
theorem frameOf_action_plain {p : Params} {i : Instr} {f : Kind × List Byte × List Byte} (ho : operandsOk p i = true)
    (hf : frameOf p i = some f) : ∀ c ∈ f.2.1, plainByte c = true := by
  cases i <;> cases hf
  case unknownAction k action =>
    obtain ⟨hplain, -⟩ := Bool.and_eq_true_iff.1 ho
    exact List.all_eq_true.1 hplain
  all_goals exact List.all_eq_true.1 rfl

/-- A well-formed command is decoded from the frame that carries it, whatever bytes follow (rules R84, R85, R88 to R94). -/
theorem decodeFrame_encodeFrame {p : Params} {i : Instr} {bytes : List Byte} (hi : Machine.isHostFrame i = true)
    (hw : WellFormed p i = true) (he : encodeFrame p i = some bytes) (rest : List Byte) :
    decodeFrame p (bytes ++ rest) = .ok (i, rest) := by
  obtain ⟨f, hf, rfl⟩ := Option.map_eq_some_iff.1 he
  simp only [WellFormed, hf, Bool.and_eq_true] at hw
  obtain ⟨ho, hfit⟩ := hw
  rw [decodeFrame_frameText p _ _ _ rest (frameOf_action_plain ho hf) hfit, dispatch_of_frameOf hi ho hf]

end Sys2Proof

namespace Sys2Proof.Machine

theorem isHostFrame_of_isControlFrame {i : Instr} (h : isControlFrame i = true) : isHostFrame i = true := by
  cases i <;> cases h <;> rfl

theorem isHostFrame_of_isMemoryFrame {i : Instr} (h : isMemoryFrame i = true) : isHostFrame i = true := by
  cases i <;> cases h <;> rfl

theorem isHostFrame_of_isLinkFrame {i : Instr} (h : isLinkFrame i = true) : isHostFrame i = true := by
  cases i <;> cases h <;> rfl

/-- Settles O4: control commands are host frames, so `decodeFrame_encodeFrame` reads them back. -/
theorem encodedControlCommandsDecode : Obligations.EncodedControlCommandsDecode := fun _ _ _ rest hi hw he =>
  decodeFrame_encodeFrame (isHostFrame_of_isControlFrame hi) hw he rest

/-- Settles O5, as O4. -/
theorem encodedMemoryCommandsDecode : Obligations.EncodedMemoryCommandsDecode := fun _ _ _ rest hi hw he =>
  decodeFrame_encodeFrame (isHostFrame_of_isMemoryFrame hi) hw he rest

/-- Settles O6, as O4. -/
theorem encodedLinkCommandsDecode : Obligations.EncodedLinkCommandsDecode := fun _ _ _ rest hi hw he =>
  decodeFrame_encodeFrame (isHostFrame_of_isLinkFrame hi) hw he rest

end Sys2Proof.Machine
end

section
/-! PROOFS. What the parser does with one byte in each of its states, and the frames read byte by byte in HOST's turns. -/

namespace Sys2Proof

/-! ### One byte, in each state of the parser (rules R88 to R92) -/

/-- The sentinels of the two kinds (rules R85, R88). -/
theorem kindOf_sentinel {c : Byte} {k : Kind} (h : (c = 0x21#8 ∧ k = .message) ∨ (c = 0x3F#8 ∧ k = .request)) :
    kindOf c = some k := by
  obtain ⟨rfl, rfl⟩ | ⟨rfl, rfl⟩ := h <;> rfl

theorem kindOf_eq_none {c : Byte} (h1 : c ≠ chBang) (h2 : c ≠ chQuery) : kindOf c = none := by
  rw [kindOf, if_neg h1, if_neg h2]

theorem kindOf_chClose : kindOf chClose = none := rfl

/-- Outside a payload a sentinel starts a new frame, whatever has been read (rules R88, R93). -/
theorem parserByte_of_sentinel {p : Params} {q : Parser} {c : Byte} {k : Kind} (hc : kindOf c = some k)
    (hq : q.pstate ≠ .readingPayload) : parserByte p q c = (Parser.start k, .quiet) := by
  cases hs : q.pstate
  case readingPayload => exact absurd hs hq
  all_goals simp only [parserByte, hs, hc]

theorem parserByte_of_awaitingSentinel {p : Params} {q : Parser} {c : Byte} (hq : q.pstate = .awaitingSentinel)
    (hc : kindOf c = none) : parserByte p q c = (q, .quiet) := by
  simp only [parserByte, hq, hc]

theorem parserByte_of_awaitingOpenBrace {p : Params} {q : Parser} {c : Byte} (hq : q.pstate = .awaitingOpenBrace)
    (hc : kindOf c = none) :
    parserByte p q c =
      if c = chOpen then ({ q with pstate := .readingHeader, header := [] }, .quiet) else (q.clear, .quiet) := by
  simp only [parserByte, hq, hc]

theorem parserByte_of_readingHeader {p : Params} {q : Parser} {c : Byte} (hq : q.pstate = .readingHeader)
    (hc : kindOf c = none) : parserByte p q c = headerByte p q c := by
  simp only [parserByte, hq, hc]

theorem parserByte_chClose {p : Params} {q : Parser} (hq : q.pstate = .readingHeader) :
    parserByte p q chClose = closeHeader p q := by
  rw [parserByte_of_readingHeader hq kindOf_chClose, headerByte, if_pos rfl]

/-- In a payload a byte is payload, a sentinel too unless `PREEMPT_IN_PAYLOAD` is set (rule R92). -/
theorem parserByte_of_readingPayload {p : Params} {q : Parser} {c : Byte} (hq : q.pstate = .readingPayload)
    (hc : p.preemptInPayload = false ∨ kindOf c = none) : parserByte p q c = payloadByte q c := by
  obtain hp | hc := hc
  · simp only [parserByte, hq, hp]
    cases kindOf c <;> rfl
  · simp only [parserByte, hq, hc]

theorem parserByte_preempts_payload {p : Params} {q : Parser} {c : Byte} {k : Kind} (hq : q.pstate = .readingPayload)
    (hp : p.preemptInPayload = true) (hc : kindOf c = some k) : parserByte p q c = (Parser.start k, .quiet) := by
  simp only [parserByte, hq, hc, hp]

/-- A comma below the cap is appended, and the first one recorded (rule R90). -/
theorem headerByte_comma {p : Params} {q : Parser} (hcap : q.header.length < p.headerCap) :
    headerByte p q chComma =
      ({ q with commaAt := some (q.commaAt.getD q.header.length), header := q.header ++ [chComma] }, .quiet) := by
  rw [headerByte, if_neg (by decide), if_neg hcap.not_ge]
  cases h : q.commaAt
  · rw [if_pos ⟨rfl, rfl⟩, Option.getD_none]
  · rw [if_neg (by simp), Option.getD_some, ← h]

/-- A header byte with no room left, the close brace apart, is an error (rules R90, R194). -/
theorem headerByte_overrun {p : Params} {q : Parser} {c : Byte} (hc : c ≠ chClose) (hcap : p.headerCap ≤ q.header.length) :
    headerByte p q c = (q.clear, .error .malformedHeader) := by
  rw [headerByte, if_neg hc, if_pos hcap]

/-! ### The close brace (rule R91) -/

theorem closeHeader_of_no_comma {p : Params} {q : Parser} (h : q.commaAt = none) :
    closeHeader p q = (q.clear, .error .malformedHeader) := by
  simp only [closeHeader, h]

section
variable {p : Params} {q : Parser} {n : Nat} (hcomma : q.commaAt = some n)
include hcomma

theorem closeHeader_of_bad_length (hlen : parseNumeral 10 (q.header.drop (n + 1)) = none) :
    closeHeader p q = (q.clear, .error .malformedHeader) := by
  simp only [closeHeader, hcomma, hlen]

theorem closeHeader_of_too_large {d : Nat} (hlen : parseNumeral 10 (q.header.drop (n + 1)) = some d)
    (hcap : p.payloadCap < d) : closeHeader p q = (q.clear, .error .frameTooLarge) := by
  simp only [closeHeader, hcomma, hlen, hcap, if_true]

theorem closeHeader_of_zero (hlen : parseNumeral 10 (q.header.drop (n + 1)) = some 0) :
    closeHeader p q = ({ q with declared := 0 }, .frame q.kind (q.header.take n) []) := by
  simp only [closeHeader, hcomma, hlen, Nat.not_lt_zero, if_false, if_true, Parser.action, Option.getD_some]

theorem closeHeader_of_length {d : Nat} (hlen : parseNumeral 10 (q.header.drop (n + 1)) = some d)
    (hcap : d ≤ p.payloadCap) (hd : d ≠ 0) :
    closeHeader p q = ({ q with declared := d, got := 0, pstate := .readingPayload }, .quiet) := by
  simp only [closeHeader, hcomma, hlen, hcap.not_gt, hd, if_false]

end

/-! ### The parser's statements -/

/-- Settles O7: each state's byte lemma. -/
theorem frameOpeningBytes : Obligations.FrameOpeningBytes := by
  intro p q c
  refine ⟨fun hq => ⟨fun h1 h2 => ?_, fun k hk => ?_⟩, fun hq => ⟨?_, fun k hk => ?_, fun ho h1 h2 => ?_⟩⟩
  · exact parserByte_of_awaitingSentinel hq (kindOf_eq_none h1 h2)
  · exact parserByte_of_sentinel (kindOf_sentinel hk) (by simp [hq])
  · rintro rfl
    exact (parserByte_of_awaitingOpenBrace hq rfl).trans (if_pos rfl)
  · exact parserByte_of_sentinel (kindOf_sentinel hk) (by simp [hq])
  · rw [parserByte_of_awaitingOpenBrace hq (kindOf_eq_none h1 h2), if_neg (show c ≠ chOpen from ho)]
    exact ⟨rfl, rfl⟩

/-- Settles O9: the close brace closes the header (`parserByte_chClose`), by the tests of `closeHeader` in order. -/
theorem headerCloseOutcome : Obligations.HeaderCloseOutcome := by
  intro p q hq
  have hclose : parserByte p q 0x7D#8 = closeHeader p q := parserByte_chClose hq
  rw [hclose]
  refine ⟨fun hcomma => ?_, fun n hcomma => ⟨fun hlen => ?_, fun d hlen => ⟨fun hcap => ?_, ?_, fun hcap hd => ?_⟩⟩⟩
  · rw [closeHeader_of_no_comma hcomma]
    exact ⟨rfl, rfl⟩
  · rw [closeHeader_of_bad_length hcomma hlen]
    exact ⟨rfl, rfl⟩
  · rw [closeHeader_of_too_large hcomma hlen hcap]
    exact ⟨rfl, rfl⟩
  · rintro - rfl
    rw [closeHeader_of_zero hcomma hlen]
  · exact closeHeader_of_length hcomma hlen hcap hd

/-- Settles O10: a byte of the payload is `payloadByte`, unless a sentinel pre-empts it. -/
theorem payloadBytesArePayload : Obligations.PayloadBytesArePayload := by
  intro p q c hq
  refine ⟨fun hc => ?_, fun hp k hk => parserByte_preempts_payload hq hp (kindOf_sentinel hk)⟩
  rw [parserByte_of_readingPayload hq (hc.imp_right fun h => kindOf_eq_none h.1 h.2), payloadByte]
  by_cases hlast : q.got + 1 = q.declared <;> simp [hlast]

/-- Settles O11: a sentinel starts a frame, and any other byte is `headerByte`. -/
theorem headerBytesAccumulate : Obligations.HeaderBytesAccumulate := by
  intro p q c hq
  refine ⟨fun k hk => ?_, ?_, ?_, fun h1 h2 hclose hcomma => ⟨fun hcap => ?_, fun hcap => ?_⟩⟩
  · exact parserByte_of_sentinel (kindOf_sentinel hk) (by simp [hq])
  · rintro rfl
    exact parserByte_chClose hq
  · rintro rfl hcap
    rw [parserByte_of_readingHeader hq rfl]
    exact headerByte_comma hcap
  · exact parserByte_header hq (plainByte_iff.2 ⟨kindOf_eq_none h1 h2, hcomma, hclose⟩) hcap
  · rw [parserByte_of_readingHeader hq (kindOf_eq_none h1 h2), headerByte_overrun hclose hcap]
    exact ⟨rfl, rfl⟩

/-! ### The decoder uses a byte -/

/-- What is left after a command is shorter than what it was read from (rule R87). -/
theorem decodeFrom_rest_lt {p : Params} {i : Instr} {later : List Byte} :
    ∀ {bytes : List Byte} {q : Parser}, decodeFrom p q bytes = .ok (i, later) → later.length < bytes.length := by
  intro bytes
  induction bytes with
  | nil => exact nofun
  | cons c bytes ih =>
    intro q h
    simp only [decodeFrom] at h
    split at h
    · exact (ih h).trans (Nat.lt_succ_self _)
    · cases h
      exact Nat.lt_succ_self _
    · cases h

end Sys2Proof

namespace Sys2Proof.Machine

theorem core_run_succ {s t : State} (h : step s = .next t) (n : Nat) : core.run (n + 1) s = core.run n t := by
  simp only [Host.Core.run, show core.step s = .next t from h]

section
variable {s : State} {c : Byte} {later : List Byte} {ts : List Turn} {q : Parser} (hcmd : s.cmd = none)
  (hrx : s.rx = c :: later) (hturns : s.turns = .host :: ts)
include hcmd hrx hturns

/-- HOST's turn with a byte waiting and no command: the parser takes the byte (rules R15, R88). -/
theorem step_host_byte : step s = .next (({ s with rx := later, turns := ts } : State).takeByte c) := by
  have hpop : s.popTurn = { s with turns := ts } := by simp only [State.popTurn, hturns, drawsAfter, List.tail_cons]
  obtain ⟨-, hbyte⟩ := stepPollsLink s (by simp only [State.turn, hturns]) hcmd
  rw [hbyte c later hrx, hpop]

/-- The byte completes nothing. -/
theorem step_host_quiet (h : parserByte s.cfg s.parser c = (q, .quiet)) :
    step s = .next { s with rx := later, turns := ts, parser := q } := by
  rw [step_host_byte hcmd hrx hturns]
  simp only [State.takeByte, h]

/-- The byte completes a frame, whose command HOST then has before it (rule R94). -/
theorem step_host_frame {k : Kind} {action payload : List Byte}
    (h : parserByte s.cfg s.parser c = (q, .frame k action payload)) :
    step s = .next { s with
      rx := later, turns := ts, parser := q, cmd := some (dispatch s.cfg k action payload), pos := .start } := by
  rw [step_host_byte hcmd hrx hturns]
  simp only [State.takeByte, h]

end

theorem blockFrame_refl (s : State) : blockFrame s s := by
  simp [blockFrame, sameLatches, samePins, sameControl, sameMemory, sameSettings]

/-- Settles O14, by induction on the bytes of the frame: a byte that completes nothing leaves the parser where the decoder goes on,
and the last one hands over the decoder's instruction. -/
theorem frameBytesReachDispatcher : Obligations.FrameBytesReachDispatcher := by
  intro s i used later ts hcmd hdec hrx hturns
  induction used generalizing s with
  | nil => exact absurd (decodeFrom_rest_lt hdec) (lt_irrefl _)
  | cons c used ih =>
    simp only [List.cons_append, decodeFrom] at hdec
    split at hdec
    next q hbyte =>
      rw [List.length_cons, core_run_succ (step_host_quiet hcmd hrx hturns hbyte)]
      exact ih _ hcmd hdec rfl rfl
    next q k action payload hbyte =>
      obtain ⟨rfl, rfl⟩ : dispatch s.cfg k action payload = i ∧ used = [] := by simpa using hdec
      exact ⟨_, core_run_succ (step_host_frame hcmd hrx hturns hbyte) 0, rfl, rfl, rfl, rfl, rfl, rfl, blockFrame_refl s⟩
    next => cases hdec

end Sys2Proof.Machine
end

section
/-! PROOFS. The engine's selector, the hex codec, and the words of the spec. -/

namespace Sys2Proof.Machine

/-! ### The selector (rules R80, R81) -/

/-- Settles O1: the fields of each selector, then the rows of the table on each of the 16 words. -/
theorem selectorTableDecodes : Obligations.SelectorTableDecodes := by
  refine ⟨fun ph clk d => ?_, ?_⟩
  · cases ph <;> cases clk <;> cases d <;> exact ⟨by decide, by decide, by decide⟩
  · decide

/-- Clock high outside the data phase is no row of the table (rule R81). -/
theorem decodeSelector_unreachable {ph : Phase} (h : ph ≠ .data) (d : Dir) :
    decodeSelector (selector ph true d) = .error .unreachableSelector := by
  cases ph
  case data => exact absurd rfl h
  all_goals cases d <;> rfl

/-- Settles O2: such a selector leaves ENGINE's turn without an operation, and each operation begins by testing its `pre:` line. -/
theorem engineStopsOutsideItsOperations : Obligations.EngineStopsOutsideItsOperations := by
  intro s
  refine ⟨fun hp hk => ?_, fun h => if_neg h, fun h => if_neg h, fun h => if_neg h, fun h => if_neg h, fun h => if_neg h,
    fun h => if_neg h⟩
  have hsel : decodeSelector (selector s.phase s.clk s.dir) = .error .unreachableSelector := by
    rw [hk]
    exact decodeSelector_unreachable hp s.dir
  refine ⟨hsel, fun ht => ?_⟩
  have hstuck : s.popTurn.fetchEngine = .stuck := by
    simp only [State.fetchEngine, State.popTurn_phase, State.popTurn_clk, State.popTurn_dir, hsel]
  rw [step_eq_stepAs, ht, stepAs_eq]
  simp only [hstuck]

/-! ### Hex digits (rules R96, R97) -/

/-- The value of a digit in either case, and no other character has one (rule R96). -/
theorem digitVal_eq_some_iff {c : Byte} {d : Nat} : digitVal c = some d ↔ hexDigit c d := by
  unfold digitVal hexDigit
  (repeat' split) <;> simp only [Option.some.injEq, reduceCtorEq, false_iff] <;> omega

theorem digitVal_eq_none {c : Byte} (h : ∀ d, ¬hexDigit c d) : digitVal c = none :=
  Option.eq_none_iff_forall_not_mem.2 fun d hd => h d (digitVal_eq_some_iff.1 hd)

/-- An emitted digit is an upper-case digit of its value (rule R97). -/
theorem hexDigit_digitChar {d : Nat} (h : d < 16) : hexDigit (digitChar d) d ∧ (digitChar d).toNat ≤ 0x46 := by
  have hupper : ∀ d : Fin 16, (digitChar d).toNat ≤ 0x46 := by decide
  exact ⟨digitVal_eq_some_iff.1 (digitVal_digitChar h), hupper ⟨d, h⟩⟩

theorem hex2_eq_some {c0 c1 : Byte} {d0 d1 : Nat} (h0 : hexDigit c0 d0) (h1 : hexDigit c1 d1) :
    hex2 c0 c1 = some (BitVec.ofNat 8 (16 * d0 + d1)) := by
  simp only [hex2, digitVal_eq_some_iff.2 h0, digitVal_eq_some_iff.2 h1]

theorem hex2_eq_none {c0 c1 : Byte} (h : (∀ d, ¬hexDigit c0 d) ∨ ∀ d, ¬hexDigit c1 d) : hex2 c0 c1 = none := by
  unfold hex2
  split
  next d0 d1 h0 h1 =>
    rw [digitVal_eq_some_iff] at h0 h1
    exact (h.elim (· d0 h0) (· d1 h1)).elim
  next => rfl

theorem hex4_eq_some {c0 c1 c2 c3 : Byte} {d0 d1 d2 d3 : Nat} (h0 : hexDigit c0 d0) (h1 : hexDigit c1 d1)
    (h2 : hexDigit c2 d2) (h3 : hexDigit c3 d3) :
    hex4 c0 c1 c2 c3 = some (BitVec.ofNat 16 (4096 * d0 + 256 * d1 + 16 * d2 + d3)) := by
  simp only [hex4, digitVal_eq_some_iff.2 h0, digitVal_eq_some_iff.2 h1, digitVal_eq_some_iff.2 h2,
    digitVal_eq_some_iff.2 h3]

theorem hex4_eq_none {c0 c1 c2 c3 : Byte}
    (h : (∀ d, ¬hexDigit c0 d) ∨ (∀ d, ¬hexDigit c1 d) ∨ (∀ d, ¬hexDigit c2 d) ∨ ∀ d, ¬hexDigit c3 d) :
    hex4 c0 c1 c2 c3 = none := by
  unfold hex4
  split
  next d0 d1 d2 d3 h0 h1 h2 h3 =>
    rw [digitVal_eq_some_iff] at h0 h1 h2 h3
    obtain h | h | h | h := h
    · exact (h d0 h0).elim
    · exact (h d1 h1).elim
    · exact (h d2 h2).elim
    · exact (h d3 h3).elim
  next => rfl

theorem byteToHex2_digits (v : Byte) : ∃ c0 c1, byteToHex2 v = [c0, c1] ∧ hexDigit c0 (v.toNat / 16)
    ∧ hexDigit c1 (v.toNat % 16) ∧ c0.toNat ≤ 0x46 ∧ c1.toNat ≤ 0x46 := by
  have hv := v.isLt
  obtain ⟨h0, u0⟩ := hexDigit_digitChar (show v.toNat / 16 < 16 by omega)
  obtain ⟨h1, u1⟩ := hexDigit_digitChar (show v.toNat % 16 < 16 by omega)
  exact ⟨_, _, rfl, h0, h1, u0, u1⟩

theorem wordToHex4_digits (w : Addr) : ∃ c0 c1 c2 c3, wordToHex4 w = [c0, c1, c2, c3] ∧ hexDigit c0 (w.toNat / 4096)
    ∧ hexDigit c1 (w.toNat / 256 % 16) ∧ hexDigit c2 (w.toNat / 16 % 16) ∧ hexDigit c3 (w.toNat % 16)
    ∧ c0.toNat ≤ 0x46 ∧ c1.toNat ≤ 0x46 ∧ c2.toNat ≤ 0x46 ∧ c3.toNat ≤ 0x46 := by
  have hw := w.isLt
  obtain ⟨h0, u0⟩ := hexDigit_digitChar (show w.toNat / 4096 < 16 by omega)
  obtain ⟨h1, u1⟩ := hexDigit_digitChar (show w.toNat / 256 % 16 < 16 by omega)
  obtain ⟨h2, u2⟩ := hexDigit_digitChar (show w.toNat / 16 % 16 < 16 by omega)
  obtain ⟨h3, u3⟩ := hexDigit_digitChar (show w.toNat % 16 < 16 by omega)
  exact ⟨_, _, _, _, rfl, h0, h1, h2, h3, u0, u1, u2, u3⟩

theorem hexPairs_of_bad_pair {c0 c1 : Byte} (h : hex2 c0 c1 = none) (text : List Byte) :
    hexPairs (c0 :: c1 :: text) = ([], false) := by
  simp only [hexPairs, h]

theorem hexPairs_of_pair {c0 c1 v : Byte} (h : hex2 c0 c1 = some v) (text : List Byte) :
    hexPairs (c0 :: c1 :: text) = (v :: (hexPairs text).1, (hexPairs text).2) := by
  simp only [hexPairs, h]

/-- Settles O8: each reader and each emitter by its digits (`digitVal_eq_some_iff`, `hexDigit_digitChar`). -/
theorem hexCodecReadsDigits : Obligations.HexCodecReadsDigits :=
  ⟨fun _ _ _ _ => hex2_eq_some, fun _ _ => hex2_eq_none, fun _ _ _ _ _ _ _ _ => hex4_eq_some,
    fun _ _ _ _ => hex4_eq_none, byteToHex2_digits, wordToHex4_digits, rfl, fun _ => rfl,
    fun _ _ text => ⟨fun h => hexPairs_of_bad_pair h text, fun _ h => hexPairs_of_pair h text⟩⟩

/-! ### Words of the spec -/

/-- A frame within both caps and with no sentinel in its payload passes the parser (rules R90 to R92). -/
theorem frameFits_of_noSentinel {p : Params} {action payload : List Byte}
    (hheader : action.length + 1 + (numeral 10 payload.length).length ≤ p.headerCap)
    (hpayload : payload.length ≤ p.payloadCap) (hs : (payload.all fun c => (kindOf c).isNone) = true) :
    frameFits p action payload = true := by
  simp only [frameFits, hs, hheader, hpayload, decide_true, Bool.or_true, Bool.and_true]

/-- Settles O3: the frames are those the encoder writes for the two commands, so `decodeFrame_encodeFrame` reads them. -/
theorem specWordsDecode : Obligations.SpecWordsDecode := by
  refine ⟨rfl, fun p hheader hpayload => ⟨?_, ?_⟩⟩
  · have hfit : frameFits p kwClock [ch1] = true :=
      frameFits_of_noSentinel (action := kwClock) (hheader.trans' (by decide)) (hpayload.trans' (by decide)) rfl
    exact decodeFrame_encodeFrame (i := .clock1) rfl hfit rfl []
  · have hfit : frameFits p kwRom (romPayload (.ok (0x0010#16, 0xFF#8))) = true :=
      frameFits_of_noSentinel (action := kwRom) (hheader.trans' (by decide)) (hpayload.trans' (by decide)) rfl
    exact decodeFrame_encodeFrame (i := .rom (.ok (0x0010#16, 0xFF#8))) rfl hfit rfl []

end Sys2Proof.Machine
end

section
/-! PROOFS. Which payloads are rejected and for which cause, what a rejection answers, and how many frames a command sends. -/

namespace Sys2Proof

/-! ### Payload tests (rules R163 to R167, R182, R183, R200) -/

/-- Without a comma after four characters (rule R164). -/
theorem argRomLoad_of_no_comma {payload : List Byte} (h : payload[4]? ≠ some chComma) :
    argRomLoad payload = .bad .badArgument := by
  unfold argRomLoad
  split
  next c _ => exact if_neg (by simpa using h)
  next => rfl

theorem argRead_of_no_comma (p : Params) {payload : List Byte} (h : payload[4]? ≠ some chComma) :
    argRead p payload = .bad .badArgument := by
  unfold argRead
  split
  next c _ => exact if_neg (by simpa using h)
  next => rfl

section
variable (a0 a1 a2 a3 : Byte) (text : List Byte)

theorem argRomLoad_of_bad_address (h : hex4 a0 a1 a2 a3 = none) :
    argRomLoad ([a0, a1, a2, a3, chComma] ++ text) = .bad .invalidDigit := by
  simp only [List.cons_append, List.nil_append, argRomLoad, if_true, h]

theorem argRomLoad_of_address {a : Addr} (h : hex4 a0 a1 a2 a3 = some a) :
    argRomLoad ([a0, a1, a2, a3, chComma] ++ text)
      = .ok { addr := a, data := (hexPairs text).1, clean := (hexPairs text).2 } := by
  simp only [List.cons_append, List.nil_append, argRomLoad, if_true, h]

variable {p : Params}

theorem argRead_of_bad_count (h : parseNumeral p.countRadix text = none) :
    argRead p ([a0, a1, a2, a3, chComma] ++ text) = .bad .badArgument := by
  simp only [List.cons_append, List.nil_append, argRead, if_true, h]

theorem argRead_of_bad_address {n : Nat} (hn : parseNumeral p.countRadix text = some n) (h : hex4 a0 a1 a2 a3 = none) :
    argRead p ([a0, a1, a2, a3, chComma] ++ text) = .bad .invalidDigit := by
  simp only [List.cons_append, List.nil_append, argRead, if_true, hn, h]

theorem argRead_of_address {n : Nat} {a : Addr} (hn : parseNumeral p.countRadix text = some n)
    (h : hex4 a0 a1 a2 a3 = some a) : argRead p ([a0, a1, a2, a3, chComma] ++ text) = .ok (a, n) := by
  simp only [List.cons_append, List.nil_append, argRead, if_true, hn, h]

end

theorem splitComma_of_notMem {t : List Byte} (h : chComma ∉ t) : splitComma t = none := by
  induction t with
  | nil => rfl
  | cons c t ih =>
    obtain ⟨hc, ht⟩ : chComma ≠ c ∧ chComma ∉ t := by simpa using h
    rw [splitComma, if_neg hc.symm, ih ht, Option.map_none]

theorem keyOf_eq_none {t : List Byte} (h : ∀ k, t ≠ keyText k) : keyOf t = none := by
  rw [keyOf, if_neg (h _), if_neg (h _), if_neg (h _), if_neg (h _)]

theorem dispatchSett_of_no_comma {payload : List Byte} (h : chComma ∉ payload) :
    dispatchSett payload = .sett (.bad .badArgument) := by
  simp only [dispatchSett, splitComma_of_notMem h]

theorem dispatchSett_of_unknown_key {key : List Byte} (hkey : chComma ∉ key) (h : ∀ k, key ≠ keyText k) (value : List Byte) :
    dispatchSett (key ++ chComma :: value) = .sett (.bad .badArgument) := by
  simp only [dispatchSett, splitComma_append key value hkey, keyOf_eq_none h]

theorem argKey_of_unknown_key {payload : List Byte} (h : ∀ k, payload ≠ keyText k) : argKey payload = .bad .badArgument := by
  rw [argKey, keyOf_eq_none h]

end Sys2Proof

namespace Sys2Proof.Machine

/-- A command whose payload its own tests reject raises the cause (rules R103, R202). -/
theorem exec_of_rejectedOperand {i : Instr} {c : Cause} (h : rejectedOperand i = some c) (s : State) :
    exec i s = .next (s.raise c) := by
  cases i
  case settTick x | rom x | romlw x | ramlr x | romlr x | sett x | setting x =>
    cases x with
    | ok => cases h
    | bad => cases h; rfl
  all_goals cases h

/-- Settles O42: a rejection is `raise`, and each payload is read by the lemma for its shape. -/
theorem malformedOperandsRejected : Obligations.MalformedOperandsRejected := by
  refine ⟨fun i c s h => ⟨_, exec_of_rejectedOperand h s, rejectedFor_raise s c⟩, fun p => ⟨fun payload h => ?_,
    fun a0 a1 a2 a3 text => ⟨fun h => ?_, fun a h => ?_, fun h => ?_, fun n hn => ⟨fun h => ?_, fun a h => ?_⟩⟩,
    fun payload h => ?_, fun key value hkey => ⟨fun h => ?_, ?_⟩, fun payload => ⟨fun h => ?_, ?_⟩⟩⟩
  · rw [dispatch_romlw, dispatch_ramlr, dispatch_romlr, argRomLoad_of_no_comma h, argRead_of_no_comma p h]
    exact ⟨rfl, rfl, rfl⟩
  · exact congrArg Instr.romlw (argRomLoad_of_bad_address a0 a1 a2 a3 text h)
  · exact congrArg Instr.romlw (argRomLoad_of_address a0 a1 a2 a3 text h)
  · have harg := argRead_of_bad_count a0 a1 a2 a3 text h
    exact ⟨congrArg Instr.ramlr harg, congrArg Instr.romlr harg⟩
  · have harg := argRead_of_bad_address a0 a1 a2 a3 text hn h
    exact ⟨congrArg Instr.ramlr harg, congrArg Instr.romlr harg⟩
  · have harg := argRead_of_address a0 a1 a2 a3 text hn h
    exact ⟨congrArg Instr.ramlr harg, congrArg Instr.romlr harg⟩
  · exact dispatchSett_of_no_comma h
  · exact dispatchSett_of_unknown_key hkey h value
  · rintro k hk rfl
    exact dispatchSett_key hk value
  · exact congrArg Instr.setting (argKey_of_unknown_key h)
  · rintro k rfl
    exact congrArg Instr.setting (argKey_keyText k)

/-! ### Unknown actions (rules R101, R196) -/

/-- The bytes of the `ERROR` frame of the code -1 (rules R185, R196). -/
theorem errorText_neg_one : errorText (-1) =
    [0x21#8, 0x7B#8, 0x45#8, 0x52#8, 0x52#8, 0x4F#8, 0x52#8, 0x2C#8, 0x32#8, 0x7D#8, 0x2D#8, 0x31#8] := by decide

/-- Settles O48: a Request's unknown action raises the error, a Message's only ends. -/
theorem unknownActionReportedToRequestsOnly : Obligations.UnknownActionReportedToRequestsOnly := by
  intro s k action payload
  refine ⟨dispatch_unknown payload, ⟨s.raise .unknownAction, rfl, rejectedFor_raise s _, fun hcode => ?_⟩, s.finish, rfl, ?_⟩
  · rw [← errorText_neg_one, ← hcode]
    rfl
  · obtain ⟨hlease, hcontrol, hsettings, hhost⟩ := memoryFrame_finish (memoryFrame_refl s)
    exact ⟨⟨rfl, rfl, rfl, (List.append_nil _).symm⟩, hcontrol, hlease, hsettings, sameMemory_of_banks rfl rfl rfl, hhost⟩

/-! ### One response (rules R105, R200, R202) -/

/-- The step leaves command `i` going on with no frame sent, or ends it with at most one, exactly one for a Request. -/
def respondsAtEnd (i : Instr) (s t : State) : Prop :=
  (t.cmd = some i ∧ t.sent = s.sent)
    ∨ (t.cmd = none ∧ ∃ frames, t.sent = s.sent ++ frames ∧ frames.length ≤ 1 ∧ (isRequest i = true → frames.length = 1))

section
variable {i : Instr} {s u : State} (h : u.sent = s.sent)
include h

theorem respondsAtEnd_goTo (q : Pos) : respondsAtEnd i s (u.goTo i q) := .inl ⟨rfl, h⟩

theorem respondsAtEnd_respond (frame : List Byte) : respondsAtEnd i s (u.respond frame).finish :=
  .inr ⟨rfl, [frame], congrArg (· ++ [frame]) h, le_rfl, fun _ => rfl⟩

theorem respondsAtEnd_raise (c : Cause) : respondsAtEnd i s (u.raise c) := respondsAtEnd_respond h _

theorem respondsAtEnd_finish (hi : isRequest i = false) : respondsAtEnd i s u.finish :=
  .inr ⟨rfl, [], h.trans (List.append_nil _).symm, Nat.zero_le 1, fun hr => absurd hr (by simp [hi])⟩

/-- The release ends a bulk mutation, which is a Message, with the error it met or with no frame (rules R162, R202). -/
theorem respondsAtEnd_leaseRelease (hi : isRequest i = false) (e : Option Cause) : respondsAtEnd i s (u.leaseRelease e) := by
  cases e
  · exact respondsAtEnd_finish (u := { u with clockEnabled := _, leaseSaved := none }) h hi
  · exact respondsAtEnd_raise (u := { u with clockEnabled := _, leaseSaved := none }) h _

end

theorem respondsAtEnd_readBack (i : Instr) (s : State) (b : Bank) (action : List Byte) (a n k : Nat) (out : List Byte) :
    respondsAtEnd i s (s.readBack b i action a n k out) := by
  unfold State.readBack
  split
  · split
    · exact respondsAtEnd_raise rfl _
    · split
      · exact respondsAtEnd_goTo rfl _
      · exact respondsAtEnd_respond rfl _
  · exact respondsAtEnd_respond rfl _

theorem respondsAtEnd_readBackStep (i : Instr) (s : State) (b : Bank) (action : List Byte) (a n : Nat) :
    respondsAtEnd i s (s.readBackStep b i action a n) := by
  unfold State.readBackStep
  split
  · exact respondsAtEnd_readBack _ _ _ _ _ _ _ _
  · split
    · exact respondsAtEnd_raise rfl _
    · exact respondsAtEnd_readBack _ _ _ _ _ _ _ _

theorem respondsAtEnd_romlwWrite (d : RomLoad) (k : Nat) (s : State) :
    respondsAtEnd (.romlw (.ok d)) s (s.romlwWrite d k) := by
  unfold State.romlwWrite
  split
  · exact respondsAtEnd_goTo rfl _
  · split
    next hw =>
      obtain ⟨-, rfl⟩ := State.bankWrite_some hw
      exact respondsAtEnd_goTo rfl _
    next => exact respondsAtEnd_goTo rfl _

theorem respondsAtEnd_ramclrWrite (k : Nat) (s : State) : respondsAtEnd .ramclr s (s.ramclrWrite k) := by
  refine respondsAtEnd_goTo ?_ _
  rw [State.bankWrite_eq]
  split <;> rfl

/-- Settles O60: each way a command's step can end is one of the cases above. -/
theorem requestsGetOneResponse : Obligations.RequestsGetOneResponse := by
  intro i s t hi e
  change respondsAtEnd i s t
  cases i
  case eIdlePoll | eAcqLo | eAcqHi | eDataWr | eDataRd | eClkFall | resetRelease => cases hi
  case clock0 | awake | save | error c | clockOther payload => cases e; exact respondsAtEnd_respond rfl _
  case clock1 | clockPulse =>
    cases e
    split
    · exact respondsAtEnd_respond rfl _
    · exact respondsAtEnd_goTo rfl _
  case reset =>
    cases e
    split
    · exact respondsAtEnd_respond rfl _
    · split
      · exact respondsAtEnd_goTo rfl _
      · exact respondsAtEnd_respond rfl _
  case settTick x | setting x => cases e; cases x <;> exact respondsAtEnd_respond rfl _
  case sett x =>
    cases e
    split
    · exact respondsAtEnd_raise rfl _
    · split
      · exact respondsAtEnd_respond rfl _
      · exact respondsAtEnd_raise rfl _
    · exact respondsAtEnd_respond rfl _
  case rom x =>
    cases e
    split
    · exact respondsAtEnd_raise rfl _
    · split
      · exact respondsAtEnd_raise rfl _
      next hw =>
        obtain ⟨-, rfl⟩ := State.bankWrite_some hw
        exact respondsAtEnd_respond rfl _
  case romlw x =>
    cases e
    split
    · exact respondsAtEnd_raise rfl _
    · split
      · exact respondsAtEnd_goTo rfl _
      · exact respondsAtEnd_goTo rfl _
      · exact respondsAtEnd_romlwWrite _ _ s
      · exact respondsAtEnd_leaseRelease rfl rfl _
      · exact respondsAtEnd_goTo rfl _
  case ramclr =>
    cases e
    split
    · exact respondsAtEnd_goTo rfl _
    · exact respondsAtEnd_goTo rfl _
    · exact respondsAtEnd_ramclrWrite _ s
    · exact respondsAtEnd_leaseRelease rfl rfl _
    · exact respondsAtEnd_goTo rfl _
  case ramlr x | romlr x =>
    cases e
    cases x
    · exact respondsAtEnd_readBackStep _ _ _ _ _ _
    · exact respondsAtEnd_raise rfl _
  case unknownAction k action =>
    cases e
    cases k
    · exact respondsAtEnd_finish rfl rfl
    · exact respondsAtEnd_raise rfl _

end Sys2Proof.Machine
end

section
/-! PROOFS. The engine's operations: what each answers under its `pre:` line, field by field, with the pin events it adds (rules R111
to R116). -/

namespace Sys2Proof.Machine

/-! ### Pin events (rule R38) -/

/-- A pin that falls leaves its event, one that is low already leaves none. -/
theorem noteEvents_fall (t : List (List PinEvent)) (old : Bool) (e : PinEvent) :
    noteEvents t (pinChange old false e) = t ++ if old then [[e]] else [] := by
  cases old <;> simp [noteEvents, pinChange]

/-- A pin that rises leaves its event, one that is high already leaves none. -/
theorem noteEvents_rise (t : List (List PinEvent)) (old : Bool) (e : PinEvent) :
    noteEvents t (pinChange old true e) = t ++ if old then [] else [[e]] := by
  cases old <;> simp [noteEvents, pinChange]

/-- The clock rises in one group with the data enable's rise, if that is low (rules R114, R115). -/
theorem noteEvents_raiseDEnClk (t : List (List PinEvent)) (dEn : Bool) {clk : Bool} (h : clk = false) :
    noteEvents t (pinChange dEn true (.dEn true) ++ pinChange clk true (.clk true))
      = t ++ [if dEn then [PinEvent.clk true] else [PinEvent.dEn true, PinEvent.clk true]] := by
  subst h
  cases dEn <;> rfl

/-- The pin events of `E_ACQ_LO`, in order (rule R112). -/
theorem acqLoPins_pinTrace (s : State) :
    s.acqLoPins.pinTrace
      = s.pinTrace ++ (if s.dpDir then [[PinEvent.dpOff]] else []) ++ (if s.dEn then [[PinEvent.dEn false]] else [])
        ++ (if s.ahEn then [[PinEvent.ahEn false]] else []) ++ (if s.alEn then [] else [[PinEvent.alEn true]]) := by
  simp [State.acqLoPins, noteEvents_fall, noteEvents_rise]

/-- A sample is on the lines the data path has (rule R8). -/
theorem cut_sampled (s : State) : s.cfg.cut s.sampled.b = s.sampled.b := s.cfg.cut_cut _

/-- With ROM as long as the bus address reaches, no address is beyond it (rule R9). -/
theorem busAddr_lt_romLen {p : Params} (h : 2 ^ p.addrW.val ≤ p.romLen) (ah al : Byte) : (busAddr p ah al).toNat < p.romLen :=
  (busAddr_lt p ah al).trans_le h

/-! ### The operations -/

/-- Settles O19: the only field the poll writes is `phase`. -/
theorem idlePollFollowsClockEnable : Obligations.IdlePollFollowsClockEnable := by
  intro s hp
  rw [exec_eIdlePoll hp]
  by_cases hc : s.clockEnabled = true
  · rw [if_pos hc, if_pos hc]
  · rw [if_neg hc, if_neg hc, ← hp]

/-- Settles O20: the state of `exec_eAcqLo`, whose pin events are `acqLoPins_pinTrace`. -/
theorem acquireLowLatchesByteAndDirection : Obligations.AcquireLowLatchesByteAndDirection := by
  intro s hp hk
  have e := exec_eAcqLo ⟨hp, hk⟩
  refine ⟨_, e, rfl, rfl, rfl, rfl, rfl, rfl, rfl, ?_, acqLoPins_pinTrace s, rfl, ?_, ?_, ?_, ?_, ?_, ?_,
    sameMemory_of_banks ?_ ?_ ?_, exec_engine_frame rfl e⟩ <;> simp [hk]

/-- Settles O21: the state of `exec_eAcqHi`, the enables swapped low first. -/
theorem acquireHighLatchesByte : Obligations.AcquireHighLatchesByte := by
  intro s hp hk hd
  have e := exec_eAcqHi ⟨hp, hk, hd⟩
  refine ⟨_, e, rfl, rfl, rfl, rfl, ?_, ?_, ?_, ?_, rfl, ?_, ?_, ?_, ?_, ?_, ?_, ?_,
    sameMemory_of_banks ?_ ?_ ?_, exec_engine_frame rfl e⟩ <;> simp [hk, hd, noteEvents_fall, noteEvents_rise]

/-- Settles O22: the pins and latches are as before the shadow write, which changes the one cell (`State.cell_shadow`). -/
theorem writeCycleShadowsRam : Obligations.WriteCycleShadowsRam := by
  intro s hp hk hd hrel
  have e := exec_eDataWr ⟨hp, hk, hd, hrel⟩
  refine ⟨_, e, ?_, fun b a => ?_, ?_, ?_, ?_, ?_, ?_, ?_, ?_, ?_, ?_, ?_, ?_, ?_, ?_, ?_, ?_, exec_engine_frame rfl e⟩
  case refine_2 =>
    rw [State.cell_shadow]
    simp only [State.drawSample_cfg, State.wait_cfg, State.raiseDEnClk_cfg, State.setAhEn_cfg, cut_sampled]
    refine if_congr Iff.rfl rfl (State.cell_congr ?_ ?_ ?_ b a) <;> simp
  all_goals simp [hp, hrel, noteEvents_fall, noteEvents_raiseDEnClk _ _ hk]

/-- Settles O23: the byte served is `State.readMux_eq`, and the fallback is out of reach by `busAddr_lt_romLen`. -/
theorem readCycleDrivesServedByte : Obligations.ReadCycleDrivesServedByte := by
  intro s hp hk hd hrel
  have e := exec_eDataRd ⟨hp, hk, hd, hrel⟩
  refine ⟨_, e, State.readMux_eq s _, fun hrom => ?_, rfl, rfl, rfl, rfl, rfl, rfl, rfl, hp, ?_, rfl, rfl, rfl, rfl, rfl, rfl, rfl,
    sameMemory_of_banks rfl rfl rfl, exec_engine_frame rfl e⟩
  · refine (State.readMux_eq s _).trans ?_
    rw [if_pos (busAddr_lt_romLen hrom s.ah s.al)]
  · simp [hrel, noteEvents_fall, noteEvents_rise, noteEvents_raiseDEnClk _ _ hk]

/-- Settles O24: the state of `exec_eClkFall`, in either mode. -/
theorem clockFallEndsCycle : Obligations.ClockFallEndsCycle := by
  intro s hp hk
  have e := exec_eClkFall ⟨hp, hk⟩
  refine ⟨_, e, rfl, fun hs => ?_, fun hs => ?_, ?_, rfl, rfl, rfl, rfl, rfl, rfl, rfl, rfl, rfl, rfl, rfl, rfl,
    sameMemory_of_banks rfl rfl rfl, exec_engine_frame rfl e⟩
  · simp [hs, clockAfterCycle, phaseAfterCycle]
  · simp [hs, clockAfterCycle, phaseAfterCycle]
  · simp [hk, noteEvents_fall]

end Sys2Proof.Machine
end

section
/-! PROOFS. The sequencer's edges, and the cycle as a run of the engine: who moves `phase`, and where the engine comes to rest (rules
R121, R123, R124). -/

namespace Sys2Proof.Machine

/-! ### The edges of `phase` (rule R121) -/

/-- Each operation moves `phase` along its own row of the table. -/
theorem exec_phaseEdge {i : Instr} {s t : State} (e : exec i s = .next t) : phaseEdge i s t := by
  by_cases hi : isEngineOp i = true
  · cases i <;> simp only [isEngineOp, Bool.false_eq_true] at hi <;> obtain ⟨hpre, rfl⟩ := next_of_pre e
    case eIdlePoll => cases hc : s.clockEnabled <;> simp [phaseEdge, isEngineOp, hpre, hc]
    case eAcqLo | eAcqHi | eDataWr | eDataRd => simp [phaseEdge, isEngineOp, hpre]
    case eClkFall =>
      cases hs : s.singleStep <;> cases hc : s.clockEnabled <;>
        simp [phaseEdge, isEngineOp, hpre, hs, hc, phaseAfterCycle, clockAfterCycle]
  · rw [Bool.not_eq_true] at hi
    obtain ⟨⟨hphase, -⟩, -⟩ := exec_host_frame hi e
    exact .inl ⟨hi, hphase⟩

/-- A byte of the link moves no phase. -/
theorem takeByte_phase (s : State) (c : Byte) : (s.takeByte c).phase = s.phase := by
  obtain ⟨-, ht⟩ | ⟨i, -, -, ht⟩ := takeByte_cases s c <;> rw [ht]

theorem pollLink_phase (s : State) : s.pollLink.phase = s.phase := by
  unfold State.pollLink
  split
  · rfl
  · exact takeByte_phase _ _

/-- What a step that answers has done: run the operation it fetched, polled the link, or passed. -/
theorem step_cases {s t : State} (e : step s = .next t) :
    (∃ i, s.fetch = .run i ∧ exec i s.popTurn = .next t) ∨ (s.fetch = .poll ∧ t = s.popTurn.pollLink)
      ∨ (s.fetch = .pass ∧ t = s.popTurn) := by
  unfold step at e
  split at e
  · exact .inl ⟨_, ‹_›, e⟩
  · cases e; exact .inr (.inl ⟨‹_›, rfl⟩)
  · cases e; exact .inr (.inr ⟨‹_›, rfl⟩)
  · cases e

/-- On another turn than ENGINE's no engine operation runs (rules R14, R86, R145). -/
theorem isEngineOp_of_fetch {s : State} {i : Instr} (h : cmdOk s = true) (ht : s.turn ≠ .engine) (hf : s.fetch = .run i) :
    isEngineOp i = false := by
  unfold State.fetch at hf
  split at hf
  case h_1 he => exact absurd he ht
  case h_2 =>
    unfold State.fetchHost at hf
    split at hf
    next j hc =>
      cases hf
      simp only [cmdOk, hc, Bool.and_eq_true] at h
      exact isEngineOp_of_isCommand h.1
    next => cases hf
  case h_3 =>
    unfold State.fetchRelease at hf
    split at hf <;> cases hf
    rfl

/-- Settles O54: an operation's row is `exec_phaseEdge`, and what a step runs is `step_cases`. -/
theorem phaseMovesOnlyAlongItsEdges : Obligations.PhaseMovesOnlyAlongItsEdges := by
  refine ⟨fun i s t e => exec_phaseEdge e, fun s t e => ?_⟩
  obtain ⟨i, hf, ei⟩ | ⟨hf, rfl⟩ | ⟨hf, rfl⟩ := step_cases e
  · refine ⟨.inl ⟨i, hf, exec_phaseEdge (s := s.popTurn) ei⟩, fun hinv hmoved => by_contra fun ht => hmoved ?_⟩
    obtain ⟨-, hcmd, -⟩ := hinv
    obtain ⟨⟨hphase, -⟩, -⟩ := exec_host_frame (isEngineOp_of_fetch hcmd ht hf) ei
    exact hphase
  · have hphase := pollLink_phase s.popTurn
    exact ⟨.inr ⟨.inl hf, hphase⟩, fun _ hmoved => absurd hphase hmoved⟩
  · exact ⟨.inr ⟨.inr hf, rfl⟩, fun _ hmoved => absurd rfl hmoved⟩

/-! ### One operation of a cycle

The fields that the rest of a cycle depends on, the selector it is fetched by, and what it adds on the clock line. -/

/-- ENGINE's next operation is `i`; it answers `t`, adds `edges` on the clock line, and leaves `clock_enabled` and `single_step`
alone. -/
structure CycleMove (i : Instr) (edges : List Bool) (s t : State) : Prop where
  fetched : s.fetchEngine = .run i
  answered : exec i s = .next t
  clock : t.clockEnabled = s.clockEnabled
  single : t.singleStep = s.singleStep
  line : clockEvents t.pinTrace = clockEvents s.pinTrace ++ edges

theorem idlePoll_move {s : State} (hp : s.phase = .idle) (hk : s.clk = false) (hc : s.clockEnabled = true) :
    CycleMove .eIdlePoll [] s { s with phase := .acqLo } where
  fetched := by simp only [State.fetchEngine, hp, hk]; cases s.dir <;> rfl
  answered := by rw [exec_eIdlePoll hp, if_pos hc]
  clock := rfl
  single := rfl
  line := (List.append_nil _).symm

theorem acqLo_move {s : State} (hp : s.phase = .acqLo) (hk : s.clk = false) :
    ∃ t, CycleMove .eAcqLo [] s t ∧ t.phase = .acqHi ∧ t.clk = false ∧ t.dpDir = false := by
  refine ⟨_, ⟨?_, exec_eAcqLo ⟨hp, hk⟩, ?_, ?_, ?_⟩, rfl, ?_, rfl⟩
  case refine_1 => simp only [State.fetchEngine, hp, hk]; cases s.dir <;> rfl
  case refine_4 => simp [State.acqLoPins, clockEvents_noteEvents, clockEvents_pinChange]
  all_goals simp [hk]

theorem acqHi_move {s : State} (hp : s.phase = .acqHi) (hk : s.clk = false) (hd : s.dpDir = false) :
    ∃ t, CycleMove .eAcqHi [] s t ∧ t.phase = .data ∧ t.clk = false ∧ t.dpDir = false := by
  refine ⟨_, ⟨?_, exec_eAcqHi ⟨hp, hk, hd⟩, ?_, ?_, ?_⟩, rfl, ?_, ?_⟩
  case refine_1 => simp only [State.fetchEngine, hp, hk]; cases s.dir <;> rfl
  case refine_4 => simp [clockEvents_noteEvents, clockEvents_pinChange]
  all_goals simp [hk, hd]

theorem data_move {s : State} (hp : s.phase = .data) (hk : s.clk = false) (hd : s.dpDir = false) :
    ∃ i t, (i = .eDataWr ∨ i = .eDataRd) ∧ CycleMove i [true] s t ∧ t.phase = .data ∧ t.clk = true := by
  cases hdir : s.dir
  · refine ⟨.eDataRd, _, .inr rfl, ⟨?_, exec_eDataRd ⟨hp, hk, hdir, hd⟩, rfl, rfl, ?_⟩, hp, rfl⟩
    · simp only [State.fetchEngine, hp, hk, hdir]; rfl
    · simp [clockEvents_noteEvents, clockEvents_pinChange, clockEvents_rise _ _ hk]
  · refine ⟨.eDataWr, _, .inl rfl, ⟨?_, exec_eDataWr ⟨hp, hk, hdir, hd⟩, ?_, ?_, ?_⟩, ?_, ?_⟩
    · simp only [State.fetchEngine, hp, hk, hdir]; rfl
    all_goals simp [hp, clockEvents_noteEvents, clockEvents_pinChange, clockEvents_rise _ _ hk]

/-! ### Where the engine comes to rest (rules R116, R124) -/

/-- `n` engine operations from `s` come to `t`, in `Idle` with the clock disabled and low, where any further ones leave it; they add
`edges` on the clock line. -/
structure RestsAfter (n : Nat) (edges : List Bool) (s t : State) : Prop where
  runs : ∀ m, engineRun (n + m) s = .next t
  idle : t.phase = .idle
  clock : t.clockEnabled = false
  clk : t.clk = false
  single : t.singleStep = s.singleStep
  line : clockEvents t.pinTrace = clockEvents s.pinTrace ++ edges

theorem restsAfter_zero {s : State} (hp : s.phase = .idle) (hc : s.clockEnabled = false) (hk : s.clk = false) :
    RestsAfter 0 [] s s :=
  ⟨fun m => by rw [Nat.zero_add, engineRun_idle hp hc hk], hp, hc, hk, rfl, (List.append_nil _).symm⟩

/-- An operation before a run to rest. -/
theorem CycleMove.restsAfter {i : Instr} {n : Nat} {edges later : List Bool} {s t u : State} (h : CycleMove i edges s t)
    (h' : RestsAfter n later t u) : RestsAfter (n + 1) (edges ++ later) s u where
  runs m := by
    rw [Nat.add_right_comm]
    simp only [engineRun, engineStep, h.fetched, h.answered, h'.runs]
  idle := h'.idle
  clock := h'.clock
  clk := h'.clk
  single := h'.single.trans h.single
  line := by rw [h'.line, h.line, List.append_assoc]

/-- The clock's fall is the end where a single step is consumed or the clock is disabled. -/
theorem clkFall_restsAfter {s : State} (hp : s.phase = .data) (hk : s.clk = true)
    (h : s.singleStep = true ∨ s.clockEnabled = false) :
    ∃ t, exec .eClkFall s = .next t ∧ RestsAfter 1 [false] s t := by
  have hphase : phaseAfterCycle s.singleStep s.clockEnabled = .idle := by obtain h | h := h <;> simp [phaseAfterCycle, h]
  have hclock : clockAfterCycle s.singleStep s.clockEnabled = false := by obtain h | h := h <;> simp [clockAfterCycle, h]
  have hf : s.fetchEngine = .run .eClkFall := by simp only [State.fetchEngine, hp, hk]; cases s.dir <;> rfl
  refine ⟨_, exec_eClkFall ⟨hp, hk⟩, fun m => ?_, hphase, hclock, rfl, rfl, ?_⟩
  · rw [Nat.add_comm]
    simp only [engineRun, engineStep, hf, exec_eClkFall ⟨hp, hk⟩]
    exact engineRun_idle hphase hclock rfl m
  · simp [clockEvents_noteEvents, clockEvents_fall _ hk]

/-- A cycle at its data operation. -/
theorem data_restsAfter {s : State} (hp : s.phase = .data) (hk : s.clk = false) (hd : s.dpDir = false)
    (h : s.singleStep = true ∨ s.clockEnabled = false) :
    ∃ d t, (exec .eDataWr s = .next d ∨ exec .eDataRd s = .next d) ∧ exec .eClkFall d = .next t
      ∧ RestsAfter 2 [true, false] s t := by
  obtain ⟨i, d, hi, hm, hp', hk'⟩ := data_move hp hk hd
  obtain ⟨t, e, hr⟩ := clkFall_restsAfter hp' hk' (by rwa [hm.clock, hm.single])
  refine ⟨d, t, ?_, e, hm.restsAfter hr⟩
  obtain rfl | rfl := hi
  · exact .inl hm.answered
  · exact .inr hm.answered

/-- A cycle at `E_ACQ_HI`. -/
theorem acqHi_restsAfter {s : State} (hp : s.phase = .acqHi) (hk : s.clk = false) (hd : s.dpDir = false)
    (h : s.singleStep = true ∨ s.clockEnabled = false) :
    ∃ c d t, exec .eAcqHi s = .next c ∧ (exec .eDataWr c = .next d ∨ exec .eDataRd c = .next d)
      ∧ exec .eClkFall d = .next t ∧ RestsAfter 3 [true, false] s t := by
  obtain ⟨c, hm, hp', hk', hd'⟩ := acqHi_move hp hk hd
  obtain ⟨d, t, e, e', hr⟩ := data_restsAfter hp' hk' hd' (by rwa [hm.clock, hm.single])
  exact ⟨c, d, t, hm.answered, e, e', hm.restsAfter hr⟩

/-- A whole cycle, from `E_ACQ_LO`. -/
theorem acqLo_restsAfter {s : State} (hp : s.phase = .acqLo) (hk : s.clk = false)
    (h : s.singleStep = true ∨ s.clockEnabled = false) :
    ∃ b c d t, exec .eAcqLo s = .next b ∧ exec .eAcqHi b = .next c
      ∧ (exec .eDataWr c = .next d ∨ exec .eDataRd c = .next d) ∧ exec .eClkFall d = .next t
      ∧ RestsAfter 4 [true, false] s t := by
  obtain ⟨b, hm, hp', hk', hd'⟩ := acqLo_move hp hk
  obtain ⟨c, d, t, e, e', e'', hr⟩ := acqHi_restsAfter hp' hk' hd' (by rwa [hm.clock, hm.single])
  exact ⟨b, c, d, t, hm.answered, e, e', e'', hm.restsAfter hr⟩

/-- Both atomic steps of `CLOCKPULSE`: `single_step` and `clock_enabled` are set (rule R143). -/
theorem execTimes_clockPulse {s : State} (h : s.pos = .start) :
    ∃ u, execTimes .clockPulse 2 s = .next u ∧ u.phase = s.phase ∧ u.clk = s.clk ∧ u.pinTrace = s.pinTrace
      ∧ u.clockEnabled = true ∧ u.singleStep = true := by
  have e := exec_clockPulse_start h
  have e' := exec_clockPulse_second (s := ({ s with singleStep := true } : State).goTo .clockPulse .second) rfl
  refine ⟨_, (execTimes_add _ 1 1 ((execTimes_one _ _).trans e)).trans ((execTimes_one _ _).trans e'), rfl, rfl, rfl, rfl, rfl⟩

/-- In `Idle` a legal clock is low (rule R82). -/
theorem clk_of_idle {s : State} (h : engineOk s = true) (hp : s.phase = .idle) : s.clk = false := by
  cases hk : s.clk
  · rfl
  · simp [engineOk, hp, hk] at h

/-- Settles O55: the poll leaves `Idle`, and the cycle after it consumes the single step (`acqLo_restsAfter`). -/
theorem singleStepRunsExactlyOneCycle : Obligations.SingleStepRunsExactlyOneCycle := by
  intro s h hp _ hpos
  obtain ⟨u, eu, hpu, hku, htrace, hc, hs⟩ := execTimes_clockPulse hpos
  have hk := hku.trans (clk_of_idle h hp)
  have hm := idlePoll_move (hpu.trans hp) hk hc
  obtain ⟨b, c, d, t, eb, ec, ed, et, hr⟩ := acqLo_restsAfter (s := { u with phase := .acqLo }) rfl hk (.inl hs)
  have hrun := hm.restsAfter hr
  exact ⟨u, eu, _, b, c, d, t, hm.answered, eb, ec, ed, et, hrun.runs, hrun.idle, hrun.clock, hrun.single.trans hs, hrun.clk,
    htrace ▸ hrun.line⟩

/-- Where pins and clock are legal and the clock is disabled, at most the rest of a cycle is to come (rule R124). -/
theorem exists_restsAfter {s : State} (h : engineOk s = true) (hc : s.clockEnabled = false) :
    ∃ n edges t, n ≤ 4 ∧ (edges.filter (· == false)).length ≤ 1 ∧ RestsAfter n edges s t := by
  cases hp : s.phase <;> cases hk : s.clk <;> simp [engineOk, hp, hk] at h
  case idle.false => exact ⟨0, [], s, by decide, by decide, restsAfter_zero hp hc hk⟩
  case acqLo.false =>
    obtain ⟨-, -, -, t, -, -, -, -, hr⟩ := acqLo_restsAfter hp hk (.inr hc)
    exact ⟨4, _, t, by decide, by decide, hr⟩
  case acqHi.false =>
    obtain ⟨-, hd⟩ := h
    obtain ⟨-, -, t, -, -, -, hr⟩ := acqHi_restsAfter hp hk hd (.inr hc)
    exact ⟨3, _, t, by decide, by decide, hr⟩
  case data.false =>
    obtain ⟨-, hd⟩ := h
    obtain ⟨-, t, -, -, hr⟩ := data_restsAfter hp hk hd (.inr hc)
    exact ⟨2, _, t, by decide, by decide, hr⟩
  case data.true =>
    obtain ⟨t, -, hr⟩ := clkFall_restsAfter hp hk (.inr hc)
    exact ⟨1, _, t, by decide, by decide, hr⟩

/-- Settles O56: the rest of the cycle of `exists_restsAfter`, which has at most one fall. -/
theorem clockOffStopsWithinOneCycle : Obligations.ClockOffStopsWithinOneCycle := by
  intro s h hc
  obtain ⟨n, edges, t, hn, hfalls, hr⟩ := exists_restsAfter h hc
  refine ⟨n, t, hn, hr.runs, hr.idle, hr.clock, hr.clk, ?_⟩
  rw [hr.line, List.filter_append, List.length_append]
  exact Nat.add_le_add_left hfalls _

end Sys2Proof.Machine
end

section
/-! PROOFS. The memory commands from their first step to their last: a read-back responds with the digits of its cells, a load under the
lease leaves its bytes in the cells (rules R161, R162, R164, R166, R167). -/

namespace Sys2Proof.Machine

/-! ### A read-back, on either bank -/

/-- The read-back of `n` cells from `a` (rules R166, R167). -/
def readBackOf (b : Bank) (a : Addr) (n : Nat) : Instr :=
  match b with
  | .ram => .ramlr (.ok (a, n))
  | .rom => .romlr (.ok (a, n))

/-- The action of its frame and of its response (rule R100). -/
def readBackAction : Bank → List Byte
  | .ram => kwRamlr
  | .rom => kwRomlr

theorem exec_readBackOf (b : Bank) (a : Addr) (n : Nat) (s : State) :
    exec (readBackOf b a n) s = .next (s.readBackStep b (readBackOf b a n) (readBackAction b) a.toNat n) := by
  cases b <;> rfl

/-- The first step of a read-back in range (log entry 23). -/
theorem readBackStep_start {s : State} {b : Bank} {a n : Nat} (hpos : s.pos = .start) (h : a + n ≤ s.bankLen b) (i : Instr)
    (action : List Byte) : s.readBackStep b i action a n = s.readBack b i action a n 0 [] := by
  simp only [State.readBackStep, hpos, h.not_gt, if_false]

theorem readBackStep_reading {s : State} {k : Nat} {out : List Byte} (hpos : s.pos = .reading k out) (b : Bank) (i : Instr)
    (action : List Byte) (a n : Nat) : s.readBackStep b i action a n = s.readBack b i action a n k out := by
  simp only [State.readBackStep, hpos]

theorem cellsText_succ (b : Bank) (a n : Nat) (s : State) :
    cellsText b a (n + 1) s = byteToHex2 (s.cell b a) ++ cellsText b (a + 1) n s := by
  simp [cellsText, hexPairsText, List.range_succ_eq_map, List.flatMap_map, Nat.add_assoc, Nat.add_comm 1]

theorem cellsText_goTo (b : Bank) (a n : Nat) (s : State) (i : Instr) (q : Pos) : cellsText b a n (s.goTo i q) = cellsText b a n s := by
  simp only [cellsText, State.cell_goTo]

/-- The step that reads cell `k` and the ones after it: `m + 1` cells are left, and the last one responds. -/
theorem execTimes_readBackOf {b : Bank} {a : Addr} {n m k : Nat} {out : List Byte} {s : State} (hn : n = k + (m + 1))
    (hstep : s.readBackStep b (readBackOf b a n) (readBackAction b) a.toNat n
      = s.readBack b (readBackOf b a n) (readBackAction b) a.toNat n k out)
    (h : a.toNat + n ≤ s.bankLen b) :
    ∃ t, execTimes (readBackOf b a n) (m + 1) s = .next t
      ∧ endedWith [responseText (readBackAction b) (out ++ cellsText b (a.toNat + k) (m + 1) s)] s t
      ∧ sameMemory s t ∧ memoryFrame s t := by
  induction m generalizing k out s with
  | zero =>
    have e := exec_readBackOf b a n s
    rw [hstep, State.readBack_of_lt (by omega) h, if_neg (by omega)] at e
    refine ⟨_, (execTimes_one _ _).trans e, ⟨rfl, rfl, rfl, ?_⟩, sameMemory_of_banks rfl rfl rfl,
      memoryFrame_finish (memoryFrame_respond (memoryFrame_refl s) _)⟩
    simp [cellsText, hexPairsText]
  | succ m ih =>
    have e := exec_readBackOf b a n s
    rw [hstep, State.readBack_of_lt (by omega) h, if_pos (by omega)] at e
    obtain ⟨t, et, hend, hcells, hframe⟩ :=
      ih (s := s.goTo (readBackOf b a n) (.reading (k + 1) (out ++ byteToHex2 (s.cell b (a.toNat + k))))) (by omega)
        (readBackStep_reading rfl b _ _ _ _) h
    refine ⟨t, ?_, ?_, hcells, hframe⟩
    · rw [execTimes, e]
      exact et
    · rw [cellsText_goTo, List.append_assoc] at hend
      rw [cellsText_succ]
      exact hend

/-- A read-back of one cell or more in range, from its first step to its last (rules R166, R167). -/
theorem execTimes_readBackOf_start {b : Bank} {a : Addr} {n : Nat} {s : State} (hpos : s.pos = .start) (hn : n ≠ 0)
    (h : a.toNat + n ≤ s.bankLen b) :
    ∃ t, execTimes (readBackOf b a n) n s = .next t
      ∧ endedWith [responseText (readBackAction b) (cellsText b a.toNat n s)] s t ∧ sameMemory s t ∧ memoryFrame s t := by
  obtain ⟨m, rfl⟩ := Nat.exists_eq_succ_of_ne_zero hn
  have hfirst := readBackStep_start hpos h (readBackOf b a (m + 1)) (readBackAction b)
  simpa only [Nat.add_zero, List.nil_append] using execTimes_readBackOf (Nat.zero_add (m + 1)).symm hfirst h

/-! ### A load under the lease -/

theorem exec_romlw_start {s : State} (h : s.pos = .start) (d : RomLoad) :
    exec (.romlw (.ok d)) s = .next (s.leaseSave (.romlw (.ok d))) := by
  simp only [exec, execRomlw, h]

theorem exec_romlw_leaseForce {s : State} (h : s.pos = .leaseForce) (d : RomLoad) :
    exec (.romlw (.ok d)) s = .next (s.leaseForce (.romlw (.ok d))) := by
  simp only [exec, execRomlw, h]

theorem exec_romlw_leaseWait {s : State} (h : s.pos = .leaseWait) (d : RomLoad) :
    exec (.romlw (.ok d)) s = .next (s.leaseWait (.romlw (.ok d)) (romlwPos d 0)) := by
  simp only [exec, execRomlw, h]

theorem exec_romlw_leaseRelease {s : State} {e : Option Cause} (h : s.pos = .leaseRelease e) (d : RomLoad) :
    exec (.romlw (.ok d)) s = .next (s.leaseRelease e) := by
  simp only [exec, execRomlw, h]

/-- A load at its first byte, the lease taken (rule R161). -/
def State.loading (d : RomLoad) (s : State) : State :=
  ({ s with leaseSaved := some s.clockEnabled, clockEnabled := false } : State).goTo (.romlw (.ok d)) (romlwPos d 0)

/-- With the engine in `Idle` the lease is taken in three steps (rule R161). -/
theorem execTimes_romlw_lease {s : State} (hpos : s.pos = .start) (hp : s.phase = .idle) (d : RomLoad) :
    execTimes (.romlw (.ok d)) 3 s = .next (s.loading d) := by
  have save := exec_romlw_start hpos d
  have force := exec_romlw_leaseForce (s := s.leaseSave (.romlw (.ok d))) rfl d
  have wait := exec_romlw_leaseWait (s := (s.leaseSave (.romlw (.ok d))).leaseForce (.romlw (.ok d))) rfl d
  simp only [State.leaseWait, State.leaseForce_phase, State.leaseSave_phase, hp, if_true] at wait
  simp only [execTimes, save, force, wait]
  rfl

/-- What the first `k` bytes of a load leave in the cells: in each cell the bits of its width (rules R57, R164; log entry 2). -/
def loaded (d : RomLoad) (k : Nat) (s t : State) : Prop :=
  ∀ b i, t.cell b i =
    if b = .rom ∧ d.addr.toNat ≤ i ∧ i < d.addr.toNat + k then (d.data.map s.cfg.cut)[i - d.addr.toNat]?.getD (s.cell b i)
    else s.cell b i

theorem loaded_zero (d : RomLoad) (s : State) : loaded d 0 s s := by
  intro b i
  rw [if_neg (by omega)]

/-- One byte more. -/
theorem loaded_setCell {d : RomLoad} {k : Nat} {v : Byte} {s t : State} (h : loaded d k s t) (hc : t.cfg = s.cfg)
    (hv : d.data[k]? = some v) : loaded d (k + 1) s (t.setCell .rom (d.addr.toNat + k) v) := by
  intro b i
  rw [State.cell_setCell, h b i, hc]
  by_cases hi : b = .rom ∧ i = d.addr.toNat + k
  · obtain ⟨rfl, rfl⟩ := hi
    simp [hv]
  · rw [if_neg hi]
    refine if_congr (and_congr_right fun hb => ?_) rfl rfl
    have hne : i ≠ d.addr.toNat + k := fun h => hi ⟨hb, h⟩
    omega

/-- The first `k` bytes, as far as they fit, are written in `k` steps (rule R164). -/
theorem execTimes_romlw_body {d : RomLoad} {s : State} (hpos : s.pos = romlwPos d 0) (k : Nat) (hk : k ≤ d.data.length)
    (hfit : ∀ j < k, d.addr.toNat + j < s.cfg.romLen) :
    ∃ t, execTimes (.romlw (.ok d)) k s = .next t ∧ t.pos = romlwPos d k ∧ loaded d k s t ∧ memoryFrame s t
      ∧ t.sent = s.sent ∧ t.parser = s.parser := by
  induction k with
  | zero => exact ⟨s, rfl, hpos, loaded_zero d s, memoryFrame_refl s, rfl, rfl⟩
  | succ k ih =>
    obtain ⟨t, et, hq, hcells, hframe, hsent, hparser⟩ := ih (by omega) fun j hj => hfit j (by omega)
    have ⟨_, _, _, _, _, ⟨hcfg, _⟩, _⟩ := hframe
    have hbody : t.pos = .body k := by rw [hq, romlwPos, if_pos (by omega)]
    have hv : d.data[k]? = some d.data[k] := List.getElem?_eq_getElem (by omega)
    have e := exec_romlw_body hbody d
    rw [State.romlwWrite_of_lt hv (hcfg ▸ hfit k (by omega))] at e
    exact ⟨_, (execTimes_add _ k 1 et).trans ((execTimes_one _ _).trans e), rfl,
      fun b i => (State.cell_goTo _ _ _ b i).trans (loaded_setCell hcells hcfg hv b i), hframe, hsent, hparser⟩

/-- A load that fits, from its first step to the release: the bytes stand in the cells, and no frame is sent when it is clean
(rules R161, R162, R164). -/
theorem execTimes_romlw_clean {d : RomLoad} {s : State} (hpos : s.pos = .start) (hp : s.phase = .idle) (hd : d.clean = true)
    (hfit : ∀ j < d.data.length, d.addr.toNat + j < s.cfg.romLen) :
    ∃ t, execTimes (.romlw (.ok d)) (d.data.length + 4) s = .next t ∧ endedWith [] s t ∧ loaded d d.data.length s t
      ∧ t.cfg = s.cfg := by
  obtain ⟨t, et, hq, hcells, hframe, hsent, hparser⟩ := execTimes_romlw_body (s := s.loading d) rfl _ le_rfl hfit
  have hrelease : t.pos = .leaseRelease none := by rw [hq, romlwPos, if_neg (lt_irrefl _), if_pos hd]
  have e := exec_romlw_leaseRelease hrelease d
  obtain ⟨-, -, -, -, -, ⟨hcfg, -⟩, -⟩ := hframe
  refine ⟨t.leaseRelease none, ?_, ⟨rfl, rfl, congrArg Parser.clear hparser, hsent.trans (List.append_nil _).symm⟩, hcells, hcfg⟩
  rw [show d.data.length + 4 = 3 + (d.data.length + 1) by omega]
  exact (execTimes_add _ 3 _ (execTimes_romlw_lease hpos hp d)).trans
    ((execTimes_add _ _ 1 et).trans ((execTimes_one _ _).trans e))

/-! ### What is written reads back -/

/-- The cells a load has written, as text: the digits of its bytes (rule R54). -/
theorem cellsText_loaded {d : RomLoad} {s t : State} (h : loaded d d.data.length s t) :
    cellsText .rom d.addr.toNat d.data.length t = hexPairsText (d.data.map s.cfg.cut) := by
  have hcell : ∀ j (hj : j < d.data.length), t.cell .rom (d.addr.toNat + j) = s.cfg.cut d.data[j] := by
    intro j hj
    rw [h, if_pos ⟨rfl, by omega, by omega⟩]
    simp [hj]
  refine congrArg hexPairsText (List.ext_getElem (by simp) fun j hj _ => ?_)
  simp only [List.length_map, List.length_range] at hj
  simp [hcell j hj]

/-- The byte of a bus write below `RAM_LEN` is in its cell (rule R114). -/
theorem cell_after_write {s t : State} (hp : s.phase = .data) (hk : s.clk = false) (hd : s.dir = .cpuWrite)
    (hrel : s.dpDir = false) (ha : (busAddr s.cfg s.ah s.al).toNat < s.cfg.ramLen) (e : exec .eDataWr s = .next t) :
    t.cell .ram (busAddr s.cfg s.ah s.al).toNat = s.sampled.b := by
  obtain ⟨u, eu, -, hcell, -⟩ := writeCycleShadowsRam s hp hk hd hrel
  cases eu.symm.trans e
  rw [hcell, if_pos ⟨rfl, rfl, ha⟩]

/-- Settles O58: the cell of the write, and the cells of the load, are what the read-back reports. -/
theorem writesReadBack : Obligations.WritesReadBack := by
  refine ⟨fun s hp hk hd hrel ha => ?_, fun s d hpos hp hd hne hfit => ?_⟩
  · obtain ⟨t, e, -⟩ := writeCycleShadowsRam s hp hk hd hrel
    refine ⟨t, e, fun u hcells hcfg hpos => ?_⟩
    have hread : u.cell .ram (busAddr s.cfg s.ah s.al).toNat = s.sampled.b :=
      (hcells _ _).trans (cell_after_write hp hk hd hrel ha e)
    have hlen : u.bankLen .ram = s.cfg.ramLen := congrArg Params.ramLen (hcfg.trans (exec_cfg e))
    obtain ⟨w, ew, ⟨-, -, -, hsent⟩, -⟩ := execTimes_readBackOf_start (b := .ram) (a := busAddr s.cfg s.ah s.al) hpos one_ne_zero
      (by omega)
    refine ⟨w, (execTimes_one _ _).symm.trans ew, hsent.trans ?_⟩
    simp [cellsText, hexPairsText, hread, readBackAction]
  · obtain ⟨t, et, ⟨-, hpos', -, hsent⟩, hloaded, hcfg⟩ := execTimes_romlw_clean hpos hp hd fun j hj => by omega
    have hlen : t.bankLen .rom = s.cfg.romLen := congrArg Params.romLen hcfg
    obtain ⟨w, ew, ⟨-, -, -, hsent'⟩, -⟩ := execTimes_readBackOf_start (b := .rom) (a := d.addr) hpos'
      (mt List.length_eq_zero_iff.1 hne) (by omega)
    refine ⟨t, et, w, ew, hsent'.trans ?_⟩
    rw [hsent, List.append_nil, cellsText_loaded hloaded]
    rfl

end Sys2Proof.Machine
end

section
/-! PROOFS. The control commands and the release of the target's reset: what each atomic step writes, how it responds, and what it
leaves alone (rules R140 to R148). -/

namespace Sys2Proof

/-! ### Payloads (rules R146 to R148) -/

/-- A payload is ignored (rule R148). -/
theorem dispatch_clockPulse (p : Params) (payload : List Byte) : dispatch p .request kwClockPulse payload = .clockPulse := rfl

/-- A payload is ignored (rule R148). -/
theorem dispatch_reset (p : Params) (payload : List Byte) : dispatch p .request kwReset payload = .reset := rfl

/-- `SETT TICK` is handed over with its value as `argTick` reads it (rule R146). -/
theorem dispatch_sett_tick (p : Params) (value : List Byte) :
    dispatch p .request kwSett (keyText .tick ++ chComma :: value) = .settTick (argTick value) :=
  (dispatch_sett p _).trans (dispatchSett_tick value)

theorem argTick_of_numeral {value : List Byte} {n : Nat} (h : parseNumeral 10 value = some n) : argTick value = .ok n := by
  simp only [argTick, h]

theorem argTick_of_no_numeral {value : List Byte} (h : parseNumeral 10 value = none) : argTick value = .bad .badArgument := by
  simp only [argTick, h]

/-! ### The bytes of the response frames (rules R105, R141, R142, R144) -/

theorem responseText_clock0 : responseText kwClock [ch0] =
    [0x21#8, 0x7B#8, 0x43#8, 0x4C#8, 0x4F#8, 0x43#8, 0x4B#8, 0x2C#8, 0x31#8, 0x7D#8, 0x30#8] := by decide

theorem responseText_clock1 : responseText kwClock [ch1] =
    [0x21#8, 0x7B#8, 0x43#8, 0x4C#8, 0x4F#8, 0x43#8, 0x4B#8, 0x2C#8, 0x31#8, 0x7D#8, 0x31#8] := by decide

theorem responseText_reset : responseText kwReset [] =
    [0x21#8, 0x7B#8, 0x52#8, 0x45#8, 0x53#8, 0x45#8, 0x54#8, 0x2C#8, 0x30#8, 0x7D#8] := by decide

end Sys2Proof

namespace Sys2Proof.Machine

/-! ### How a step leaves the command -/

/-- A response ends the command with its one frame, where nothing was sent before it and the parser is as it was (rule R94). -/
theorem endedWith_respond {s u : State} (hsent : u.sent = s.sent) (hparser : u.parser = s.parser) (frame : List Byte) :
    endedWith [frame] s (u.respond frame).finish :=
  ⟨rfl, rfl, congrArg Parser.clear hparser, congrArg (· ++ [frame]) hsent⟩

/-! ### The clock: `CLOCK` and `CLOCKPULSE` -/

/-- What no step of a clock command touches: all but `clock_enabled`, `single_step` and HOST's place in the command (rules R141 to
R143). -/
def clockFrame (s t : State) : Prop :=
  t.resetAsserted = s.resetAsserted ∧ t.clockPeriodHint = s.clockPeriodHint ∧ t.leaseSaved = s.leaseSaved
    ∧ sameSettings s t ∧ sameMemory s t ∧ hostFrame s t

theorem clockFrame_setClock (s : State) (enabled single : Bool) :
    clockFrame s { s with clockEnabled := enabled, singleStep := single } := by
  obtain ⟨hlease, -, hsettings, hhost⟩ := memoryFrame_refl s
  exact ⟨rfl, rfl, hlease, hsettings, sameMemory_of_banks rfl rfl rfl, hhost⟩

theorem clockFrame_goTo {s t : State} (h : clockFrame s t) (i : Instr) (q : Pos) : clockFrame s (t.goTo i q) := h

theorem clockFrame_respond {s t : State} (h : clockFrame s t) (frame : List Byte) :
    clockFrame s (t.respond frame).finish := h

/-- Settles O26: the one write, then the response. -/
theorem clockZeroDisablesClock : Obligations.ClockZeroDisablesClock := by
  intro s
  rw [← responseText_clock0]
  exact ⟨_, rfl, rfl, endedWith_respond rfl rfl _, rfl, clockFrame_respond (clockFrame_setClock s false s.singleStep) _⟩

/-- Settles O27: the two writes are those of `exec_clock1_start` and `exec_clock1_second`. -/
theorem clockOneStartsFreeRun : Obligations.ClockOneStartsFreeRun := by
  intro s
  rw [← responseText_clock1]
  refine ⟨fun hpos => ⟨_, exec_clock1_start hpos, rfl, rfl, ⟨rfl, rfl, rfl, rfl⟩, ?_⟩,
    fun hpos => ⟨_, exec_clock1_second hpos, rfl, rfl, endedWith_respond rfl rfl _, ?_⟩⟩
  · exact clockFrame_goTo (clockFrame_setClock s s.clockEnabled false) .clock1 .second
  · exact clockFrame_respond (clockFrame_setClock s true s.singleStep) _

/-- Settles O28: the two writes are those of `exec_clockPulse_start` and `exec_clockPulse_second`. -/
theorem clockPulseArmsSingleStep : Obligations.ClockPulseArmsSingleStep := by
  intro s
  refine ⟨dispatch_clockPulse s.cfg, fun hpos => ⟨_, exec_clockPulse_start hpos, rfl, rfl, ⟨rfl, rfl, rfl, rfl⟩, ?_⟩,
    fun hpos => ⟨_, exec_clockPulse_second hpos, rfl, rfl, endedWith_respond rfl rfl _, ?_⟩⟩
  · exact clockFrame_goTo (clockFrame_setClock s s.clockEnabled true) .clockPulse .second
  · exact clockFrame_respond (clockFrame_setClock s true s.singleStep) _

/-- Settles O32: any other payload goes to the rejected form, which raises the error. -/
theorem otherClockPayloadRejected : Obligations.OtherClockPayloadRejected := fun s payload =>
  ⟨fun h0 h1 => (dispatch_clock s.cfg payload).trans (dispatchClock_other h0 h1), s.raise .badArgument, rfl, rejectedFor_raise s _⟩

/-! ### The target's reset: `RESET` and `ResetRelease` -/

/-- What no write of `reset_asserted` touches: all but its pin event and HOST's place in the command (rules R144, R145). -/
def resetFrame (s t : State) : Prop :=
  t.clockEnabled = s.clockEnabled ∧ t.singleStep = s.singleStep ∧ t.clockPeriodHint = s.clockPeriodHint
    ∧ t.alEn = s.alEn ∧ t.ahEn = s.ahEn ∧ t.dEn = s.dEn ∧ t.clk = s.clk ∧ t.dpDir = s.dpDir ∧ t.waits = s.waits
    ∧ t.leaseSaved = s.leaseSaved ∧ sameSettings s t ∧ sameMemory s t ∧ sameLatches s t ∧ sameInputs s t

theorem resetFrame_setResetAsserted (s : State) (v : Bool) : resetFrame s (s.setResetAsserted v) := by
  obtain ⟨hlease, -, hsettings, hlatches, -, hinputs, -⟩ := memoryFrame_refl s
  exact ⟨rfl, rfl, rfl, rfl, rfl, rfl, rfl, rfl, rfl, hlease, hsettings, sameMemory_of_banks rfl rfl rfl, hlatches, hinputs⟩

theorem resetFrame_assertReset (s : State) : resetFrame s s.assertReset := resetFrame_setResetAsserted s true

theorem resetFrame_goTo {s t : State} (h : resetFrame s t) (i : Instr) (q : Pos) : resetFrame s (t.goTo i q) := h

theorem resetFrame_respond {s t : State} (h : resetFrame s t) (frame : List Byte) :
    resetFrame s (t.respond frame).finish := h

/-- `RESET` in one step (rule R144). -/
theorem exec_reset_start {s : State} (hpos : s.pos = .start) (hp : s.cfg.releasePolicy ≠ .withResponse) :
    exec .reset s = .next (s.assertReset.respond (responseText kwReset [])).finish := by
  simp only [exec, execReset, hpos, reduceCtorEq, hp, if_false]

/-- The two atomic steps of a `RESET` that releases before it responds (rule R145; log entry 13). -/
theorem exec_reset_start_withResponse {s : State} (hpos : s.pos = .start) (hp : s.cfg.releasePolicy = .withResponse) :
    exec .reset s = .next (s.assertReset.goTo .reset .second) := by
  simp only [exec, execReset, hpos, reduceCtorEq, hp, if_false, if_true]

theorem exec_reset_second {s : State} (hpos : s.pos = .second) :
    exec .reset s = .next ((s.setResetAsserted false).respond (responseText kwReset [])).finish := by
  simp only [exec, execReset, hpos, if_true]

/-- Settles O29: the pin event of an assertion is `noteEvents_rise`, that of a release `noteEvents_fall`. -/
theorem resetAssertsTargetReset : Obligations.ResetAssertsTargetReset := by
  intro s
  rw [← responseText_reset]
  refine ⟨dispatch_reset s.cfg,
    fun hpos hp => ⟨_, exec_reset_start hpos hp, rfl, rfl, rfl, noteEvents_rise _ _ _, endedWith_respond rfl rfl _, ?_⟩,
    fun hpos hp => ⟨_, exec_reset_start_withResponse hpos hp, rfl, rfl, ⟨rfl, rfl, rfl, rfl⟩, noteEvents_rise _ _ _, ?_⟩,
    fun hpos => ⟨_, exec_reset_second hpos, rfl, rfl, noteEvents_fall _ _ _, endedWith_respond rfl rfl _, ?_⟩⟩
  · exact resetFrame_respond (resetFrame_assertReset s) _
  · exact resetFrame_goTo (resetFrame_assertReset s) .reset .second
  · exact resetFrame_respond (resetFrame_setResetAsserted s false) _

/-- Settles O30: the move is `setResetAsserted`, which has the frame of a reset and leaves HOST alone. -/
theorem resetReleaseDeassertsTargetReset : Obligations.ResetReleaseDeassertsTargetReset := by
  intro s
  obtain ⟨hc, hs, hh, ha, hb, hd, hk, hp, hw, hlease, hsettings, hframe⟩ := resetFrame_setResetAsserted s false
  exact ⟨_, rfl, rfl, rfl, noteEvents_fall _ _ _, hc, hs, hh, ha, hb, hd, hk, hp, hw,
    ⟨hlease, rfl, rfl, rfl, rfl, rfl, rfl, hsettings⟩, hframe⟩

/-- The move is offered (rule R145; log entry 13). -/
theorem fetchRelease_of_reset {s : State} (hp : s.cfg.releasePolicy = .anyTime) (hr : s.resetRan = true) :
    s.fetchRelease = .run .resetRelease := if_pos ⟨hp, hr⟩

theorem fetchRelease_of_no_offer {s : State} (h : s.cfg.releasePolicy ≠ .anyTime ∨ s.resetRan = false) :
    s.fetchRelease = .pass := by
  refine if_neg ?_
  rintro ⟨hp, hr⟩
  obtain hp' | hr' := h
  · exact hp' hp
  · exact Bool.false_ne_true (hr'.symm.trans hr)

/-- Settles O18: the release move looks at the policy and at whether a `RESET` has run, and at nothing of the command. -/
theorem stepOffersResetRelease : Obligations.StepOffersResetRelease := by
  intro s ht
  rw [step_eq_stepAs, ht, stepAs_eq]
  refine ⟨fun hp hr => ?_, fun h => ?_⟩
  · simp only [fetchRelease_of_reset (s := s.popTurn) hp hr]
  · simp only [fetchRelease_of_no_offer (s := s.popTurn) h]

/-! ### `SETT TICK` -/

theorem exec_settTick_ok (s : State) (n : Nat) :
    exec (.settTick (.ok n)) s = .next ((s.setTick n).respond (settingResponse .tick (numeral 10 n))).finish := rfl

/-- Settles O31: a numeral is written by `setTick`, any other value raises the error. -/
theorem tickSetsClockPeriod : Obligations.TickSetsClockPeriod := by
  refine fun s value => ⟨fun n hn => ⟨?_, _, exec_settTick_ok s n, rfl, endedWith_respond rfl rfl _, ?_⟩, fun hn => ⟨?_, ?_⟩⟩
  · exact (dispatch_sett_tick s.cfg value).trans (congrArg Instr.settTick (argTick_of_numeral hn))
  · obtain ⟨hlease, -, -, hhost⟩ := memoryFrame_refl s
    exact ⟨rfl, rfl, rfl, rfl, hlease, sameMemory_of_banks rfl rfl rfl, hhost⟩
  · exact (dispatch_sett_tick s.cfg value).trans (congrArg Instr.settTick (argTick_of_no_numeral hn))
  · exact ⟨_, exec_of_rejectedOperand rfl s, rejectedFor_raise s _⟩

end Sys2Proof.Machine
end

section
/-! PROOFS. `ROM`, from its payload to its response, and each step that takes or releases the lease of a bulk mutation
(rules R161 to R163). -/

namespace Sys2Proof

/-! ### The payload of `ROM` (rule R163) -/

/-- A payload of another length than 7, or without a comma after four characters. -/
theorem argRom_of_bad_shape {payload : List Byte} (h : payload.length ≠ 7 ∨ payload[4]? ≠ some chComma) :
    argRom payload = .bad .badArgument := by
  unfold argRom
  split
  next => exact if_neg (by simpa using h)
  next => rfl

theorem argRom_of_bad_digit {a0 a1 a2 a3 v0 v1 : Byte} (h : hex4 a0 a1 a2 a3 = none ∨ hex2 v0 v1 = none) :
    argRom [a0, a1, a2, a3, chComma, v0, v1] = .bad .invalidDigit := by
  simp only [argRom, if_true]
  split
  next ha hv => simp [ha, hv] at h
  next => rfl

theorem argRom_of_digits {a0 a1 a2 a3 v0 v1 : Byte} {a : Addr} {v : Byte} (ha : hex4 a0 a1 a2 a3 = some a)
    (hv : hex2 v0 v1 = some v) : argRom [a0, a1, a2, a3, chComma, v0, v1] = .ok (a, v) := by
  simp only [argRom, if_true, ha, hv]

end Sys2Proof

namespace Sys2Proof.Machine

/-! ### `ROM` -/

theorem exec_rom_of_lt {s : State} {a : Addr} (h : a.toNat < s.cfg.romLen) (v : Byte) :
    exec (.rom (.ok (a, v))) s = .next
      ((s.setCell .rom a.toNat v).respond (responseText kwRom (wordToHex4 a ++ chComma :: byteToHex2 v))).finish := by
  simp only [exec, execRom, State.bankWrite_eq, State.bankLen, h, if_true]

theorem exec_rom_of_le {s : State} {a : Addr} (h : s.cfg.romLen ≤ a.toNat) (v : Byte) :
    exec (.rom (.ok (a, v))) s = .next (s.raise .outOfRange) := by
  simp only [exec, execRom, State.bankWrite_eq, State.bankLen, h.not_gt, if_false]

/-- Settles O33: the payload by `argRom`, the one cell by `exec_rom_of_lt`. -/
theorem romWritesOneCell : Obligations.RomWritesOneCell := by
  intro s
  refine ⟨fun payload h => congrArg Instr.rom (argRom_of_bad_shape h),
    fun a0 a1 a2 a3 v0 v1 => ⟨fun h => congrArg Instr.rom (argRom_of_bad_digit h),
      fun a v ha hv => congrArg Instr.rom (argRom_of_digits ha hv)⟩,
    fun c => ⟨_, exec_of_rejectedOperand rfl s, rejectedFor_raise s c⟩, fun a v => ⟨fun h => ?_, fun h => ?_⟩⟩
  · obtain ⟨hlease, hcontrol, hsettings, hhost⟩ :=
      memoryFrame_finish (memoryFrame_respond (memoryFrame_setCell s .rom a.toNat v) _)
    exact ⟨_, exec_rom_of_lt h v, fun b i => State.cell_setCell s .rom b a.toNat i v, endedWith_respond rfl rfl _,
      hcontrol, hlease, hsettings, hhost⟩
  · exact ⟨_, exec_rom_of_le h v, rejectedFor_raise s _⟩

/-! ### The lease, of either bulk mutation -/

/-- Where a bulk mutation goes on once the lease is taken: its first cell, or the release (rules R164, R165). -/
def bulkFirst (p : Params) : Instr → Pos
  | .romlw (.ok d) => romlwPos d 0
  | _ => ramclrPos p.ramLen 0

/-- The two bulk mutations (rule R160). -/
theorem isBulk_cases {i : Instr} (h : isBulk i = true) : (∃ d, i = .romlw (.ok d)) ∨ i = .ramclr := by
  cases i
  case romlw x =>
    cases x with
    | ok d => exact .inl ⟨d, rfl⟩
    | bad c => cases h
  case ramclr => exact .inr rfl
  all_goals cases h

section
variable {i : Instr} {s : State} (hi : isBulk i = true)
include hi

theorem exec_bulk_start (h : s.pos = .start) : exec i s = .next (s.leaseSave i) := by
  obtain ⟨d, rfl⟩ | rfl := isBulk_cases hi
  · exact exec_romlw_start h d
  · simp only [exec, execRamclr, h]

theorem exec_bulk_leaseForce (h : s.pos = .leaseForce) : exec i s = .next (s.leaseForce i) := by
  obtain ⟨d, rfl⟩ | rfl := isBulk_cases hi
  · exact exec_romlw_leaseForce h d
  · simp only [exec, execRamclr, h]

theorem exec_bulk_leaseWait (h : s.pos = .leaseWait) : exec i s = .next (s.leaseWait i (bulkFirst s.cfg i)) := by
  obtain ⟨d, rfl⟩ | rfl := isBulk_cases hi
  · exact exec_romlw_leaseWait h d
  · simp only [exec, execRamclr, h, bulkFirst]

theorem exec_bulk_leaseRelease {e : Option Cause} (h : s.pos = .leaseRelease e) : exec i s = .next (s.leaseRelease e) := by
  obtain ⟨d, rfl⟩ | rfl := isBulk_cases hi
  · exact exec_romlw_leaseRelease h d
  · simp only [exec, execRamclr, h]

end

theorem goesOnAt_goTo (s : State) (i : Instr) (q : Pos) : goesOnAt i q s (s.goTo i q) := ⟨rfl, rfl, rfl, rfl⟩

theorem leaseWait_of_idle {s : State} (h : s.phase = .idle) (i : Instr) (q : Pos) : s.leaseWait i q = s.goTo i q := by
  rw [State.leaseWait, if_pos h]

theorem leaseWait_of_not_idle {s : State} (h : s.phase ≠ .idle) (i : Instr) (q : Pos) :
    s.leaseWait i q = s.goTo i .leaseWait := by
  rw [State.leaseWait, if_neg h]

/-- What no step of the lease touches: all but `clock_enabled`, the lease and HOST's place in the command (rules R161, R162). -/
def leaseFrame (s t : State) : Prop :=
  t.singleStep = s.singleStep ∧ t.resetAsserted = s.resetAsserted ∧ t.clockPeriodHint = s.clockPeriodHint
    ∧ sameSettings s t ∧ sameMemory s t ∧ hostFrame s t

theorem leaseFrame_setLease (s : State) (enabled : Bool) (saved : Option Bool) :
    leaseFrame s { s with clockEnabled := enabled, leaseSaved := saved } := by
  obtain ⟨-, -, hsettings, hhost⟩ := memoryFrame_refl s
  exact ⟨rfl, rfl, rfl, hsettings, sameMemory_of_banks rfl rfl rfl, hhost⟩

theorem leaseFrame_goTo {s t : State} (h : leaseFrame s t) (i : Instr) (q : Pos) : leaseFrame s (t.goTo i q) := h

/-- Settles O34: each position of the acquisition by its equation, of either mutation. -/
theorem leaseIsTaken : Obligations.LeaseIsTaken := by
  intro i s hi
  refine ⟨fun hpos => ⟨_, exec_bulk_start hi hpos, rfl, rfl, ⟨rfl, rfl, rfl, rfl⟩, ?_⟩,
    fun hpos => ⟨_, exec_bulk_leaseForce hi hpos, rfl, rfl, ⟨rfl, rfl, rfl, rfl⟩, ?_⟩,
    fun hpos => ⟨_, exec_bulk_leaseWait hi hpos, fun hp => ?_, fun hp => ⟨?_, ?_⟩, ?_⟩⟩
  · exact leaseFrame_goTo (leaseFrame_setLease s s.clockEnabled (some s.clockEnabled)) i _
  · exact leaseFrame_goTo (leaseFrame_setLease s false s.leaseSaved) i _
  · rw [leaseWait_of_not_idle hp]
    exact goesOnAt_goTo s i _
  · rintro d rfl
    rw [leaseWait_of_idle hp]
    exact goesOnAt_goTo s _ _
  · rintro rfl
    rw [leaseWait_of_idle hp]
    exact goesOnAt_goTo s _ _
  · obtain ⟨hlease, hcontrol, hsettings, hhost⟩ := memoryFrame_goTo (memoryFrame_refl s) i _
    exact ⟨hlease, hcontrol, hsettings, sameMemory_of_banks rfl rfl rfl, hhost⟩

/-- The frames sent at the release: one for the error met, if any (rules R162, R202). -/
def releaseFrames (p : Params) : Option Cause → List (List Byte)
  | none => []
  | some c => [errorText (p.code c)]

theorem endedWith_leaseRelease (s : State) (e : Option Cause) : endedWith (releaseFrames s.cfg e) s (s.leaseRelease e) := by
  cases e
  · exact ⟨rfl, rfl, rfl, (List.append_nil _).symm⟩
  · exact ⟨rfl, rfl, rfl, rfl⟩

theorem leaseFrame_leaseRelease (s : State) (e : Option Cause) : leaseFrame s (s.leaseRelease e) := by
  have h := leaseFrame_setLease s (s.leaseSaved.getD s.clockEnabled) none
  cases e <;> exact h

/-- Settles O35: the release is `State.leaseRelease`, of either mutation. -/
theorem leaseIsReleased : Obligations.LeaseIsReleased := by
  intro i s e saved hi hpos hsaved
  refine ⟨_, exec_bulk_leaseRelease hi hpos, ?_, State.leaseRelease_leaseSaved s e, ?_, leaseFrame_leaseRelease s e⟩
  · rw [State.leaseRelease_clockEnabled, hsaved, Option.getD_some]
  · have hend := endedWith_leaseRelease s e
    cases e <;> exact hend

end Sys2Proof.Machine
end

section
/-! PROOFS. The memory commands from their first step to their last: a read-back of either bank, and a bulk mutation under its lease
(rules R161 to R167). -/

namespace Sys2Proof.Machine

/-! ### Read-backs -/

theorem readBackStep_out_of_range {s : State} {b : Bank} {a n : Nat} (hpos : s.pos = .start) (h : s.bankLen b < a + n)
    (i : Instr) (action : List Byte) : s.readBackStep b i action a n = s.raise .outOfRange := by
  simp only [State.readBackStep, hpos, h, if_true]

/-- A read-back of no cell responds at once (log entry 23). -/
theorem readBack_none (s : State) (b : Bank) (i : Instr) (action : List Byte) (a : Nat) (out : List Byte) :
    s.readBack b i action a 0 0 out = (s.respond (responseText action out)).finish := if_neg (lt_irrefl 0)

/-- A read-back in range, of no cell too, from its first step to its last. -/
theorem execTimes_readBackOf_range {s : State} {b : Bank} {a : Addr} {n : Nat} (hpos : s.pos = .start)
    (h : a.toNat + n ≤ s.bankLen b) :
    ∃ t, execTimes (readBackOf b a n) (if n = 0 then 1 else n) s = .next t
      ∧ endedWith [responseText (readBackAction b) (cellsText b a.toNat n s)] s t ∧ sameMemory s t ∧ memoryFrame s t := by
  by_cases hn : n = 0
  · subst hn
    have e := exec_readBackOf b a 0 s
    rw [readBackStep_start hpos h, readBack_none] at e
    exact ⟨_, (execTimes_one _ _).trans e, endedWith_respond rfl rfl _, sameMemory_of_banks rfl rfl rfl,
      memoryFrame_finish (memoryFrame_respond (memoryFrame_refl s) _)⟩
  · rw [if_neg hn]
    exact execTimes_readBackOf_start hpos hn h

/-- Both outcomes of a read-back, of either bank (rules R166, R167). -/
theorem readBackOf_returns_cells (b : Bank) (a : Addr) (n : Nat) {s : State} (hpos : s.pos = .start) :
    (s.bankLen b < a.toNat + n → answers (exec (readBackOf b a n) s) (rejectedFor .outOfRange s))
    ∧ (a.toNat + n ≤ s.bankLen b → answers (execTimes (readBackOf b a n) (if n = 0 then 1 else n) s) fun t =>
      endedWith [responseText (readBackAction b) (cellsText b a.toNat n s)] s t
      ∧ sameControl s t ∧ t.leaseSaved = s.leaseSaved ∧ sameSettings s t ∧ sameMemory s t ∧ hostFrame s t) := by
  refine ⟨fun h => ?_, fun h => ?_⟩
  · have e := exec_readBackOf b a n s
    rw [readBackStep_out_of_range hpos h] at e
    exact ⟨_, e, rejectedFor_raise s _⟩
  · obtain ⟨t, e, hend, hcells, hlease, hcontrol, hsettings, hhost⟩ := execTimes_readBackOf_range hpos h
    exact ⟨t, e, hend, hcontrol, hlease, hsettings, hcells, hhost⟩

/-- Settles O40: the RAM case of `readBackOf_returns_cells`. -/
theorem ramReadBackReturnsCells : Obligations.RamReadBackReturnsCells := fun _ a n hpos =>
  readBackOf_returns_cells .ram a n hpos

/-- Settles O41: the ROM case of `readBackOf_returns_cells`. -/
theorem romReadBackReturnsCells : Obligations.RomReadBackReturnsCells := fun _ a n hpos =>
  readBackOf_returns_cells .rom a n hpos

/-! ### A bulk mutation around its cell writes -/

/-- A bulk mutation at its first cell, the lease taken (rule R161). -/
def State.leased (i : Instr) (s : State) : State :=
  ({ s with leaseSaved := some s.clockEnabled, clockEnabled := false } : State).goTo i (bulkFirst s.cfg i)

/-- With the engine in `Idle` the lease is taken in three steps (rule R161). -/
theorem execTimes_bulk_lease {i : Instr} {s : State} (hi : isBulk i = true) (hpos : s.pos = .start) (hp : s.phase = .idle) :
    execTimes i 3 s = .next (s.leased i) := by
  have save := exec_bulk_start hi hpos
  have force := exec_bulk_leaseForce (s := s.leaseSave i) hi rfl
  have wait := exec_bulk_leaseWait (s := (s.leaseSave i).leaseForce i) hi rfl
  rw [leaseWait_of_idle (s := (s.leaseSave i).leaseForce i) hp] at wait
  simp only [execTimes, save, force, wait]
  rfl

/-- The lease, `n` steps that take it to its release, and the release. -/
theorem execTimes_bulk {i : Instr} {s t : State} {n : Nat} {e : Option Cause} (hi : isBulk i = true) (hpos : s.pos = .start)
    (hp : s.phase = .idle) (hbody : execTimes i n (s.leased i) = .next t) (hrelease : t.pos = .leaseRelease e) :
    execTimes i (n + 4) s = .next (t.leaseRelease e) := by
  rw [show n + 4 = 3 + (n + 1) by omega, execTimes_add i 3 (n + 1) (execTimes_bulk_lease hi hpos hp),
    execTimes_add i n 1 hbody, execTimes_one, exec_bulk_leaseRelease hi hrelease]

/-- The steps under the lease have sent nothing, and left all but cells and HOST's place in the command as the lease left it. -/
def underLease (i : Instr) (s t : State) : Prop :=
  memoryFrame (s.leased i) t ∧ t.sent = s.sent ∧ t.parser = s.parser

theorem underLease.cfg {i : Instr} {s t : State} (h : underLease i s t) : t.cfg = s.cfg := by
  obtain ⟨⟨-, -, -, -, -, ⟨hcfg, -⟩, -⟩, -⟩ := h
  exact hcfg

@[simp] theorem State.cell_leaseRelease (s : State) (e : Option Cause) (b : Bank) (a : Nat) :
    (s.leaseRelease e).cell b a = s.cell b a :=
  State.cell_congr (State.leaseRelease_ram s e) (State.leaseRelease_rom s e) (State.leaseRelease_cfg s e) b a

/-- What a bulk mutation leaves at its end, apart from the cells: the error met is reported, and `clock_enabled` has its value
again (rule R162). -/
theorem underLease.leaseRelease {i : Instr} {s t : State} (h : underLease i s t) (e : Option Cause) :
    endedWith (releaseFrames s.cfg e) s (t.leaseRelease e) ∧ (t.leaseRelease e).leaseSaved = none
      ∧ sameControl s (t.leaseRelease e) ∧ sameSettings s (t.leaseRelease e) ∧ hostFrame s (t.leaseRelease e) := by
  have hcfg := h.cfg
  obtain ⟨⟨hlease, ⟨-, hsingle, hreset, hhint⟩, hsettings, hhost⟩, hsent, hparser⟩ := h
  obtain ⟨hcmd, hpos, hclear, hframes⟩ := endedWith_leaseRelease t e
  rw [hsent, hcfg] at hframes
  have hclock : (t.leaseRelease e).clockEnabled = s.clockEnabled := by
    rw [State.leaseRelease_clockEnabled, hlease]
    rfl
  refine ⟨⟨hcmd, hpos, hclear.trans (congrArg Parser.clear hparser), hframes⟩, ?_⟩
  cases e <;> exact ⟨rfl, ⟨hclock, hsingle, hreset, hhint⟩, hsettings, hhost⟩

/-! ### `ROMLW` -/

/-- The frames of a load that ends with its text (rule R164). -/
theorem releaseFrames_clean (p : Params) (clean : Bool) :
    releaseFrames p (if clean then none else some .invalidDigit) = if clean then [] else [errorText p.errInvalidDigit] := by
  cases clean <;> rfl

theorem romlwPos_length (d : RomLoad) :
    romlwPos d d.data.length = .leaseRelease (if d.clean then none else some .invalidDigit) := if_neg (lt_irrefl _)

/-- The first `k` bytes of a load, as far as they fit, from the lease on. -/
theorem execTimes_romlw_leased (d : RomLoad) (s : State) {k : Nat} (hk : k ≤ d.data.length)
    (hfit : ∀ j < k, d.addr.toNat + j < s.cfg.romLen) :
    ∃ t, execTimes (.romlw (.ok d)) k (s.leased (.romlw (.ok d))) = .next t ∧ t.pos = romlwPos d k ∧ loaded d k s t
      ∧ underLease (.romlw (.ok d)) s t := by
  obtain ⟨t, e, hpos, hcells, hframe, hsent, hparser⟩ :=
    execTimes_romlw_body (s := s.leased (.romlw (.ok d))) rfl k hk hfit
  exact ⟨t, e, hpos, hcells, hframe, hsent, hparser⟩

/-- The first byte that does not fit ends the load (rule R164). -/
theorem execTimes_romlw_overrun {d : RomLoad} {s : State} {k : Nat} (hk : k < d.data.length)
    (hfit : ∀ j < k, d.addr.toNat + j < s.cfg.romLen) (hend : s.cfg.romLen ≤ d.addr.toNat + k) :
    ∃ t, execTimes (.romlw (.ok d)) (k + 1) (s.leased (.romlw (.ok d))) = .next t
      ∧ t.pos = .leaseRelease (some .outOfRange) ∧ loaded d k s t ∧ underLease (.romlw (.ok d)) s t := by
  obtain ⟨t, e, hpos, hcells, hunder⟩ := execTimes_romlw_leased d s hk.le hfit
  have hbody : t.pos = .body k := by rw [hpos, romlwPos, if_pos hk]
  have e' := exec_romlw_body hbody d
  rw [State.romlwWrite_of_le (List.getElem?_eq_getElem hk) (hunder.cfg ▸ hend)] at e'
  refine ⟨_, (execTimes_add _ k 1 e).trans ((execTimes_one _ _).trans e'), rfl, fun b i => ?_, hunder⟩
  rw [State.cell_goTo, hcells b i]

theorem loaded_rom {d : RomLoad} {k : Nat} {s t : State} (h : loaded d k s t) (i : Nat) :
    t.cell .rom i =
      if d.addr.toNat ≤ i ∧ i < d.addr.toNat + k then (d.data.map s.cfg.cut)[i - d.addr.toNat]?.getD (s.cell .rom i)
      else s.cell .rom i := by
  simpa using h .rom i

theorem loaded_ram {d : RomLoad} {k : Nat} {s t : State} (h : loaded d k s t) (i : Nat) : t.cell .ram i = s.cell .ram i := by
  simpa using h .ram i

/-- Past its last byte a load has nothing to write. -/
theorem loaded_rom_all {d : RomLoad} {s t : State} (h : loaded d d.data.length s t) (i : Nat) :
    t.cell .rom i = if d.addr.toNat ≤ i then (d.data.map s.cfg.cut)[i - d.addr.toNat]?.getD (s.cell .rom i)
      else s.cell .rom i := by
  rw [loaded_rom h i]
  by_cases hlo : d.addr.toNat ≤ i
  · by_cases hhi : i < d.addr.toNat + d.data.length
    · rw [if_pos ⟨hlo, hhi⟩, if_pos hlo]
    · rw [if_neg (fun h => hhi h.2), if_pos hlo, List.getElem?_eq_none (by rw [List.length_map]; omega), Option.getD_none]
  · rw [if_neg (fun h => hlo h.1), if_neg hlo]

/-- Settles O37: the lease and the release are `execTimes_bulk`, and between them all bytes are written, or those up to the end of
ROM and one step that finds the next out of range. -/
theorem romLoadRunsToItsEnd : Obligations.RomLoadRunsToItsEnd := by
  intro s d hpos hp
  refine ⟨fun hfit => ?_, fun hne hover => ?_⟩
  · have hfit : ∀ j < d.data.length, d.addr.toNat + j < s.cfg.romLen := by
      intro j hj
      obtain hnil | hle := hfit
      · simp [hnil] at hj
      · omega
    obtain ⟨t, e, hq, hcells, hunder⟩ := execTimes_romlw_leased d s le_rfl hfit
    rw [romlwPos_length] at hq
    obtain ⟨hend, hrest⟩ := hunder.leaseRelease (if d.clean then none else some .invalidDigit)
    rw [releaseFrames_clean] at hend
    exact ⟨_, execTimes_bulk rfl hpos hp e hq, fun i => (State.cell_leaseRelease t _ _ _).trans (loaded_rom_all hcells i),
      fun i => (State.cell_leaseRelease t _ _ _).trans (loaded_ram hcells i), hend, hrest⟩
  · have hlen : 0 < d.data.length := List.length_pos_iff.2 hne
    obtain ⟨t, e, hq, hcells, hunder⟩ := execTimes_romlw_overrun (d := d) (s := s) (k := s.cfg.romLen - d.addr.toNat)
      (by omega) (fun j hj => by omega) (by omega)
    refine ⟨_, execTimes_bulk rfl hpos hp e hq, fun i => ?_,
      fun i => (State.cell_leaseRelease t _ _ _).trans (loaded_ram hcells i), hunder.leaseRelease (some .outOfRange)⟩
    rw [State.cell_leaseRelease, loaded_rom hcells i]
    exact if_congr (by omega) rfl rfl

/-! ### `RAMCLR` -/

/-- A payload is ignored (rule R165). -/
theorem dispatch_ramclr (p : Params) (payload : List Byte) : dispatch p .message kwRamclr payload = .ramclr := rfl

/-- The first `k` RAM cells are zero, and every other cell is as it was (rule R58). -/
def cleared (k : Nat) (s t : State) : Prop :=
  ∀ b i, t.cell b i = if b = .ram ∧ i < k then 0x00#8 else s.cell b i

theorem cleared_zero (s : State) : cleared 0 s s := by
  intro b i
  rw [if_neg (by omega)]

/-- One cell more. -/
theorem cleared_setCell {k : Nat} {s t : State} (h : cleared k s t) : cleared (k + 1) s (t.setCell .ram k 0x00#8) := by
  intro b i
  rw [State.cell_setCell, h b i, Params.cut_zero]
  by_cases hi : b = .ram ∧ i = k
  · rw [if_pos hi, if_pos ⟨hi.1, by omega⟩]
  · rw [if_neg hi]
    refine if_congr (and_congr_right fun hb => ?_) rfl rfl
    have hne : i ≠ k := fun h => hi ⟨hb, h⟩
    omega

/-- The first `k` cells are written in `k` steps, from the lease on (rule R165). -/
theorem execTimes_ramclr_leased (s : State) {k : Nat} (hk : k ≤ s.cfg.ramLen) :
    ∃ t, execTimes .ramclr k (s.leased .ramclr) = .next t ∧ t.pos = ramclrPos s.cfg.ramLen k ∧ cleared k s t
      ∧ underLease .ramclr s t := by
  induction k with
  | zero => exact ⟨_, rfl, rfl, cleared_zero s, memoryFrame_refl _, rfl, rfl⟩
  | succ k ih =>
    obtain ⟨t, e, hpos, hcells, hunder⟩ := ih (by omega)
    have hbody : t.pos = .body k := by rw [hpos, ramclrPos, if_pos (by omega)]
    have e' := exec_ramclr_body hbody
    rw [State.ramclrWrite_of_lt (by rw [hunder.cfg]; omega), hunder.cfg] at e'
    exact ⟨_, (execTimes_add _ k 1 e).trans ((execTimes_one _ _).trans e'), rfl,
      fun b i => (State.cell_goTo _ _ _ b i).trans (cleared_setCell hcells b i), hunder⟩

/-- Settles O38: the lease and the release are `execTimes_bulk`, and between them every RAM cell is written. -/
theorem ramClearZeroesEveryCell : Obligations.RamClearZeroesEveryCell := by
  refine fun s => ⟨dispatch_ramclr s.cfg, fun hpos hp => ?_⟩
  obtain ⟨t, e, hq, hcells, hunder⟩ := execTimes_ramclr_leased s le_rfl
  rw [ramclrPos, if_neg (lt_irrefl _)] at hq
  refine ⟨_, execTimes_bulk rfl hpos hp e hq, fun i => ?_, fun i => ?_, hunder.leaseRelease none⟩
  · rw [State.cell_leaseRelease, hcells]
    exact if_congr (and_iff_right rfl) rfl rfl
  · rw [State.cell_leaseRelease, hcells, if_neg (by simp)]

end Sys2Proof.Machine
end

section
/-! PROOFS. The commands that leave the block alone: what the Settings Record holds after a put, and the one response frame of each
(rules R180 to R185). -/

namespace Sys2Proof

/-- A payload is ignored (rule R181). -/
theorem dispatch_awake (p : Params) (payload : List Byte) : dispatch p .request kwAwake payload = .awake := rfl

/-- The bytes of the response to `AWAKE` (rules R105, R181). -/
theorem responseText_awake : responseText kwAwake [] =
    [0x21#8, 0x7B#8, 0x41#8, 0x57#8, 0x41#8, 0x4B#8, 0x45#8, 0x2C#8, 0x30#8, 0x7D#8] := by decide

/-- The bytes of the `ERROR` frame: its keyword, the code's sign, and the digits of its absolute value (rule R185). -/
theorem errorText_eq_sign_digits (code : Int) : errorText code = responseText [0x45#8, 0x52#8, 0x52#8, 0x4F#8, 0x52#8]
    ((if code < 0 then [0x2D#8] else []) ++ numeral 10 code.natAbs) := by
  rw [errorText, signedNumeral]
  split <;> rfl

end Sys2Proof

namespace Sys2Proof.Machine

/-! ### Commands that only respond -/

/-- A step that writes one frame and ends the command touches nothing else (rules R94, R105). -/
theorem respond_finish_frame (s : State) (frame : List Byte) :
    endedWith [frame] s (s.respond frame).finish ∧ sameControl s (s.respond frame).finish
      ∧ (s.respond frame).finish.leaseSaved = s.leaseSaved ∧ sameSettings s (s.respond frame).finish
      ∧ sameMemory s (s.respond frame).finish ∧ hostFrame s (s.respond frame).finish := by
  obtain ⟨hlease, hcontrol, hsettings, hhost⟩ := memoryFrame_finish (memoryFrame_respond (memoryFrame_refl s) frame)
  exact ⟨endedWith_respond rfl rfl frame, hcontrol, hlease, hsettings, sameMemory_of_banks rfl rfl rfl, hhost⟩

/-- Settles O43: the step only responds, with the bytes of `responseText_awake`. -/
theorem awakeAnswers : Obligations.AwakeAnswers := by
  intro s
  rw [← responseText_awake]
  exact ⟨dispatch_awake s.cfg, _, rfl, respond_finish_frame s _⟩

/-- Settles O45: the step only responds, with the setting's text as `settingText` gives it. -/
theorem settingReportsValue : Obligations.SettingReportsValue := fun s k =>
  ⟨_, rfl, respond_finish_frame s (settingResponse k (s.settingText k))⟩

/-- Settles O47: the step only responds, with the bytes of `errorText_eq_sign_digits`. -/
theorem errorFrameCarriesCode : Obligations.ErrorFrameCarriesCode := by
  intro s code
  rw [← errorText_eq_sign_digits]
  exact ⟨_, rfl, respond_finish_frame s _⟩

/-! ### The Settings Record (rules R44, R182, R184) -/

/-- What no request to the collaborators touches: all but the settings, the requests, and HOST's place in the command. -/
def settingsFrame (s t : State) : Prop :=
  sameControl s t ∧ t.leaseSaved = s.leaseSaved ∧ sameMemory s t ∧ hostFrame s t

theorem settingsFrame_refl (s : State) : settingsFrame s s := by
  obtain ⟨hlease, hcontrol, -, hhost⟩ := memoryFrame_refl s
  exact ⟨hcontrol, hlease, sameMemory_of_banks rfl rfl rfl, hhost⟩

theorem settingsFrame_putSetting (s : State) (k : SettKey) (v : List Byte) : settingsFrame s (s.putSetting k v) :=
  settingsFrame_refl s

theorem settingsFrame_setCalls (s : State) (calls : List ExtCall) : settingsFrame s { s with calls := calls } :=
  settingsFrame_refl s

theorem settingsFrame_respond {s t : State} (h : settingsFrame s t) (frame : List Byte) :
    settingsFrame s (t.respond frame).finish := h

/-- A setting reads back as it was put; `TICK` is not put so, its text being `clock_period_hint`. -/
theorem settingText_putSetting_same {k : SettKey} (hk : k ≠ .tick) (s : State) (v : List Byte) :
    (s.putSetting k v).settingText k = v := by
  cases k
  case tick => exact absurd rfl hk
  all_goals rfl

theorem settingText_putSetting_of_ne {k k' : SettKey} (h : k' ≠ k) (s : State) (v : List Byte) :
    (s.putSetting k v).settingText k' = s.settingText k' := by
  cases k'
  case tick => rfl
  all_goals exact if_neg h.symm

/-- The put comes first, and for `BAUD` the reopening of the transport after it. -/
theorem putSetting_calls (s : State) (k : SettKey) (v : List Byte) :
    (s.putSetting k v).calls = s.calls ++ [.put k v] ++ (if k = .baud then [.reopen v] else []) := by
  rw [State.putSetting]
  split <;> simp

theorem exec_sett_ok {k : SettKey} (hk : k ≠ .tick) (v : List Byte) (s : State) :
    exec (.sett (.ok (k, v))) s = .next ((s.putSetting k v).respond (settingResponse k v)).finish := by
  cases k
  case tick => exact absurd rfl hk
  all_goals rfl

/-- Settles O44: the setting is put by `putSetting`, which has the frame of a request, and the step responds. -/
theorem settStoresSetting : Obligations.SettStoresSetting := fun s k v hk =>
  ⟨_, exec_sett_ok hk v s, settingText_putSetting_same hk s v, fun _ h => settingText_putSetting_of_ne h s v,
    putSetting_calls s k v, endedWith_respond rfl rfl _, settingsFrame_respond (settingsFrame_putSetting s k v) _⟩

/-- Settles O46: the request carries the four texts, and the frame is the one the open format makes of the same texts. -/
theorem saveCommitsSettings : Obligations.SaveCommitsSettings := by
  refine fun s => ⟨_, rfl, rfl, fun action payload hformat => ?_, rfl, settingsFrame_respond (settingsFrame_setCalls s _) _⟩
  have hframe : s.saveFrame = responseText action payload :=
    congrArg (fun f : List Byte × List Byte => responseText f.1 f.2) hformat
  rw [← hframe]
  exact endedWith_respond rfl rfl _

end Sys2Proof.Machine
end

section
/-! PROOFS. Parser errors, reported in two steps, and the rights of the two agents: who writes a cell, and who enables the clock (rules
R194, R195, R206). -/

namespace Sys2Proof

/-- The bytes of the `ERROR` frame of the code -2 (rules R185, R195). -/
theorem errorText_neg_two : errorText (-2) =
    [0x21#8, 0x7B#8, 0x45#8, 0x52#8, 0x52#8, 0x4F#8, 0x52#8, 0x2C#8, 0x32#8, 0x7D#8, 0x2D#8, 0x32#8] := by decide

/-- A selector is decoded by a row of the table (rule R80). -/
theorem selectRow_mem {w : BitVec 4} {i : Instr} {rows : List SelectorRow} (h : selectRow w rows = .ok i) :
    ∃ r ∈ rows, r.op = i := by
  induction rows with
  | nil => cases h
  | cons r rows ih =>
    rw [selectRow] at h
    split at h
    · cases h
      exact ⟨r, List.mem_cons_self, rfl⟩
    · obtain ⟨r', hr', hop⟩ := ih h
      exact ⟨r', List.mem_cons_of_mem r hr', hop⟩

/-- A selector names engine operations only (rule R80). -/
theorem isEngineOp_of_decodeSelector {w : BitVec 4} {i : Instr} (h : decodeSelector w = .ok i) :
    Machine.isEngineOp i = true := by
  have htable : ∀ r ∈ selectorTable, Machine.isEngineOp r.op = true := by decide
  obtain ⟨r, hr, rfl⟩ := selectRow_mem h
  exact htable r hr

end Sys2Proof

namespace Sys2Proof.Machine

/-! ### Parser errors (rules R194, R195) -/

/-- HOST's turn reads a byte at which the parser meets an error: the parser is cleared, `ERROR` is HOST's next operation, and nothing
of the block changes (log entries 19, 20). -/
theorem step_host_error {s : State} {c : Byte} {later : List Byte} {e : Cause} (hcmd : s.cmd = none) (ht : s.turn = .host)
    (hrx : s.rx = c :: later) (h : parserByte s.cfg s.parser c = (s.parser.clear, .error e)) :
    answers (step s) fun t =>
      t.cmd = some (.error (s.cfg.code e)) ∧ t.pos = .start ∧ t.parser = s.parser.clear ∧ t.sent = s.sent ∧ t.rx = later
        ∧ t.turns = s.turns.tail ∧ blockFrame s t := by
  obtain ⟨-, hbyte⟩ := stepPollsLink s ht hcmd
  have htake : ({ s.popTurn with rx := later } : State).takeByte c =
      { s.popTurn with rx := later, parser := s.parser.clear, cmd := some (.error (s.cfg.code e)), pos := .start } := by
    simp only [State.takeByte, State.popTurn_cfg, State.popTurn_parser, h]
  exact ⟨_, hbyte c later hrx, by rw [htake]; exact ⟨rfl, rfl, rfl, rfl, rfl, rfl, blockFrame_refl s⟩⟩

/-- The `ERROR` operation sends its one frame and touches nothing else (rule R185). -/
theorem exec_error_reports (code : Int) (t : State) :
    answers (exec (.error code) t) fun u => endedWith [errorText code] t u ∧ blockFrame t u ∧ hostFrame t u := by
  obtain ⟨hend, -, -, -, -, hhost⟩ := respond_finish_frame t (errorText code)
  exact ⟨_, rfl, hend, blockFrame_refl t, hhost⟩

/-- Settles O12: the close brace is `closeHeader_of_too_large`, and the two steps are `step_host_error` and `exec_error_reports`. -/
theorem oversizedFrameReported : Obligations.OversizedFrameReported := by
  intro s n d later hcmd ht hrx hq hcomma hlen hcap hcode
  have hbyte : parserByte s.cfg s.parser 0x7D#8 = (s.parser.clear, .error .frameTooLarge) :=
    (parserByte_chClose hq).trans (closeHeader_of_too_large hcomma hlen hcap)
  obtain ⟨t, hstep, herror, hpos, hparser, hsent, hin, hturns, hblock⟩ := step_host_error hcmd ht hrx hbyte
  obtain ⟨u, hexec, hend, hblock', hhost⟩ := exec_error_reports s.cfg.errFrameTooLarge t
  have ⟨_, _, hclear, _⟩ := hend
  rw [← errorText_neg_two, ← hcode]
  exact ⟨t, hstep, herror, hpos, hsent, hin, hturns, congrArg Parser.pstate hparser, hblock, u, hexec, hend,
    congrArg Parser.pstate hclear, hblock', hhost⟩

/-- The three causes of a malformed header: no comma, no numeral as length, a byte with no room left (rules R90, R91, R194). -/
theorem parserByte_malformed {p : Params} {q : Parser} {c : Byte} (hq : q.pstate = .readingHeader)
    (h : (c = chClose ∧ q.commaAt = none)
      ∨ (c = chClose ∧ ∃ n, q.commaAt = some n ∧ parseNumeral 10 (q.header.drop (n + 1)) = none)
      ∨ (c ≠ chClose ∧ c ≠ chBang ∧ c ≠ chQuery ∧ p.headerCap ≤ q.header.length)) :
    parserByte p q c = (q.clear, .error .malformedHeader) := by
  obtain ⟨rfl, hcomma⟩ | ⟨rfl, n, hcomma, hlen⟩ | ⟨hclose, hbang, hquery, hcap⟩ := h
  · exact (parserByte_chClose hq).trans (closeHeader_of_no_comma hcomma)
  · exact (parserByte_chClose hq).trans (closeHeader_of_bad_length hcomma hlen)
  · exact (parserByte_of_readingHeader hq (kindOf_eq_none hbang hquery)).trans (headerByte_overrun hclose hcap)

/-- Settles O13: each cause is `parserByte_malformed`, and the two steps are `step_host_error` and `exec_error_reports`. -/
theorem malformedHeaderReported : Obligations.MalformedHeaderReported := by
  intro s c later hcmd ht hrx hq hcause
  obtain ⟨t, hstep, herror, hpos, hparser, hsent, hin, hturns, hblock⟩ :=
    step_host_error hcmd ht hrx (parserByte_malformed hq hcause)
  exact ⟨t, hstep, herror, hpos, hparser, hsent, hin, hturns, hblock, exec_error_reports _ t⟩

/-! ### Who writes a cell, and who enables the clock (rule R206) -/

/-- The cells of one bank are what that bank lists, and its launch contents. -/
theorem State.cell_congr_bank {s t : State} {b : Bank} (h : t.bank b = s.bank b) (hc : t.cfg = s.cfg) (a : Nat) :
    t.cell b a = s.cell b a := by
  simp only [State.cell, h, hc]

/-- The cells after an `E_DATA_WR` that answers: those before it, but for its own address below `RAM_LEN` (rule R114). -/
theorem cell_of_exec_eDataWr {s t : State} (e : exec .eDataWr s = .next t) (b : Bank) (a : Nat) :
    t.cell b a = if b = .ram ∧ a = (busAddr s.cfg s.ah s.al).toNat ∧ (busAddr s.cfg s.ah s.al).toNat < s.cfg.ramLen
      then s.sampled.b else s.cell b a := by
  obtain ⟨⟨hp, hk, hd, hrel⟩, -⟩ := next_of_pre e
  obtain ⟨u, hu, -, hcell, -⟩ := writeCycleShadowsRam s hp hk hd hrel
  cases e.symm.trans hu
  exact hcell b a

/-- Only `ROM` and `ROMLW` change a ROM cell. -/
theorem rom_changed {i : Instr} {s t : State} (e : exec i s = .next t) {a : Nat} (h : t.cell .rom a ≠ s.cell .rom a) :
    (∃ x, i = .rom x) ∨ ∃ x, i = .romlw x := by
  by_contra hi
  have hbank (hrom : t.rom = s.rom) : False := h (State.cell_congr_bank (b := .rom) hrom (exec_cfg e) a)
  by_cases hwr : i = .eDataWr
  · subst hwr
    exact h ((cell_of_exec_eDataWr e .rom a).trans (if_neg nofun))
  by_cases hclr : i = .ramclr
  · subst hclr
    obtain ⟨-, hrom⟩ | ⟨k, -, -, -, hrom⟩ := exec_ramclr_banks e
    · exact hbank hrom
    · exact hbank hrom
  · exact hbank (exec_banks hwr (fun x hx => hi (.inl ⟨x, hx⟩)) (fun x hx => hi (.inr ⟨x, hx⟩)) hclr e).2

/-- Only `RAMCLR`, and `E_DATA_WR` at its own address below `RAM_LEN`, change a RAM cell. -/
theorem ram_changed {i : Instr} {s t : State} (e : exec i s = .next t) {a : Nat} (h : t.cell .ram a ≠ s.cell .ram a) :
    (i = .eDataWr ∧ a = (busAddr s.cfg s.ah s.al).toNat ∧ a < s.cfg.ramLen) ∨ i = .ramclr := by
  have hbank (hram : t.ram = s.ram) : False := h (State.cell_congr_bank (b := .ram) hram (exec_cfg e) a)
  by_cases hwr : i = .eDataWr
  · subst hwr
    by_contra hout
    exact h ((cell_of_exec_eDataWr e .ram a).trans (if_neg fun ⟨_, ha, hlt⟩ => hout (.inl ⟨rfl, ha, ha ▸ hlt⟩)))
  by_cases hclr : i = .ramclr
  · exact .inr hclr
  by_cases hrom : (∃ x, i = .rom x) ∨ ∃ x, i = .romlw x
  · obtain ⟨hram, -⟩ | ⟨-, -, -, hram, -⟩ := exec_rom_banks hrom e
    · exact (hbank hram).elim
    · exact (hbank hram).elim
  · exact (hbank (exec_banks hwr (fun x hx => hrom (.inl ⟨x, hx⟩)) (fun x hx => hrom (.inr ⟨x, hx⟩)) hclr e).1).elim

/-- Only a command of HOST enables the clock: ENGINE does not, and the release of the target's reset leaves Control State alone. -/
theorem isCommand_of_clock_enabled {i : Instr} {s t : State} (e : exec i s = .next t) (hs : s.clockEnabled = false)
    (ht : t.clockEnabled = true) : isCommand i = true := by
  by_cases hi : isEngineOp i = true
  · exact absurd ht (by simp [exec_engine_clockOff hi hs e])
  by_cases hr : i = .resetRelease
  · subst hr
    cases e
    exact absurd ht (by simp [hs])
  · simp [isCommand, hi, hr]

/-- A command is run on HOST's turn only, as the command HOST has before it: the selector names no command, and the release move is
none (rules R14, R84, R86). -/
theorem fetch_command {s : State} {i : Instr} (hf : s.fetch = .run i) (hi : isCommand i = true) :
    s.turn = .host ∧ s.cmd = some i := by
  cases ht : s.turn <;> simp only [State.fetch, ht] at hf
  case engine =>
    unfold State.fetchEngine at hf
    split at hf
    next j hsel =>
      cases hf
      exact absurd (isEngineOp_of_decodeSelector hsel) (by simp [isEngineOp_of_isCommand hi])
    next => cases hf
  case host =>
    unfold State.fetchHost at hf
    split at hf
    next j hc => cases hf; exact ⟨rfl, hc⟩
    next => cases hf
  case release =>
    unfold State.fetchRelease at hf
    split at hf <;> cases hf
    cases hi

/-- A byte of the link changes nothing of the block (rules R88 to R95). -/
theorem blockFrame_takeByte (s : State) (c : Byte) : blockFrame s (s.takeByte c) := by
  obtain ⟨-, ht⟩ | ⟨i, -, -, ht⟩ := takeByte_cases s c <;> rw [ht] <;> exact blockFrame_refl s

theorem blockFrame_pollLink (s : State) : blockFrame s s.pollLink := by
  unfold State.pollLink
  split
  · exact blockFrame_refl s
  · exact blockFrame_takeByte { s with rx := _ } _

/-- A step that changes the block has run an operation: a poll and a move that is not offered leave it alone. -/
theorem step_runs_or_blockFrame {s t : State} (e : step s = .next t) :
    (∃ i, s.fetch = .run i ∧ exec i s.popTurn = .next t) ∨ blockFrame s t := by
  obtain hrun | ⟨-, rfl⟩ | ⟨-, rfl⟩ := step_cases e
  · exact .inl hrun
  · exact .inr (blockFrame_pollLink s.popTurn)
  · exact .inr (blockFrame_refl s)

/-- Settles O53: what an operation may change is `rom_changed`, `ram_changed` and `isCommand_of_clock_enabled`, and a command is run on
HOST's turn (`fetch_command`). -/
theorem portRightsHold : Obligations.PortRightsHold := by
  refine ⟨fun i s t e => ⟨fun a => rom_changed e, fun a => ram_changed e, isCommand_of_clock_enabled e⟩, fun s t e => ?_⟩
  obtain ⟨i, hf, ei⟩ | ⟨-, -, ⟨hclock, -⟩, hmem, -⟩ := step_runs_or_blockFrame e
  · refine ⟨fun a ha => ?_, fun a ha => ?_, fun hs ht => (fetch_command hf (isCommand_of_clock_enabled ei hs ht)).1⟩
    · obtain ⟨x, rfl⟩ | ⟨x, rfl⟩ := rom_changed ei ha
      · exact (fetch_command hf rfl).imp_right fun hc => .inl ⟨x, hc⟩
      · exact (fetch_command hf rfl).imp_right fun hc => .inr ⟨x, hc⟩
    · obtain ⟨rfl, haddr⟩ | rfl := ram_changed ei ha
      · exact .inl ⟨hf, haddr⟩
      · exact .inr (fetch_command hf rfl)
  · exact ⟨fun a ha => absurd (hmem .rom a) ha, fun a ha => absurd (hmem .ram a) ha,
      fun hs ht => absurd (hclock.symm.trans ht) (by simp [hs])⟩

end Sys2Proof.Machine
end

section
/-! PROOFS. Start-up meets the invariant; and what fairness brings about: the engine comes to rest, a lease is had and ends, and a pulse
gets its cycle (rules R221, R242). -/

namespace Sys2Proof.Machine

/-! ### Start-up (rule R221) -/

theorem startUp_inv (p : Params) : (State.startUp p).Inv :=
  ⟨rfl, rfl, rfl, rfl, rfl, by simp [widthOk, State.startUp]⟩

/-- Settles O50: `State.reset` is a start-up (`startUp_inv`). -/
theorem resetMeetsInvariant : Obligations.ResetMeetsInvariant := ⟨startUp_inv _, startUp_inv⟩

/-! ### The step of each agent -/

/-- ENGINE's turn in a legal state runs an engine operation. -/
theorem stepAs_engine {s : State} (h : s.Inv) :
    ∃ i t, stepAs .engine s = .next t ∧ isEngineOp i = true ∧ exec i s = .next t ∧ t.Inv := by
  have ⟨hengine, _⟩ := h
  obtain ⟨i, hf, hi, t, e⟩ := fetchEngine_answers hengine
  refine ⟨i, t, ?_, hi, e, exec_engine_inv hi h e⟩
  rw [stepAs_eq]
  simp only [hf, e]

theorem stepAs_host_command {s : State} {i : Instr} (h : s.cmd = some i) : stepAs .host s = exec i s := by
  rw [stepAs_eq]
  simp only [State.fetchHost, h]

theorem stepAs_host_quiet {s : State} (h : s.cmd = none) (hrx : s.rx = []) : stepAs .host s = .next s := by
  rw [stepAs_eq]
  simp only [State.fetchHost, h, State.pollLink, hrx]

/-- A release turn, offered or not, touches the target's reset only, and adds nothing on the clock line (rules R145, R204). -/
theorem stepAs_release (s : State) :
    ∃ v trace, stepAs .release s = .next { s with resetAsserted := v, pinTrace := trace }
      ∧ clockEvents trace = clockEvents s.pinTrace := by
  rw [stepAs_eq]
  by_cases h : s.cfg.releasePolicy = .anyTime ∧ s.resetRan = true
  · refine ⟨false, _, by simp only [fetchRelease_of_reset h.1 h.2]; rfl, ?_⟩
    simp [clockEvents_noteEvents, clockEvents_pinChange]
  · exact ⟨s.resetAsserted, s.pinTrace, by simp only [State.fetchRelease, if_neg h], rfl⟩

/-! ### The engine on its way to rest (rules R116, R124) -/

/-- ENGINE is in `Idle` with the clock disabled. -/
def State.AtRest (s : State) : Prop := s.phase = .idle ∧ s.clockEnabled = false

/-- How many operations are left to ENGINE until it is at rest, when the cycle it is in, or the next one, is its last. -/
def State.opsLeft (s : State) : Nat :=
  match s.phase with
  | .idle => if s.clockEnabled then 5 else 0
  | .acqLo => 4
  | .acqHi => 3
  | .data => if s.clk then 1 else 2

/-- What those operations add on the clock line. -/
def State.edgesLeft (s : State) : List Bool :=
  if s.phase = .idle ∧ s.clockEnabled = false then [] else if s.clk then [false] else [true, false]

theorem State.opsLeft_le (s : State) : s.opsLeft ≤ 5 := by
  unfold State.opsLeft
  (repeat' split) <;> omega

theorem State.AtRest.edgesLeft {s : State} (h : s.AtRest) : s.edgesLeft = [] := if_pos h

theorem exec_engine_atRest {i : Instr} {s t : State} (hi : isEngineOp i = true) (h : s.AtRest) (e : exec i s = .next t) : t = s :=
  exec_engine_rest hi h.1 h.2 e

/-- An engine operation adds on the clock line the change of the clock, if it makes one (rules R35, R38). -/
theorem exec_engine_clockEvents {i : Instr} {s t : State} (hi : isEngineOp i = true) (e : exec i s = .next t) :
    clockEvents t.pinTrace = clockEvents s.pinTrace ++ if t.clk = s.clk then [] else [t.clk] := by
  cases i <;> simp only [isEngineOp, Bool.false_eq_true] at hi <;> obtain ⟨hpre, rfl⟩ := next_of_pre e
  case eIdlePoll => cases s.clockEnabled <;> simp
  case eAcqLo => simp [State.acqLoPins, clockEvents_noteEvents, clockEvents_pinChange]
  case eAcqHi => simp [clockEvents_noteEvents, clockEvents_pinChange]
  case eDataWr | eDataRd => simp [clockEvents_noteEvents, clockEvents_pinChange, clockEvents_rise, hpre]
  case eClkFall => simp [clockEvents_noteEvents, clockEvents_fall, hpre]

/-- While a single step is set or the clock is disabled, each engine operation brings the engine nearer to rest. -/
theorem exec_engine_advances {i : Instr} {s t : State} (hi : isEngineOp i = true) (e : exec i s = .next t) (hrest : ¬s.AtRest)
    (hlast : s.singleStep = true ∨ s.clockEnabled = false) :
    t.opsLeft < s.opsLeft ∧ clockEvents t.pinTrace ++ t.edgesLeft = clockEvents s.pinTrace ++ s.edgesLeft := by
  rw [exec_engine_clockEvents hi e, List.append_assoc, List.append_cancel_left_eq]
  cases i <;> simp only [isEngineOp, Bool.false_eq_true] at hi <;> obtain ⟨hpre, rfl⟩ := next_of_pre e
  case eIdlePoll =>
    have hc : s.clockEnabled = true := by simpa [State.AtRest, hpre] using hrest
    simp [State.opsLeft, State.edgesLeft, hpre, hc]
  case eAcqLo | eAcqHi | eDataWr | eDataRd => simp [State.opsLeft, State.edgesLeft, hpre]
  case eClkFall =>
    obtain h | h := hlast <;>
      simp [State.opsLeft, State.edgesLeft, hpre, h, phaseAfterCycle, clockAfterCycle]

/-- What the induction over a fair schedule asks of the step of agent `a` from `s` to `t`: it brings the measure `mu` down, or leaves
it as it is and is not the step of the agent `who` names (rule R242). -/
def Progress (mu : State → Nat) (who : State → Turn) (a : Turn) (s t : State) : Prop :=
  mu t < mu s ∨ (mu t = mu s ∧ who t = who s ∧ a ≠ who s)

/-! ### A lease under a fair schedule (rules R161, R162, R242) -/

/-- How many cells the bulk mutation that HOST runs may write. -/
def State.bulkLength (s : State) : Nat :=
  match s.cmd with
  | some (.romlw (.ok d)) => d.data.length
  | _ => s.cfg.ramLen

/-- A bound on the steps left to the release of the lease, of HOST and, in the wait, of ENGINE. Before the forcing ENGINE's steps do
not count, since the clock may run free. -/
def State.leaseLeft (s : State) : Nat :=
  match s.pos with
  | .leaseForce => s.bulkLength + 8
  | .leaseWait => s.bulkLength + 2 + s.opsLeft
  | .body k => s.bulkLength - k + 1
  | .leaseRelease _ => 1
  | _ => 0

/-- The agent whose step brings the release nearer. -/
def State.leaseAgent (s : State) : Turn := if s.pos = .leaseWait ∧ s.phase ≠ .idle then .engine else .host

/-- The mutation is under way: at a cell or at its release. -/
def State.Mutating (s : State) : Prop := (∃ k, s.pos = .body k) ∨ ∃ e, s.pos = .leaseRelease e

theorem bulkLength_congr {s t : State} (h : t.cmd = s.cmd) (hc : t.cfg = s.cfg) : t.bulkLength = s.bulkLength := by
  simp only [State.bulkLength, h, hc]

theorem State.Mutating.leaseAgent {s : State} (h : s.Mutating) : s.leaseAgent = .host := by
  obtain ⟨k, h⟩ | ⟨e, h⟩ := h <;> simp [State.leaseAgent, h]

theorem romlwPos_cases (d : RomLoad) (k : Nat) : romlwPos d k = .body k ∨ ∃ e, romlwPos d k = .leaseRelease e := by
  unfold romlwPos
  split
  · exact .inl rfl
  · exact .inr ⟨_, rfl⟩

theorem ramclrPos_cases (len k : Nat) : ramclrPos len k = .body k ∨ ∃ e, ramclrPos len k = .leaseRelease e := by
  unfold ramclrPos
  split
  · exact .inl rfl
  · exact .inr ⟨_, rfl⟩

/-- Only a bulk mutation has the positions of the lease (rule R160). -/
theorem isBulk_of_posOk {p : Params} {i : Instr} {q : Pos} (h : posOk p i q = true)
    (hq : q = .leaseForce ∨ q = .leaseWait ∨ (∃ k, q = .body k) ∨ ∃ e, q = .leaseRelease e) : isBulk i = true := by
  have hstart : q ≠ .start := by rintro rfl; simp at hq
  have hsecond : q ≠ .second := by rintro rfl; simp at hq
  cases i
  case ramclr => rfl
  case romlw x =>
    cases x with
    | ok d => rfl
    | bad c => simp [posOk, hstart] at h
  case ramlr x | romlr x =>
    cases x with
    | ok x => obtain rfl | rfl | ⟨k, rfl⟩ | ⟨e, rfl⟩ := hq <;> simp [posOk] at h
    | bad c => simp [posOk, hstart] at h
  all_goals simp [posOk, hstart, hsecond] at h

/-- Where a lease is held HOST runs a bulk mutation: at the forcing; at the wait, with the clock disabled; or past it, with the engine at
rest (rules R42, R65, R161). -/
theorem State.Inv.of_leased {s : State} (h : s.Inv) (hl : s.leaseSaved ≠ none) :
    ∃ i, s.cmd = some i ∧ isBulk i = true ∧ posOk s.cfg i s.pos = true
      ∧ (s.pos = .leaseForce ∨ (s.pos = .leaseWait ∧ s.clockEnabled = false) ∨ (s.Mutating ∧ s.AtRest)) := by
  obtain ⟨-, hcmd, hlease, -⟩ := h
  have hcases : s.pos = .leaseForce ∨ (s.pos = .leaseWait ∧ s.clockEnabled = false) ∨ (s.Mutating ∧ s.AtRest) := by
    cases hq : s.pos <;> simp_all [leaseOk, State.Mutating, State.AtRest]
  have hq : s.pos = .leaseForce ∨ s.pos = .leaseWait ∨ (∃ k, s.pos = .body k) ∨ ∃ e, s.pos = .leaseRelease e :=
    hcases.imp_right (Or.imp And.left And.left)
  cases hc : s.cmd with
  | none => simp_all [cmdOk]
  | some i =>
    simp only [cmdOk, hc, Bool.and_eq_true] at hcmd
    exact ⟨i, rfl, isBulk_of_posOk hcmd.2 hq, hcmd.2, hcases⟩

/-- Under the lease an engine turn leaves it alone, and brings the release nearer where HOST waits for the engine. -/
theorem engine_leaseProgress {i : Instr} {s t : State} (h : s.Inv) (hl : s.leaseSaved ≠ none) (hi : isEngineOp i = true)
    (e : exec i s = .next t) : Progress State.leaseLeft State.leaseAgent .engine s t ∧ t.leaseSaved = s.leaseSaved := by
  obtain ⟨⟨hsaved, -, hcmd, hpos, -⟩, -, -, -, hcfg, -⟩ := exec_engine_frame hi e
  refine ⟨?_, hsaved⟩
  have hlen := bulkLength_congr hcmd hcfg
  obtain ⟨-, -, -, -, hq | ⟨hq, hc⟩ | ⟨hq, hrest⟩⟩ := h.of_leased hl
  · exact .inr (by simp [State.leaseLeft, State.leaseAgent, hpos, hq, hlen])
  · by_cases hp : s.phase = .idle
    · obtain rfl := exec_engine_atRest hi ⟨hp, hc⟩ e
      exact .inr ⟨rfl, rfl, by simp [State.leaseAgent, hp]⟩
    · obtain ⟨hops, -⟩ := exec_engine_advances hi e (fun hrest => hp hrest.1) (.inr hc)
      left
      simp only [State.leaseLeft, hpos, hq, hlen]
      omega
  · obtain rfl := exec_engine_atRest hi hrest e
    exact .inr ⟨rfl, rfl, by simp [hq.leaseAgent]⟩

/-- After the wait the mutation is at its first cell, if it has one, or at its release: nearer than in the wait. -/
theorem leaseLeft_of_bulkFirst {i : Instr} {s : State} (hi : isBulk i = true) (hpos : s.pos = bulkFirst s.cfg i) :
    s.leaseLeft < s.bulkLength + 2 := by
  have hfirst : s.pos = .body 0 ∨ ∃ e, s.pos = .leaseRelease e := by
    rw [hpos]
    obtain ⟨d, rfl⟩ | rfl := isBulk_cases hi
    · exact romlwPos_cases d 0
    · exact ramclrPos_cases s.cfg.ramLen 0
  obtain h | ⟨e, h⟩ := hfirst <;> simp [State.leaseLeft, h]

/-- A cell write goes on to the next cell or to the release (rules R164, R165). -/
theorem exec_bulk_body {i : Instr} {s : State} {k : Nat} (hi : isBulk i = true) (hok : posOk s.cfg i (.body k) = true)
    (hcmd : s.cmd = some i) (hpos : s.pos = .body k) :
    k < s.bulkLength ∧ ∃ t, exec i s = .next t ∧ t.cmd = s.cmd
      ∧ (t.pos = .body (k + 1) ∨ ∃ e, t.pos = .leaseRelease e) := by
  obtain ⟨d, rfl⟩ | rfl := isBulk_cases hi
  · have hk : k < d.data.length := by simpa [posOk] using hok
    refine ⟨by simpa only [State.bulkLength, hcmd] using hk, _, exec_romlw_body hpos d, ?_⟩
    have hv := List.getElem?_eq_getElem hk
    rcases Nat.lt_or_ge (d.addr.toNat + k) s.cfg.romLen with hlt | hge
    · rw [State.romlwWrite_of_lt hv hlt, hcmd]
      exact ⟨rfl, romlwPos_cases d (k + 1)⟩
    · rw [State.romlwWrite_of_le hv hge, hcmd]
      exact ⟨rfl, .inr ⟨_, rfl⟩⟩
  · have hk : k < s.cfg.ramLen := by simpa [posOk] using hok
    refine ⟨by simpa only [State.bulkLength, hcmd] using hk, _, exec_ramclr_body hpos, ?_⟩
    rw [State.ramclrWrite_of_lt hk, hcmd]
    exact ⟨rfl, ramclrPos_cases s.cfg.ramLen (k + 1)⟩

/-- Under the lease HOST's turn brings the release nearer, or waits for the engine; before the mutation it keeps the lease. -/
theorem host_leaseProgress {s : State} (h : s.Inv) (hl : s.leaseSaved ≠ none) :
    ∃ t, stepAs .host s = .next t ∧ Progress State.leaseLeft State.leaseAgent .host s t
      ∧ (¬s.Mutating → t.leaseSaved = s.leaseSaved) := by
  obtain ⟨i, hcmd, hi, hok, hcases⟩ := h.of_leased hl
  rw [stepAs_host_command hcmd]
  obtain hq | ⟨hq, hc⟩ | ⟨⟨k, hq⟩ | ⟨c, hq⟩, -⟩ := hcases
  · refine ⟨_, exec_bulk_leaseForce hi hq, .inl ?_, fun _ => rfl⟩
    have hlen := bulkLength_congr (s := s) (t := s.leaseForce i) hcmd.symm rfl
    have hops := (s.leaseForce i).opsLeft_le
    simp only [State.leaseLeft, State.leaseForce_pos, hq, hlen]
    omega
  · refine ⟨_, exec_bulk_leaseWait hi hq, ?_, fun _ => rfl⟩
    by_cases hp : s.phase = .idle
    · rw [leaseWait_of_idle hp]
      have hlen := bulkLength_congr (s := s) (t := s.goTo i (bulkFirst s.cfg i)) hcmd.symm rfl
      have hlt := leaseLeft_of_bulkFirst (s := s.goTo i (bulkFirst s.cfg i)) hi rfl
      have hs : s.leaseLeft = s.bulkLength + 2 + s.opsLeft := by simp only [State.leaseLeft, hq]
      exact .inl (by omega)
    · rw [leaseWait_of_not_idle hp]
      have hlen := bulkLength_congr (s := s) (t := s.goTo i .leaseWait) hcmd.symm rfl
      refine .inr ⟨?_, ?_, ?_⟩
      · simp only [State.leaseLeft, State.goTo_pos, hq, hlen]
        rfl
      · simp only [State.leaseAgent, State.goTo_pos, State.goTo_phase, hq]
      · simp [State.leaseAgent, hq, hp]
  · rw [hq] at hok
    obtain ⟨hk, t, e, hcmd', hnext⟩ := exec_bulk_body hi hok hcmd hq
    refine ⟨t, e, .inl ?_, fun hm => absurd (.inl ⟨k, hq⟩) hm⟩
    have hlen := bulkLength_congr hcmd' (exec_cfg e)
    obtain hq' | ⟨c, hq'⟩ := hnext <;> simp only [State.leaseLeft, hq, hq', hlen] <;> omega
  · refine ⟨_, exec_bulk_leaseRelease hi hq, .inl ?_, fun hm => absurd (.inr ⟨c, hq⟩) hm⟩
    simp [State.leaseLeft, hq]

/-- Under the lease every agent's step is progress to the release, and before the mutation it keeps the lease. -/
theorem stepAs_leaseProgress (a : Turn) {s : State} (h : s.Inv) (hl : s.leaseSaved ≠ none) :
    ∃ t, stepAs a s = .next t ∧ t.Inv ∧ Progress State.leaseLeft State.leaseAgent a s t
      ∧ (¬s.Mutating → t.leaseSaved = s.leaseSaved) := by
  cases a
  case engine =>
    obtain ⟨i, t, hstep, hi, e, hinv⟩ := stepAs_engine h
    obtain ⟨hprogress, hsaved⟩ := engine_leaseProgress h hl hi e
    exact ⟨t, hstep, hinv, hprogress, fun _ => hsaved⟩
  case host =>
    obtain ⟨t, hstep, hprogress, hsaved⟩ := host_leaseProgress h hl
    obtain ⟨u, hstep', hinv, -⟩ := stepAs_inv .host h
    cases hstep.symm.trans hstep'
    exact ⟨t, hstep, hinv, hprogress, hsaved⟩
  case release =>
    obtain ⟨v, trace, hstep, -⟩ := stepAs_release s
    refine ⟨_, hstep, h, .inr ⟨rfl, rfl, ?_⟩, fun _ => rfl⟩
    unfold State.leaseAgent
    split <;> simp

theorem leaseAgent_ne_release (s : State) : s.leaseAgent ≠ .release := by
  unfold State.leaseAgent
  split <;> simp

/-- Settles O25: both parts are the one induction over a fair schedule, with `leaseLeft` as its measure (`stepAs_leaseProgress`). -/
theorem leaseEndsUnderFairness : Obligations.LeaseEndsUnderFairness := by
  intro s σ hinv hfair
  refine ⟨fun hpos => ?_, fun hl => ?_⟩
  · have hl : s.leaseSaved ≠ none := by
      obtain ⟨-, -, hlease, -⟩ := hinv
      intro hnone
      obtain hq | hq := hpos <;> simp [leaseOk, hq, hnone] at hlease
    obtain ⟨n, t, hrun, ⟨hinv', hl'⟩, hmut⟩ :=
      FairSchedule.reaches (P := fun t => t.Inv ∧ t.leaseSaved ≠ none) (G := State.Mutating) State.leaseLeft State.leaseAgent
        leaseAgent_ne_release (fun a u ⟨hu, hlu⟩ hm => by
          obtain ⟨t, hstep, hinv', hprogress, hsaved⟩ := stepAs_leaseProgress a hu hlu
          exact ⟨t, hstep, ⟨hinv', hsaved hm ▸ hlu⟩, hprogress⟩) hfair ⟨hinv, hl⟩
    obtain ⟨-, -, -, -, hq | ⟨hq, -⟩ | ⟨-, hrest⟩⟩ := hinv'.of_leased hl'
    · simp [State.Mutating, hq] at hmut
    · simp [State.Mutating, hq] at hmut
    · exact ⟨n, t, hrun, hrest.1, hmut⟩
  · obtain ⟨n, t, hrun, -, hnone⟩ :=
      FairSchedule.reaches (P := State.Inv) (G := fun t => t.leaseSaved = none) State.leaseLeft State.leaseAgent
        leaseAgent_ne_release (fun a u hu hlu => by
          obtain ⟨t, hstep, hinv', hprogress, -⟩ := stepAs_leaseProgress a hu hlu
          exact ⟨t, hstep, hinv', hprogress⟩) hfair hinv
    exact ⟨n, t, hrun, hnone⟩

/-! ### A pulse under a fair schedule (rules R123, R143, R242) -/

/-- The clock line from `s` to `t`: the edges of `earlier`, and the rise of a cycle whose fall is still to come. -/
def lineSince (s t : State) (earlier : List Bool) : Prop :=
  clockEvents t.pinTrace = clockEvents s.pinTrace ++ earlier ++ if t.clk then [true] else []

/-- From `s` to `t` the `CLOCKPULSE` is at one of its two writes; with the clock disabled at `s` the engine has stayed at rest. -/
structure Pulsing (s t : State) : Prop where
  inv : t.Inv
  rx : t.rx = []
  cmd : t.cmd = some .clockPulse
  sent : t.sent = s.sent
  pos : t.pos = .start ∨ (t.pos = .second ∧ t.singleStep = true)
  line : ∃ earlier, lineSince s t earlier ∧ (s.clockEnabled = false → earlier = [] ∧ t.AtRest)

/-- From `s` to `t` the `CLOCKPULSE` has responded, and `t` is on the way to rest at the end of one more cycle. -/
structure Pulsed (s t : State) : Prop where
  inv : t.Inv
  rx : t.rx = []
  cmd : t.cmd = none
  sent : t.sent = s.sent ++ [responseText kwClockPulse []]
  single : t.singleStep = true
  line : ∃ earlier, clockEvents t.pinTrace ++ t.edgesLeft = clockEvents s.pinTrace ++ earlier ++ [true, false]
    ∧ (s.clockEnabled = false → earlier = [])

/-- The steps left: those of `CLOCKPULSE`, then those of the engine on its way to rest. -/
def State.pulseLeft (t : State) : Nat :=
  match t.cmd with
  | none => t.opsLeft
  | some _ => if t.pos = .start then 7 else 6

/-- The agent whose step is the next of them. -/
def State.pulseAgent (t : State) : Turn := if t.cmd = none then .engine else .host

/-- An engine operation prolongs the clock line, by a whole cycle where it ends one. -/
theorem lineSince_engine {i : Instr} {s t u : State} {earlier : List Bool} (h : lineSince s t earlier) (hi : isEngineOp i = true)
    (e : exec i t = .next u) : ∃ later, lineSince s u later := by
  have hedge := exec_engine_clockEvents hi e
  unfold lineSince at *
  rw [h] at hedge
  cases hk : t.clk <;> cases hk' : u.clk <;> simp only [hk, hk'] at hedge ⊢
  · exact ⟨earlier, by simpa using hedge⟩
  · exact ⟨earlier, by simpa using hedge⟩
  · exact ⟨earlier ++ [true, false], by simpa using hedge⟩
  · exact ⟨earlier, by simpa using hedge⟩

section
variable {s t : State}

/-- Before the response an engine operation leaves HOST where it is. -/
theorem Pulsing.engine {i : Instr} {u : State} (h : Pulsing s t) (hu : u.Inv) (hi : isEngineOp i = true)
    (e : exec i t = .next u) : Pulsing s u ∧ Progress State.pulseLeft State.pulseAgent .engine t u := by
  obtain ⟨⟨-, -, hcmd, hpos, hrx, hsent, -⟩, hsingle, -⟩ := exec_engine_frame hi e
  obtain ⟨earlier, hline, hoff⟩ := h.line
  refine ⟨⟨hu, hrx.trans h.rx, hcmd.trans h.cmd, hsent.trans h.sent, by rw [hpos, hsingle]; exact h.pos, ?_⟩,
    .inr ⟨?_, ?_, ?_⟩⟩
  · by_cases hc : s.clockEnabled = false
    · obtain rfl := exec_engine_atRest hi (hoff hc).2 e
      exact ⟨earlier, hline, hoff⟩
    · obtain ⟨later, hline'⟩ := lineSince_engine hline hi e
      exact ⟨later, hline', fun hc' => absurd hc' hc⟩
  · simp only [State.pulseLeft, hcmd, hpos, h.cmd]
  · simp only [State.pulseAgent, hcmd]
  · simp [State.pulseAgent, h.cmd]

/-- The first write of `CLOCKPULSE` leads to the second, and the second to the response, with a whole cycle to come. -/
theorem Pulsing.host (h : Pulsing s t) :
    ∃ u, exec .clockPulse t = .next u ∧ (Pulsing s u ∨ Pulsed s u)
      ∧ Progress State.pulseLeft State.pulseAgent .host t u := by
  obtain ⟨earlier, hline, hoff⟩ := h.line
  obtain hpos | ⟨hpos, hsingle⟩ := h.pos
  · have e := exec_clockPulse_start hpos
    have hinv := exec_command_inv h.cmd h.inv e
    refine ⟨_, e, .inl ⟨hinv, h.rx, rfl, h.sent, .inr ⟨rfl, rfl⟩, earlier, hline, hoff⟩, .inl ?_⟩
    simp [State.pulseLeft, h.cmd, hpos]
  · have e := exec_clockPulse_second hpos
    have hinv := exec_command_inv h.cmd h.inv e
    refine ⟨_, e, .inr ⟨hinv, h.rx, rfl, congrArg (· ++ [_]) h.sent, hsingle, earlier, ?_, fun hc => (hoff hc).1⟩, .inl ?_⟩
    · unfold lineSince at hline
      cases hk : t.clk <;> simp [State.edgesLeft, hline, hk]
    · simpa [State.pulseLeft, h.cmd, hpos] using Nat.lt_succ_of_le (State.opsLeft_le _)

/-- Every agent's step before the response is progress. -/
theorem Pulsing.stepAs (h : Pulsing s t) (a : Turn) :
    ∃ u, stepAs a t = .next u ∧ (Pulsing s u ∨ Pulsed s u) ∧ Progress State.pulseLeft State.pulseAgent a t u := by
  cases a
  case engine =>
    obtain ⟨i, u, hstep, hi, e, hu⟩ := stepAs_engine h.inv
    obtain ⟨hpulsing, hprogress⟩ := h.engine hu hi e
    exact ⟨u, hstep, .inl hpulsing, hprogress⟩
  case host =>
    rw [stepAs_host_command h.cmd]
    exact h.host
  case release =>
    obtain ⟨v, trace, hstep, htrace⟩ := stepAs_release t
    obtain ⟨earlier, hline, hoff⟩ := h.line
    exact ⟨_, hstep, .inl ⟨h.inv, h.rx, h.cmd, h.sent, h.pos, earlier, htrace.trans hline, hoff⟩,
      .inr ⟨rfl, rfl, by simp [State.pulseAgent, h.cmd]⟩⟩

/-- Every agent's step after the response, up to the rest of the engine, is progress: HOST has nothing to read. -/
theorem Pulsed.stepAs (h : Pulsed s t) (hrest : ¬t.AtRest) (a : Turn) :
    ∃ u, stepAs a t = .next u ∧ Pulsed s u ∧ Progress State.pulseLeft State.pulseAgent a t u := by
  obtain ⟨earlier, hline, hoff⟩ := h.line
  cases a
  case engine =>
    obtain ⟨i, u, hstep, hi, e, hu⟩ := stepAs_engine h.inv
    obtain ⟨⟨-, -, hcmd, -, hrx, hsent, -⟩, hsingle, -⟩ := exec_engine_frame hi e
    obtain ⟨hops, hedges⟩ := exec_engine_advances hi e hrest (.inl h.single)
    refine ⟨u, hstep, ⟨hu, hrx.trans h.rx, hcmd.trans h.cmd, hsent.trans h.sent, hsingle.trans h.single, earlier,
      hedges.trans hline, hoff⟩, .inl ?_⟩
    simpa only [State.pulseLeft, hcmd, h.cmd] using hops
  case host => exact ⟨t, stepAs_host_quiet h.cmd h.rx, h, .inr ⟨rfl, rfl, by simp [State.pulseAgent, h.cmd]⟩⟩
  case release =>
    obtain ⟨v, trace, hstep, htrace⟩ := stepAs_release t
    exact ⟨_, hstep, ⟨h.inv, h.rx, h.cmd, h.sent, h.single, earlier, (congrArg (· ++ _) htrace).trans hline, hoff⟩,
      .inr ⟨rfl, rfl, by simp [State.pulseAgent, h.cmd]⟩⟩

end

theorem pulseAgent_ne_release (t : State) : t.pulseAgent ≠ .release := by
  unfold State.pulseAgent
  split <;> simp

/-- At the first write in `Idle` no cycle has begun. -/
theorem pulsing_start {s : State} (hinv : s.Inv) (hcmd : s.cmd = some .clockPulse) (hpos : s.pos = .start) (hp : s.phase = .idle)
    (hrx : s.rx = []) : Pulsing s s := by
  have ⟨hengine, _⟩ := hinv
  refine ⟨hinv, hrx, hcmd, rfl, .inl hpos, [], ?_, fun hc => ⟨rfl, hp, hc⟩⟩
  simp [lineSince, clk_of_idle hengine hp]

/-- Settles O16: the one induction over a fair schedule, with `pulseLeft` as its measure; at rest after the response no edge is left. -/
theorem pulseGetsItsCycleUnderFairness : Obligations.PulseGetsItsCycleUnderFairness := by
  intro s σ hinv hfair hcmd hpos hp hrx
  obtain ⟨n, t, hrun, hpulse, hdone, hrest⟩ :=
    FairSchedule.reaches (P := fun t => Pulsing s t ∨ Pulsed s t) (G := fun t => t.cmd = none ∧ t.AtRest) State.pulseLeft
      State.pulseAgent pulseAgent_ne_release (fun a t hpulse hgoal => by
        obtain h | h := hpulse
        · exact h.stepAs a
        · obtain ⟨u, hstep, hu, hprogress⟩ := h.stepAs (fun hrest => hgoal ⟨h.cmd, hrest⟩) a
          exact ⟨u, hstep, .inr hu, hprogress⟩) hfair (.inl (pulsing_start hinv hcmd hpos hp hrx))
  obtain h | h := hpulse
  · simp [h.cmd] at hdone
  · obtain ⟨earlier, hline, hoff⟩ := h.line
    rw [hrest.edgesLeft, List.append_nil] at hline
    exact ⟨n, t, earlier, hrun, hrest.1, hrest.2, h.single, h.cmd, h.sent, hline, hoff⟩

end Sys2Proof.Machine
end
